-- ==== Sys2Proof/Word.lean ====
section
/-! DEFINITION. The two word types of ACE: the byte of DMA memory and the 32-bit word of the register window. -/

namespace Sys2Proof

/-- A byte, 8 bits (00_scope.md R6). -/
abbrev Byte := BitVec 8

/-- A 32-bit word: a register of the window (10_state.md R30), a command word (30_encoding.md R120), a
word of SHA-256 (41_kdf.md R180). -/
abbrev Word := BitVec 32

end Sys2Proof
end

