-- ==== Sys2Proof/Config.lean ====
section
/-! DEFINITION. What the platform fixes, the free values the spec leaves open, and the values of `State.reset` that
the spec does not give. -/

namespace Sys2Proof

/-- A range of DMA addresses, `base` to `base + size - 1`, computed as exact integers (20_memory.md R90: a region). -/
structure Region where
  base : Nat
  size : Nat
  deriving DecidableEq, Repr

/-- The model arguments of 00_scope.md R5: BASE, dmaReadOK and dmaWriteOK. BASE is `256 * basePage`, so it is
256-byte aligned. dmaReadOK and dmaWriteOK are said by three lists of ranges: what may be read, what may be written, and
where the device registers stand, which are never admitted (20_memory.md R87; log entries 2 and 14). No step changes
them. -/
structure Platform where
  basePage : Nat
  readable : List Region
  writable : List Region
  devices : List Region
  deriving DecidableEq, Repr

namespace Config

/-- The free bytes: `draw(n)` of 00_scope.md R7, a byte under no law. The step applies it to the counter
`State.drawCount`, one new index a byte: the entropy draw of SEAL with GEN = 1 (43_container.md R292), the bytes of
Out after BUS_ERROR (20_memory.md R97) and after an abandoned command (70_reset_and_hazards.md R382).
Log entry 3. Nothing can be proved about its values. -/
opaque drawByte : Nat → Byte

/-- The free 32-bit value OUT_LEN takes when the number of output bytes is 2^32 (10_state.md R37: the register has
32 bits and the spec states no result). Log entry 4. Nothing can be proved about its values. -/
opaque freeWord : Nat → Word

/-- What an unlisted address of DMA memory reads as. DESIGN CHOICE, unsafe (log entry 1). -/
def unlistedByte : Byte := 0

/-- The model arguments that `State.reset` carries: BASE = 0x40000000, every address admitted and no device.
DESIGN CHOICE, unsafe (log entry 2): 95_test_vectors.md's conventions admit every address. -/
def resetPlatform : Platform :=
  { basePage := 0x400000, readable := [⟨0, 2 ^ 32⟩], writable := [⟨0, 2 ^ 32⟩], devices := [] }

end Config

end Sys2Proof
end

