-- ==== Sys2Proof/Syntax.lean ====
section
/-! DEFINITION. The seven commands, the assembler's mnemonics, the registers of the window and the host-program
notation. -/

namespace Sys2Proof

/-- The seven commands of 30_encoding.md R121. `ksz` is the field KSZ, all four values of which decode
(R122); `gen` is the field GEN of SEAL (R123). A command that does not use a field has none here (R125). -/
inductive Instr where
  | nop
  | kdf (ksz : BitVec 2)
  | enc (ksz : BitVec 2)
  | dec (ksz : BitVec 2)
  | sealC (ksz : BitVec 2) (gen : Bool)
  | openC (ksz : BitVec 2)
  | zeroize
  deriving DecidableEq, Repr

/-- The key-size suffix of a mnemonic: `.k16` or `.k32` (30_encoding.md R130). -/
inductive KeySuffix where
  | k16
  | k32
  deriving DecidableEq, Repr

/-- The mnemonics of 30_encoding.md R130 and the pseudo-instructions of R131 (the five constructors ending in `Default`). -/
inductive Mnemonic where
  | nop
  | kdf (k : KeySuffix)
  | enc (k : KeySuffix)
  | dec (k : KeySuffix)
  | sealC (k : KeySuffix) (gen : Bool)
  | openC (k : KeySuffix)
  | zeroize
  | kdfDefault
  | encDefault
  | decDefault
  | sealDefault
  | openDefault
  deriving DecidableEq, Repr

/-- The 27 registers of 10_state.md R30. -/
inductive Reg where
  | ctrl | status | cmd | iter | pwAddr | pwLen | srcAddr | srcLen | dstAddr | outLen | errAddr
  | key (j : Fin 8)
  | iv (j : Fin 4)
  | salt (j : Fin 4)
  deriving DecidableEq, Repr

/-- One line of a host program (30_encoding.md R132). `issueWord` is `ISSUE .word`. -/
inductive HostLine where
  | wr (r : Reg) (value : Word)
  | rd (r : Reg)
  | issue (m : Mnemonic)
  | issueWord (w : Word)
  | wait
  | mem (addr : Nat) (bytes : List Byte)
  deriving DecidableEq, Repr

end Sys2Proof
end

