-- ==== Sys2Proof/Machine/State.lean ====
section
/-! DEFINITION. The state of ACE as plain data, the ways a step can stop, and the state after reset. -/

namespace Sys2Proof.Machine

/-- DMA memory (10_state.md R47): the listed bytes, addresses strictly rising, none equal to what an unlisted
address reads as (log entry 1). -/
abbrev Memory := List Host.Cell

/-- The error codes of 60_exceptions.md R340. Codes 8-15 are reserved and never reported, so they have no name. -/
inductive ErrorCode where
  | ok
  | emptyPassword
  | malformedContainer
  | integrityOrPassword
  | preconditionViolation
  | illegalCommand
  | regionError
  | busError
  deriving DecidableEq, Repr

/-- STATUS, offset 0x04 (10_state.md R33, R43). -/
structure Status where
  busy : Bool
  done : Bool
  ovr : Bool
  err : ErrorCode
  deriving DecidableEq, Repr

/-- The registers a command reads as operands (10_state.md R35, R36, R39-R41): exactly what the accept copies into
`pending` (40_command_model.md R141). -/
structure OperandRegs where
  iter : Word
  pwAddr : Word
  pwLen : Word
  srcAddr : Word
  srcLen : Word
  dstAddr : Word
  key : Vector Word 8
  iv : Vector Word 4
  salt : Vector Word 4
  deriving DecidableEq, Repr

/-- The operand registers after reset (10_state.md R30, R48): ITER = 100000, all others 0. -/
def OperandRegs.reset : OperandRegs where
  iter := 100000
  pwAddr := 0
  pwLen := 0
  srcAddr := 0
  srcLen := 0
  dstAddr := 0
  key := #v[0, 0, 0, 0, 0, 0, 0, 0]
  iv := #v[0, 0, 0, 0]
  salt := #v[0, 0, 0, 0]

/-- The sequencer (10_state.md R45). -/
inductive Sequencer where
  | idle
  | running (w : Word)
  deriving DecidableEq, Repr

/-- `pending`: the accepted word and the frozen operand registers (10_state.md R44, 40_command_model.md R140, R141). -/
structure Pending where
  word : Word
  operands : OperandRegs
  deriving DecidableEq, Repr

/-- The hidden working state of 10_state.md R44, without `pending` and the sequencer, and the two pad states of 41_kdf.md
R192, which R210 names beside it: Compress(H(0), K0 ⊕ ipad) and Compress(H(0), K0 ⊕ opad). A command's effects are
committed as one step (R45), which leaves all of it zero, so what it holds inside a command is not observable
(log entry 7). -/
structure Hidden where
  dk : Vector Byte 32
  k0 : Vector Byte 64
  t : Vector Byte 32
  u : Vector Byte 32
  j : Word
  padInner : Vector Word 8
  padOuter : Vector Word 8
  shaVars : Vector Word 8
  shaChain : Vector Word 8
  shaSchedule : Vector Word 64
  aesState : Vector Byte 16
  keySchedule : Vector Word 60
  round : Nat
  prev : Vector Byte 16
  held : Vector Byte 16
  deriving DecidableEq, Repr

/-- All hidden working state zero, as every completion and every reset leaves it (10_state.md R44). -/
def Hidden.zero : Hidden where
  dk := Vector.replicate 32 0
  k0 := Vector.replicate 64 0
  t := Vector.replicate 32 0
  u := Vector.replicate 32 0
  j := 0
  padInner := Vector.replicate 8 0
  padOuter := Vector.replicate 8 0
  shaVars := Vector.replicate 8 0
  shaChain := Vector.replicate 8 0
  shaSchedule := Vector.replicate 64 0
  aesState := Vector.replicate 16 0
  keySchedule := Vector.replicate 60 0
  round := 0
  prev := Vector.replicate 16 0
  held := Vector.replicate 16 0

/-- What moves the machine: the host's actions, in the order the bus delivers them, the engine's turns and the reset
input (40_command_model.md R160, 60_exceptions.md R347). Log entries 5, 12 and 16. -/
inductive Event where
  /-- a host bus read of `size` bytes (30_encoding.md R129) -/
  | busRead (addr size : Nat)
  /-- a host bus write of `size` bytes (30_encoding.md R129) -/
  | busWrite (addr size : Nat) (data : Word)
  /-- a host-side load of `n` bytes of DMA memory -/
  | memLoad (addr n : Nat)
  /-- a host-side store to DMA memory (`MEM` of 30_encoding.md R132) -/
  | memStore (addr : Nat) (bytes : List Byte)
  /-- the pseudo-instruction WAIT of 30_encoding.md R132 -/
  | wait
  /-- the engine's turn: the Complete step, if one is enabled (40_command_model.md R142) -/
  | engine
  /-- the reset input (70_reset_and_hazards.md R380) -/
  | powerOnReset
  deriving DecidableEq, Repr

/-- What the host gets back (30_encoding.md R129, R132): a register value, or bytes of DMA memory. -/
inductive HostResult where
  | word (v : Word)
  | bytes (bs : List Byte)
  deriving DecidableEq, Repr

/-- The whole state. `ie` to `errAddr` are the window's registers (10_state.md R30); `sequencer`, `pending` and
`hidden` the hidden state (R44, R45); `mem` is DMA memory (R47); `platform` the model arguments (00_scope.md R5).
The last three fields are the model's own (log entries 3, 5 and 13). -/
structure State where
  ie : Bool
  status : Status
  cmd : Word
  regs : OperandRegs
  outLen : Word
  errAddr : Word
  sequencer : Sequencer
  pending : Option Pending
  hidden : Hidden
  mem : Memory
  platform : Platform
  drawCount : Nat
  inputs : List Event
  results : List HostResult
  deriving DecidableEq, Repr

/-- Why a step stops. Every one is a fault of the host's use of ACE (40_command_model.md R160). -/
inductive Fault where
  /-- Raised by a host bus access that is not an aligned 32-bit access of the window (20_memory.md R84). Safe. -/
  | mmioBadAccess
  /-- Raised by a host-side access to a byte of Pw, In or Out of the running command (20_memory.md R100 item 4). Safe. -/
  | regionRace
  /-- Raised by a host-side access to an address above 2^32-1, which does not exist (10_state.md R47). Safe. -/
  | noSuchDmaAddress
  /-- Raised by a host-side access to a byte of a device register in the DMA space, whose behaviour the spec does not
  give (20_memory.md R87, R88). Safe. -/
  | deviceAccess
  deriving DecidableEq, Repr

/-- Why a command has no meaning. Decode is total and every command has one (40_command_model.md R160), so no meaning
of this model raises it. -/
inductive Refusal where
  /-- Raised by an arm of `exec` for a command whose meaning is not written yet; no arm raises it. Safe. -/
  | notModelled (mnemonic : String)
  deriving DecidableEq, Repr

/-- The machine after power-on reset (10_state.md R48, 70_reset_and_hazards.md R380). The platform, memory, the free
values' counter and the two lists of host traffic are no state of ACE (log entries 1, 2, 3, 5, 13). -/
def State.reset : State where
  ie := false
  status := { busy := false, done := false, ovr := false, err := .ok }
  cmd := 0
  regs := OperandRegs.reset
  outLen := 0
  errAddr := 0
  sequencer := .idle
  pending := none
  hidden := Hidden.zero
  mem := []
  platform := Config.resetPlatform
  drawCount := 0
  inputs := []
  results := []

end Sys2Proof.Machine
end

