-- ==== Sys2Proof/WellFormed.lean ====
section
/-! DEFINITION. Which commands carry a legal operand: KSZ is the only field with reserved values. -/

namespace Sys2Proof

/-- KSZ is one of the legal values 0b00 and 0b10 (30_encoding.md R122). -/
def kszLegal (ksz : BitVec 2) : Bool := ksz == 0b00#2 || ksz == 0b10#2

/-- The commands of 30_encoding.md R127's column "executes: yes". Decoding is wider: a reserved KSZ
decodes as the command its OP names and fails at execution (R122), so the decoder does not refuse what this check refuses,
and every statement of this package about decoding and execution covers the ill-formed commands too. -/
def Instr.wellFormed : Instr → Bool
  | .nop => true
  | .kdf ksz => kszLegal ksz
  | .enc ksz => kszLegal ksz
  | .dec ksz => kszLegal ksz
  | .sealC ksz _ => kszLegal ksz
  | .openC ksz => kszLegal ksz
  | .zeroize => true

end Sys2Proof
end

