-- ==== Sys2Proof/Machine/Operands.lean ====
section
/-! DEFINITION. The operands of a command: key length, the byte-string views of the registers, regions and the checks
made on them before any memory access. -/

namespace Sys2Proof.Machine

/-- The key length in bytes, `16 * (KSZ[1] + 1)` (30_encoding.md R122). -/
def klen (ksz : BitVec 2) : Nat := if ksz.getLsbD 1 then 32 else 16

/-- The four bytes of a register, least significant first (20_memory.md R82). -/
def wordBytes (w : Word) : List Byte :=
  [w.extractLsb' 0 8, w.extractLsb' 8 8, w.extractLsb' 16 8, w.extractLsb' 24 8]

/-- The word whose bytes, least significant first, are `b[4j]` to `b[4j+3]` (41_kdf.md R210); a byte past the end is 0. -/
def wordAt (b : List Byte) (j : Nat) : Word :=
  (b.getD (4 * j + 3) 0 ++ b.getD (4 * j + 2) 0 ++ b.getD (4 * j + 1) 0 ++ b.getD (4 * j) 0 : BitVec 32)

/-- The bytes of a row of registers (10_state.md R39-R41). -/
def regBytes {n : Nat} (v : Vector Word n) : List Byte := v.toList.flatMap wordBytes

/-- KeyBytes(n) (10_state.md R42). -/
def OperandRegs.keyBytes (o : OperandRegs) (n : Nat) : List Byte := (regBytes o.key).take n

/-- IvBytes (10_state.md R42). -/
def OperandRegs.ivBytes (o : OperandRegs) : List Byte := regBytes o.iv

/-- SaltBytes (10_state.md R42). -/
def OperandRegs.saltBytes (o : OperandRegs) : List Byte := regBytes o.salt

/-- The KEY registers that hold a derived key: a 16-byte key leaves KEY4-7 zero (41_kdf.md R210). -/
def keyRegs (dk : List Byte) : Vector Word 8 :=
  #v[wordAt dk 0, wordAt dk 1, wordAt dk 2, wordAt dk 3, wordAt dk 4, wordAt dk 5, wordAt dk 6, wordAt dk 7]

/-- The number of DMA addresses (10_state.md R47). -/
def dmaSize : Nat := 2 ^ 32

/-- The region is not empty and passes 2^32 (20_memory.md R90). -/
def wraps (r : Region) : Bool := decide (0 < r.size) && decide (dmaSize < r.base + r.size)

/-- The two regions share no address (20_memory.md R90). -/
def disjoint (r q : Region) : Bool :=
  r.size == 0 || q.size == 0 || decide (r.base + r.size ≤ q.base) || decide (q.base + q.size ≤ r.base)

/-- The address is one of the region's (20_memory.md R90). -/
def regionHas (r : Region) (a : Nat) : Bool := decide (r.base ≤ a) && decide (a < r.base + r.size)

/-- The region with no address. -/
def emptyRegion : Region := ⟨0, 0⟩

/-- The three regions of a command and whether they stand in its legal in-place form (20_memory.md R91, R92). -/
structure Regions where
  pw : Region
  inp : Region
  out : Region
  inPlace : Bool
  deriving DecidableEq, Repr

/-- The length of the ciphertext of `len` bytes of plaintext (42_cipher.md R252). -/
def paddedLength (len : Nat) : Nat := 16 * (len / 16 + 1)

/-- Each command's regions (20_memory.md R91). For OPEN the difference L - 32 stops at 0 (log entry 10). -/
def regionsOf (i : Instr) (o : OperandRegs) : Regions :=
  let pw : Region := ⟨o.pwAddr.toNat, o.pwLen.toNat⟩
  let inp : Region := ⟨o.srcAddr.toNat, o.srcLen.toNat⟩
  let dst := o.dstAddr.toNat
  let src := o.srcAddr.toNat
  let len := o.srcLen.toNat
  match i with
  | .nop => ⟨emptyRegion, emptyRegion, emptyRegion, true⟩
  | .kdf _ => ⟨pw, emptyRegion, emptyRegion, true⟩
  | .enc _ => ⟨emptyRegion, inp, ⟨dst, paddedLength len⟩, decide (dst = src)⟩
  | .dec _ => ⟨emptyRegion, inp, ⟨dst, len⟩, decide (dst = src)⟩
  | .sealC _ _ => ⟨pw, inp, ⟨dst, 32 + paddedLength len⟩, decide (dst + 32 = src)⟩
  | .openC _ => ⟨pw, inp, ⟨dst, len - 32⟩, decide (dst = src + 32)⟩
  | .zeroize => ⟨emptyRegion, emptyRegion, emptyRegion, true⟩

/-- The region check of 20_memory.md R93 fails. -/
def regionBad (r : Regions) : Bool :=
  wraps r.pw || wraps r.inp || wraps r.out || !(disjoint r.inp r.out || r.inPlace)

/-- The ciphertext length DEC refuses (42_cipher.md R271). -/
def cipherLengthBad (len : Nat) : Bool := len == 0 || len % 16 != 0

/-- The container length OPEN refuses (43_container.md R301). -/
def containerLengthBad (len : Nat) : Bool := decide (len < 32) || len - 32 == 0 || (len - 32) % 16 != 0

/-- The first check that fails, in the order they are listed (60_exceptions.md R345). -/
def firstError : List (Bool × ErrorCode) → Option ErrorCode
  | [] => none
  | (bad, e) :: rest => if bad then some e else firstError rest

/-- The checks of KDF, in order (41_kdf.md R200). -/
def kdfCheck (ksz : BitVec 2) (o : OperandRegs) : Option ErrorCode :=
  firstError [
    (!kszLegal ksz, .preconditionViolation),
    (o.iter == 0, .preconditionViolation),
    (regionBad (regionsOf (.kdf ksz) o), .regionError)]

/-- The checks of ENC, in order (42_cipher.md R260). -/
def encCheck (ksz : BitVec 2) (o : OperandRegs) : Option ErrorCode :=
  firstError [
    (!kszLegal ksz, .preconditionViolation),
    (regionBad (regionsOf (.enc ksz) o), .regionError)]

/-- The checks of DEC, in order (42_cipher.md R270). -/
def decCheck (ksz : BitVec 2) (o : OperandRegs) : Option ErrorCode :=
  firstError [
    (!kszLegal ksz, .preconditionViolation),
    (cipherLengthBad o.srcLen.toNat, .malformedContainer),
    (regionBad (regionsOf (.dec ksz) o), .regionError)]

/-- The checks of SEAL, in order (43_container.md R290). -/
def sealCheck (ksz : BitVec 2) (gen : Bool) (o : OperandRegs) : Option ErrorCode :=
  firstError [
    (!kszLegal ksz, .preconditionViolation),
    (o.iter == 0, .preconditionViolation),
    (o.pwLen == 0, .emptyPassword),
    (regionBad (regionsOf (.sealC ksz gen) o), .regionError)]

/-- The checks of OPEN, in order (43_container.md R300). -/
def openCheck (ksz : BitVec 2) (o : OperandRegs) : Option ErrorCode :=
  firstError [
    (!kszLegal ksz, .preconditionViolation),
    (o.iter == 0, .preconditionViolation),
    (o.pwLen == 0, .emptyPassword),
    (containerLengthBad o.srcLen.toNat, .malformedContainer),
    (regionBad (regionsOf (.openC ksz) o), .regionError)]

end Sys2Proof.Machine
end

