-- ==== Sys2Proof/Machine/Aes.lean ====
section
/-! DEFINITION. AES-128 and AES-256 (42_cipher.md section 1). -/

namespace Sys2Proof.Machine

/-- `xtime`, multiplication by 0x02 (42_cipher.md R230). -/
def xtime (b : Byte) : Byte := (b <<< 1) ^^^ (if b.getLsbD 7 then 0x1B else 0)

/-- The sum of the products of `b` by the powers x^0 to x^(n-1) that the low n bits of `a` name. -/
def gfMulBits : Nat → Byte → Byte → Byte
  | 0, _, _ => 0
  | n + 1, a, b => (if a.getLsbD 0 then b else 0) ^^^ gfMulBits n (a >>> 1) (xtime b)

/-- `•`, the product modulo x^8 + x^4 + x^3 + x + 1 (42_cipher.md R230). -/
def gfMul (a b : Byte) : Byte := gfMulBits 8 a b

/-- The S-box by rows (42_cipher.md R232). -/
def sboxRows : List (List Byte) :=
  [[0x63, 0x7c, 0x77, 0x7b, 0xf2, 0x6b, 0x6f, 0xc5, 0x30, 0x01, 0x67, 0x2b, 0xfe, 0xd7, 0xab, 0x76],
    [0xca, 0x82, 0xc9, 0x7d, 0xfa, 0x59, 0x47, 0xf0, 0xad, 0xd4, 0xa2, 0xaf, 0x9c, 0xa4, 0x72, 0xc0],
    [0xb7, 0xfd, 0x93, 0x26, 0x36, 0x3f, 0xf7, 0xcc, 0x34, 0xa5, 0xe5, 0xf1, 0x71, 0xd8, 0x31, 0x15],
    [0x04, 0xc7, 0x23, 0xc3, 0x18, 0x96, 0x05, 0x9a, 0x07, 0x12, 0x80, 0xe2, 0xeb, 0x27, 0xb2, 0x75]] ++
  [[0x09, 0x83, 0x2c, 0x1a, 0x1b, 0x6e, 0x5a, 0xa0, 0x52, 0x3b, 0xd6, 0xb3, 0x29, 0xe3, 0x2f, 0x84],
    [0x53, 0xd1, 0x00, 0xed, 0x20, 0xfc, 0xb1, 0x5b, 0x6a, 0xcb, 0xbe, 0x39, 0x4a, 0x4c, 0x58, 0xcf],
    [0xd0, 0xef, 0xaa, 0xfb, 0x43, 0x4d, 0x33, 0x85, 0x45, 0xf9, 0x02, 0x7f, 0x50, 0x3c, 0x9f, 0xa8],
    [0x51, 0xa3, 0x40, 0x8f, 0x92, 0x9d, 0x38, 0xf5, 0xbc, 0xb6, 0xda, 0x21, 0x10, 0xff, 0xf3, 0xd2]] ++
  [[0xcd, 0x0c, 0x13, 0xec, 0x5f, 0x97, 0x44, 0x17, 0xc4, 0xa7, 0x7e, 0x3d, 0x64, 0x5d, 0x19, 0x73],
    [0x60, 0x81, 0x4f, 0xdc, 0x22, 0x2a, 0x90, 0x88, 0x46, 0xee, 0xb8, 0x14, 0xde, 0x5e, 0x0b, 0xdb],
    [0xe0, 0x32, 0x3a, 0x0a, 0x49, 0x06, 0x24, 0x5c, 0xc2, 0xd3, 0xac, 0x62, 0x91, 0x95, 0xe4, 0x79],
    [0xe7, 0xc8, 0x37, 0x6d, 0x8d, 0xd5, 0x4e, 0xa9, 0x6c, 0x56, 0xf4, 0xea, 0x65, 0x7a, 0xae, 0x08]] ++
  [[0xba, 0x78, 0x25, 0x2e, 0x1c, 0xa6, 0xb4, 0xc6, 0xe8, 0xdd, 0x74, 0x1f, 0x4b, 0xbd, 0x8b, 0x8a],
    [0x70, 0x3e, 0xb5, 0x66, 0x48, 0x03, 0xf6, 0x0e, 0x61, 0x35, 0x57, 0xb9, 0x86, 0xc1, 0x1d, 0x9e],
    [0xe1, 0xf8, 0x98, 0x11, 0x69, 0xd9, 0x8e, 0x94, 0x9b, 0x1e, 0x87, 0xe9, 0xce, 0x55, 0x28, 0xdf],
    [0x8c, 0xa1, 0x89, 0x0d, 0xbf, 0xe6, 0x42, 0x68, 0x41, 0x99, 0x2d, 0x0f, 0xb0, 0x54, 0xbb, 0x16]]

/-- The inverse S-box by rows (42_cipher.md R234). -/
def invSboxRows : List (List Byte) :=
  [[0x52, 0x09, 0x6a, 0xd5, 0x30, 0x36, 0xa5, 0x38, 0xbf, 0x40, 0xa3, 0x9e, 0x81, 0xf3, 0xd7, 0xfb],
    [0x7c, 0xe3, 0x39, 0x82, 0x9b, 0x2f, 0xff, 0x87, 0x34, 0x8e, 0x43, 0x44, 0xc4, 0xde, 0xe9, 0xcb],
    [0x54, 0x7b, 0x94, 0x32, 0xa6, 0xc2, 0x23, 0x3d, 0xee, 0x4c, 0x95, 0x0b, 0x42, 0xfa, 0xc3, 0x4e],
    [0x08, 0x2e, 0xa1, 0x66, 0x28, 0xd9, 0x24, 0xb2, 0x76, 0x5b, 0xa2, 0x49, 0x6d, 0x8b, 0xd1, 0x25]] ++
  [[0x72, 0xf8, 0xf6, 0x64, 0x86, 0x68, 0x98, 0x16, 0xd4, 0xa4, 0x5c, 0xcc, 0x5d, 0x65, 0xb6, 0x92],
    [0x6c, 0x70, 0x48, 0x50, 0xfd, 0xed, 0xb9, 0xda, 0x5e, 0x15, 0x46, 0x57, 0xa7, 0x8d, 0x9d, 0x84],
    [0x90, 0xd8, 0xab, 0x00, 0x8c, 0xbc, 0xd3, 0x0a, 0xf7, 0xe4, 0x58, 0x05, 0xb8, 0xb3, 0x45, 0x06],
    [0xd0, 0x2c, 0x1e, 0x8f, 0xca, 0x3f, 0x0f, 0x02, 0xc1, 0xaf, 0xbd, 0x03, 0x01, 0x13, 0x8a, 0x6b]] ++
  [[0x3a, 0x91, 0x11, 0x41, 0x4f, 0x67, 0xdc, 0xea, 0x97, 0xf2, 0xcf, 0xce, 0xf0, 0xb4, 0xe6, 0x73],
    [0x96, 0xac, 0x74, 0x22, 0xe7, 0xad, 0x35, 0x85, 0xe2, 0xf9, 0x37, 0xe8, 0x1c, 0x75, 0xdf, 0x6e],
    [0x47, 0xf1, 0x1a, 0x71, 0x1d, 0x29, 0xc5, 0x89, 0x6f, 0xb7, 0x62, 0x0e, 0xaa, 0x18, 0xbe, 0x1b],
    [0xfc, 0x56, 0x3e, 0x4b, 0xc6, 0xd2, 0x79, 0x20, 0x9a, 0xdb, 0xc0, 0xfe, 0x78, 0xcd, 0x5a, 0xf4]] ++
  [[0x1f, 0xdd, 0xa8, 0x33, 0x88, 0x07, 0xc7, 0x31, 0xb1, 0x12, 0x10, 0x59, 0x27, 0x80, 0xec, 0x5f],
    [0x60, 0x51, 0x7f, 0xa9, 0x19, 0xb5, 0x4a, 0x0d, 0x2d, 0xe5, 0x7a, 0x9f, 0x93, 0xc9, 0x9c, 0xef],
    [0xa0, 0xe0, 0x3b, 0x4d, 0xae, 0x2a, 0xf5, 0xb0, 0xc8, 0xeb, 0xbb, 0x3c, 0x83, 0x53, 0x99, 0x61],
    [0x17, 0x2b, 0x04, 0x7e, 0xba, 0x77, 0xd6, 0x26, 0xe1, 0x69, 0x14, 0x63, 0x55, 0x21, 0x0c, 0x7d]]

/-- The entry of a table in the row of the high hex digit and the column of the low one (42_cipher.md R232). -/
def tableAt (rows : List (List Byte)) (b : Byte) : Byte :=
  (rows.getD (b.extractLsb' 4 4).toNat []).getD (b.extractLsb' 0 4).toNat 0

/-- S (42_cipher.md R232). -/
def sbox (b : Byte) : Byte := tableAt sboxRows b

/-- S^-1 (42_cipher.md R234). -/
def invSbox (b : Byte) : Byte := tableAt invSboxRows b

/-- Four bytes: a column of the state (42_cipher.md R231), or a word of the key schedule (R238), first byte first. -/
structure Column where
  r0 : Byte
  r1 : Byte
  r2 : Byte
  r3 : Byte
  deriving DecidableEq, Repr

/-- The state, four columns (42_cipher.md R231): s[r][c] is field r of column c. -/
structure Block where
  c0 : Column
  c1 : Column
  c2 : Column
  c3 : Column
  deriving DecidableEq, Repr

/-- The column of bytes `4c` to `4c+3` of a byte string. -/
def columnAt (b : List Byte) (c : Nat) : Column :=
  ⟨b.getD (4 * c) 0, b.getD (4 * c + 1) 0, b.getD (4 * c + 2) 0, b.getD (4 * c + 3) 0⟩

/-- Loading: s[r][c] = in[r + 4c] (42_cipher.md R231). -/
def Block.ofBytes (b : List Byte) : Block := ⟨columnAt b 0, columnAt b 1, columnAt b 2, columnAt b 3⟩

/-- The bytes of a column, in order. -/
def Column.bytes (c : Column) : List Byte := [c.r0, c.r1, c.r2, c.r3]

/-- Unloading: out[r + 4c] = s[r][c] (42_cipher.md R231). -/
def Block.bytes (s : Block) : List Byte := s.c0.bytes ++ s.c1.bytes ++ s.c2.bytes ++ s.c3.bytes

/-- A function applied to every byte of a column. -/
def Column.map (f : Byte → Byte) (c : Column) : Column := ⟨f c.r0, f c.r1, f c.r2, f c.r3⟩

/-- A function applied to every column. -/
def Block.mapColumns (f : Column → Column) (s : Block) : Block := ⟨f s.c0, f s.c1, f s.c2, f s.c3⟩

/-- Bytewise exclusive-or. -/
def Column.xor (x y : Column) : Column := ⟨x.r0 ^^^ y.r0, x.r1 ^^^ y.r1, x.r2 ^^^ y.r2, x.r3 ^^^ y.r3⟩

/-- Bytewise exclusive-or of two blocks; AddRoundKey with the round's four words (42_cipher.md R237). -/
def Block.xor (x y : Block) : Block := ⟨x.c0.xor y.c0, x.c1.xor y.c1, x.c2.xor y.c2, x.c3.xor y.c3⟩

/-- SubBytes (42_cipher.md R232). -/
def subBytes (s : Block) : Block := s.mapColumns (Column.map sbox)

/-- InvSubBytes (42_cipher.md R234). -/
def invSubBytes (s : Block) : Block := s.mapColumns (Column.map invSbox)

/-- ShiftRows: s'[r][c] = s[r][(c + r) mod 4] (42_cipher.md R235). -/
def shiftRows (s : Block) : Block where
  c0 := ⟨s.c0.r0, s.c1.r1, s.c2.r2, s.c3.r3⟩
  c1 := ⟨s.c1.r0, s.c2.r1, s.c3.r2, s.c0.r3⟩
  c2 := ⟨s.c2.r0, s.c3.r1, s.c0.r2, s.c1.r3⟩
  c3 := ⟨s.c3.r0, s.c0.r1, s.c1.r2, s.c2.r3⟩

/-- InvShiftRows: s'[r][c] = s[r][(c - r) mod 4] (42_cipher.md R235). -/
def invShiftRows (s : Block) : Block where
  c0 := ⟨s.c0.r0, s.c3.r1, s.c2.r2, s.c1.r3⟩
  c1 := ⟨s.c1.r0, s.c0.r1, s.c3.r2, s.c2.r3⟩
  c2 := ⟨s.c2.r0, s.c1.r1, s.c0.r2, s.c3.r3⟩
  c3 := ⟨s.c3.r0, s.c2.r1, s.c1.r2, s.c0.r3⟩

/-- One column of MixColumns (42_cipher.md R236). -/
def mixColumn (s : Column) : Column where
  r0 := gfMul 0x02 s.r0 ^^^ gfMul 0x03 s.r1 ^^^ s.r2 ^^^ s.r3
  r1 := s.r0 ^^^ gfMul 0x02 s.r1 ^^^ gfMul 0x03 s.r2 ^^^ s.r3
  r2 := s.r0 ^^^ s.r1 ^^^ gfMul 0x02 s.r2 ^^^ gfMul 0x03 s.r3
  r3 := gfMul 0x03 s.r0 ^^^ s.r1 ^^^ s.r2 ^^^ gfMul 0x02 s.r3

/-- One column of InvMixColumns (42_cipher.md R236). -/
def invMixColumn (s : Column) : Column where
  r0 := gfMul 0x0e s.r0 ^^^ gfMul 0x0b s.r1 ^^^ gfMul 0x0d s.r2 ^^^ gfMul 0x09 s.r3
  r1 := gfMul 0x09 s.r0 ^^^ gfMul 0x0e s.r1 ^^^ gfMul 0x0b s.r2 ^^^ gfMul 0x0d s.r3
  r2 := gfMul 0x0d s.r0 ^^^ gfMul 0x09 s.r1 ^^^ gfMul 0x0e s.r2 ^^^ gfMul 0x0b s.r3
  r3 := gfMul 0x0b s.r0 ^^^ gfMul 0x0d s.r1 ^^^ gfMul 0x09 s.r2 ^^^ gfMul 0x0e s.r3

/-- MixColumns (42_cipher.md R236). -/
def mixColumns (s : Block) : Block := s.mapColumns mixColumn

/-- InvMixColumns (42_cipher.md R236). -/
def invMixColumns (s : Block) : Block := s.mapColumns invMixColumn

/-- RotWord (42_cipher.md R238). -/
def rotWord (w : Column) : Column := ⟨w.r1, w.r2, w.r3, w.r0⟩

/-- SubWord (42_cipher.md R238). -/
def subWord (w : Column) : Column := w.map sbox

/-- Rcon[1..10] (42_cipher.md R238). -/
def rconTable : List Byte := [0x01, 0x02, 0x04, 0x08, 0x10, 0x20, 0x40, 0x80, 0x1b, 0x36]

/-- Rcon[j], for 1 ≤ j ≤ 10 (42_cipher.md R238). -/
def rcon (j : Nat) : Byte := rconTable.getD (j - 1) 0

/-- The zero word. -/
def zeroColumn : Column := ⟨0, 0, 0, 0⟩

/-- Word i of the schedule, from the words before it, the last first (42_cipher.md R238). -/
def scheduleWord (nk i : Nat) (before : List Column) : Column :=
  let t := before.getD 0 zeroColumn
  let t' :=
    if i % nk = 0 then (subWord (rotWord t)).xor ⟨rcon (i / nk), 0, 0, 0⟩
    else if nk = 8 ∧ i % 8 = 4 then subWord t
    else t
  (before.getD (nk - 1) zeroColumn).xor t'

/-- `n` more words of the schedule from word i on; the list holds the words so far, the last first. -/
def extendSchedule (nk : Nat) : Nat → Nat → List Column → List Column
  | 0, _, w => w
  | n + 1, i, w => extendSchedule nk n (i + 1) (scheduleWord nk i w :: w)

/-- The first `n` words of a byte string. -/
def columnsOf (b : List Byte) : Nat → List Column
  | 0 => []
  | n + 1 => columnAt b 0 :: columnsOf (b.drop 4) n

/-- Nr: 10 for a 16-byte key, 14 for a 32-byte key (42_cipher.md R238). -/
def roundCount (key : List Byte) : Nat := key.length / 4 + 6

/-- The key schedule of a 16- or 32-byte key: 4(Nr+1) words (42_cipher.md R238). -/
def keySchedule (key : List Byte) : List Column :=
  let nk := key.length / 4
  (extendSchedule nk (4 * (roundCount key + 1) - nk) nk (columnsOf key nk).reverse).reverse

/-- The round keys of a key: the schedule's words by fours, one block for each of the rounds 0 to Nr (42_cipher.md R237). -/
structure RoundKeys where
  first : Block
  middle : List Block
  last : Block
  deriving DecidableEq, Repr

/-- The four words of round r of a schedule (42_cipher.md R237). -/
def roundKeyOf (w : List Column) (r : Nat) : Block :=
  ⟨w.getD (4 * r) zeroColumn, w.getD (4 * r + 1) zeroColumn, w.getD (4 * r + 2) zeroColumn, w.getD (4 * r + 3) zeroColumn⟩

/-- Key expansion (42_cipher.md R238), as round keys 0, 1 to Nr - 1, and Nr. -/
def expandKey (key : List Byte) : RoundKeys :=
  let w := keySchedule key
  let nr := roundCount key
  { first := roundKeyOf w 0
    middle := (List.range' 1 (nr - 1)).map (roundKeyOf w)
    last := roundKeyOf w nr }

/-- A middle round of the forward cipher (42_cipher.md R239). -/
def encRound (s k : Block) : Block := (mixColumns (shiftRows (subBytes s))).xor k

/-- A middle round of the inverse cipher (42_cipher.md R240). -/
def decRound (k s : Block) : Block := invMixColumns ((invSubBytes (invShiftRows s)).xor k)

/-- The forward cipher with the round keys given (42_cipher.md R239). -/
def aesEncBlock (k : RoundKeys) (x : Block) : Block :=
  (shiftRows (subBytes (k.middle.foldl encRound (x.xor k.first)))).xor k.last

/-- The inverse cipher with the round keys given: the middle rounds run from Nr - 1 down to 1 (42_cipher.md R240). -/
def aesDecBlock (k : RoundKeys) (x : Block) : Block :=
  (invSubBytes (invShiftRows (k.middle.foldr decRound (x.xor k.last)))).xor k.first

/-- AES_Enc(key, in) (42_cipher.md R239). -/
def aesEnc (key inp : List Byte) : List Byte := (aesEncBlock (expandKey key) (Block.ofBytes inp)).bytes

/-- AES_Dec(key, in) (42_cipher.md R240). -/
def aesDec (key inp : List Byte) : List Byte := (aesDecBlock (expandKey key) (Block.ofBytes inp)).bytes

end Sys2Proof.Machine
end

