-- ==== Sys2Proof/Decode.lean ====
section
/-! DEFINITION. Decoding a command word, total on all 2^32 words, the encoder, and the assembler's mnemonics. -/

namespace Sys2Proof

/-- Why a word is no command: 30_encoding.md R126 refuses every such word by this one name. -/
inductive DecodeError where
  | illegalCommand
  deriving DecidableEq, Repr

/-- Field OP, bits 7:0 (30_encoding.md R120). -/
def opField (w : Word) : BitVec 8 := w.extractLsb' 0 8

/-- Field KSZ, bits 9:8 (30_encoding.md R120). -/
def kszField (w : Word) : BitVec 2 := w.extractLsb' 8 2

/-- Field GEN, bit 10 (30_encoding.md R120). -/
def genField (w : Word) : Bool := w.getLsbD 10

/-- Field RSV, bits 31:11 (30_encoding.md R120). -/
def rsvField (w : Word) : BitVec 21 := w.extractLsb' 11 21

/-- The operation codes of 30_encoding.md R121. -/
def opNop : BitVec 8 := 0x00
def opKdf : BitVec 8 := 0x01
def opEnc : BitVec 8 := 0x02
def opDec : BitVec 8 := 0x03
def opSeal : BitVec 8 := 0x04
def opOpen : BitVec 8 := 0x05
def opZeroize : BitVec 8 := 0x06

/-- `Decode` of 30_encoding.md R125. -/
def decode (w : Word) : Except DecodeError Instr :=
  if rsvField w ≠ 0 then .error .illegalCommand
  else if opField w = opNop then
    if kszField w ≠ 0 ∨ genField w then .error .illegalCommand else .ok .nop
  else if opField w = opZeroize then
    if kszField w ≠ 0 ∨ genField w then .error .illegalCommand else .ok .zeroize
  else if opField w = opKdf then
    if genField w then .error .illegalCommand else .ok (.kdf (kszField w))
  else if opField w = opEnc then
    if genField w then .error .illegalCommand else .ok (.enc (kszField w))
  else if opField w = opDec then
    if genField w then .error .illegalCommand else .ok (.dec (kszField w))
  else if opField w = opOpen then
    if genField w then .error .illegalCommand else .ok (.openC (kszField w))
  else if opField w = opSeal then .ok (.sealC (kszField w) (genField w))
  else .error .illegalCommand

/-- A command word put together from its four fields (30_encoding.md R120); RSV is zero. -/
def packFields (op : BitVec 8) (ksz : BitVec 2) (gen : Bool) : Word :=
  (0#21 ++ BitVec.ofBool gen ++ ksz ++ op : BitVec 32)

/-- The word of a command (30_encoding.md R120, R121). A field the command does not use is zero. -/
def encode : Instr → Word
  | .nop => packFields opNop 0 false
  | .kdf ksz => packFields opKdf ksz false
  | .enc ksz => packFields opEnc ksz false
  | .dec ksz => packFields opDec ksz false
  | .sealC ksz gen => packFields opSeal ksz gen
  | .openC ksz => packFields opOpen ksz false
  | .zeroize => packFields opZeroize 0 false

/-- `.k16` sets KSZ = 0, `.k32` sets KSZ = 2 (30_encoding.md R130). -/
def KeySuffix.ksz : KeySuffix → BitVec 2
  | .k16 => 0b00
  | .k32 => 0b10

/-- The command of a mnemonic (30_encoding.md R130), with the expansions of R131. -/
def Mnemonic.instr : Mnemonic → Instr
  | .nop => .nop
  | .kdf k => .kdf k.ksz
  | .enc k => .enc k.ksz
  | .dec k => .dec k.ksz
  | .sealC k gen => .sealC k.ksz gen
  | .openC k => .openC k.ksz
  | .zeroize => .zeroize
  | .kdfDefault => .kdf KeySuffix.k32.ksz
  | .encDefault => .enc KeySuffix.k32.ksz
  | .decDefault => .dec KeySuffix.k32.ksz
  | .sealDefault => .sealC KeySuffix.k32.ksz true
  | .openDefault => .openC KeySuffix.k32.ksz

/-- The word a mnemonic assembles to. -/
def Mnemonic.word (m : Mnemonic) : Word := encode m.instr

/-- What the decoder reads from a row's bits, numbered as spec/opcode_table.json numbers them: the command word is one
32-bit value, not bytes in memory (20_memory.md R104), so bit i of `w` is bit i of the word. -/
def decodeTableWord (nbits w : Nat) : Option Instr :=
  match decode (BitVec.ofNat 32 (w % 2 ^ nbits)) with
  | .ok i => some i
  | .error _ => none

end Sys2Proof
end

