-- ==== Sys2Proof/Machine/Flags.lean ====
section
/-! DEFINITION. The flags: STATUS and CTRL as the host reads and writes them, what an accept, a completion and a
dropped write do to STATUS, and the interrupt output. -/

namespace Sys2Proof.Machine

/-- The 4-bit code of an error (60_exceptions.md R340). -/
def ErrorCode.code : ErrorCode → BitVec 4
  | .ok => 0
  | .emptyPassword => 1
  | .malformedContainer => 2
  | .integrityOrPassword => 3
  | .preconditionViolation => 4
  | .illegalCommand => 5
  | .regionError => 6
  | .busError => 7

/-- STATUS as a word: BUSY bit 0, DONE bit 1, OVR bit 2, ERR bits 11:8, all others 0 (10_state.md R33). -/
def Status.word (st : Status) : Word :=
  (0#20 ++ st.err.code ++ 0#5 ++ BitVec.ofBool st.ovr ++ BitVec.ofBool st.done ++ BitVec.ofBool st.busy : BitVec 32)

/-- CTRL as a word: IE in bit 0, SRST reads 0, all others 0 (10_state.md R32). -/
def ctrlWord (ie : Bool) : Word := (0#31 ++ BitVec.ofBool ie : BitVec 32)

/-- The accept: BUSY 1, DONE 0, ERR 0, OVR kept (40_command_model.md R141). -/
def Status.accept (st : Status) : Status := { st with busy := true, done := false, err := .ok }

/-- The completion: BUSY 0, DONE 1, ERR written, OVR kept (40_command_model.md R142). -/
def Status.complete (st : Status) (e : ErrorCode) : Status := { st with busy := false, done := true, err := e }

/-- A dropped write sets OVR (40_command_model.md R154). -/
def Status.overrun (st : Status) : Status := { st with ovr := true }

/-- A host write of `d` to STATUS: bit 1 clears DONE, bit 2 clears OVR (40_command_model.md R152). -/
def Status.writeOneToClear (st : Status) (d : Word) : Status :=
  { st with done := st.done && !d.getLsbD 1, ovr := st.ovr && !d.getLsbD 2 }

/-- The interrupt output: CTRL.IE AND STATUS.DONE (60_exceptions.md R350). -/
def State.irq (s : State) : Bool := s.ie && s.status.done

end Sys2Proof.Machine
end

