-- ==== Sys2Proof/Machine/Ops.lean ====
section
/-! DEFINITION. The shared operations: DMA memory and its admission, free values, the result of a command and its
commit, raising an error, accept, reset, and the register window. -/

namespace Sys2Proof.Machine

/-! ### DMA memory -/

/-- The byte at an address. -/
def Memory.read : Memory → Nat → Byte
  | [], _ => Config.unlistedByte
  | (k, v) :: rest, a => if k = a then v else Memory.read rest a

/-- Memory with an address unlisted. -/
def Memory.erase (m : Memory) (a : Nat) : Memory := m.filter (fun c => c.1 != a)

/-- Memory with a listed byte put in its place, before the first higher address. -/
def Memory.insert : Memory → Nat → Byte → Memory
  | [], a, b => [(a, b)]
  | (k, v) :: rest, a, b => if a < k then (a, b) :: (k, v) :: rest else (k, v) :: Memory.insert rest a b

/-- Memory with a byte written. A byte equal to what an unlisted address reads as is not listed. -/
def Memory.write (m : Memory) (a : Nat) (b : Byte) : Memory :=
  if b = Config.unlistedByte then Memory.erase m a else Memory.insert (Memory.erase m a) a b

/-- The canonical form: addresses strictly rising and below 2^32, no byte equal to what an unlisted address reads as. -/
abbrev Memory.wf (m : Memory) : Prop :=
  m.Pairwise (fun c d => c.1 < d.1) ∧ ∀ c ∈ m, c.1 < dmaSize ∧ c.2 ≠ Config.unlistedByte

/-- `MemRead(a, n)` without admission (00_scope.md R7): byte i comes from address a + i. -/
def Memory.readBytes (m : Memory) (a : Nat) : Nat → List Byte
  | 0 => []
  | n + 1 => Memory.read m a :: Memory.readBytes m (a + 1) n

/-- `MemWrite(a, n, b)` without admission (00_scope.md R7): b[i] goes to address a + i. -/
def Memory.writeBytes (m : Memory) (a : Nat) : List Byte → Memory
  | [] => m
  | b :: bs => Memory.writeBytes (Memory.write m a b) (a + 1) bs

/-! ### Admission -/

/-- BASE (20_memory.md R88). -/
def windowBase (p : Platform) : Nat := 256 * p.basePage

/-- The address is in one of the ranges. -/
def anyHas (rs : List Region) (a : Nat) : Bool := rs.any (fun r => regionHas r a)

/-- The address is a device register's (20_memory.md R87). -/
def isDevice (p : Platform) (a : Nat) : Bool := anyHas p.devices a

/-- dmaReadOK (00_scope.md R5, 20_memory.md R96). It refuses every device register (R87). -/
def dmaReadOK (p : Platform) (a : Nat) : Bool := anyHas p.readable a && !isDevice p a

/-- dmaWriteOK (00_scope.md R5, 20_memory.md R96). It refuses every device register (R87). -/
def dmaWriteOK (p : Platform) (a : Nat) : Bool := anyHas p.writable a && !isDevice p a

/-- The first of the addresses a to a + n - 1, in increasing order, that is not admitted (20_memory.md R96). -/
def firstRefused (admitted : Nat → Bool) (a : Nat) : Nat → Option Nat
  | 0 => none
  | n + 1 => if admitted a then firstRefused admitted (a + 1) n else some a

/-- How the accesses of a command end it early: a refused byte (20_memory.md R96), or bad padding with the memory
written so far (42_cipher.md R243). -/
inductive Abort where
  | bus (addr : Nat)
  | padding (mem : Memory)
  deriving DecidableEq, Repr

/-- `MemRead(a, n)` with the admission of 20_memory.md R96. -/
def dmaRead (p : Platform) (m : Memory) (a n : Nat) : Except Abort (List Byte) :=
  match firstRefused (dmaReadOK p) a n with
  | some x => .error (.bus x)
  | none => .ok (Memory.readBytes m a n)

/-- `MemWrite(a, len b, b)` with the admission of 20_memory.md R96. -/
def dmaWrite (p : Platform) (m : Memory) (a : Nat) (b : List Byte) : Except Abort Memory :=
  match firstRefused (dmaWriteOK p) a b.length with
  | some x => .error (.bus x)
  | none => .ok (Memory.writeBytes m a b)

/-! ### Free values -/

/-- `draw(n)`: the next n free bytes after `count` of them have been taken (00_scope.md R7, log entry 3). -/
def drawBytes (count : Nat) : Nat → List Byte
  | 0 => []
  | n + 1 => Config.drawByte count :: drawBytes (count + 1) n

/-- How many bytes of a region exist in the DMA space (10_state.md R47). -/
def bytesInSpace (r : Region) : Nat := min r.size (dmaSize - r.base)

/-- Memory with every byte of a region replaced by a draw (20_memory.md R97, 70_reset_and_hazards.md R382). -/
def unspecify (m : Memory) (r : Region) (count : Nat) : Memory :=
  Memory.writeBytes m r.base (drawBytes count (bytesInSpace r))

/-! ### The result of a command, and its commit -/

/-- What `Exec` computes (40_command_model.md R142): the error code, the registers after the command's register
writes, memory, the number of output bytes, the faulting address, and the free values taken so far. -/
structure Result where
  err : ErrorCode
  regs : OperandRegs
  mem : Memory
  outLen : Nat
  errAddr : Nat
  drawCount : Nat
  deriving DecidableEq, Repr

/-- The operands a command computes from: the snapshot (40_command_model.md R140). An engine with no pending command
reads the live registers, which the snapshot always equals (R140, log entry 8). -/
def State.operands (s : State) : OperandRegs :=
  match s.pending with
  | some p => p.operands
  | none => s.regs

/-- The result of a command that ends without a raise and writes no register (40_command_model.md R143). -/
def State.success (s : State) (mem : Memory) (outLen drawCount : Nat) : Result where
  err := .ok
  regs := s.regs
  mem := mem
  outLen := outLen
  errAddr := 0
  drawCount := drawCount

/-- `raise E(info)` (40_command_model.md R144), the one way a command fails: no register written, OUT_LEN 0, ERR_ADDR
the faulting address for BUS_ERROR alone, and the memory of 20_memory.md R97: every byte of Out a draw after
BUS_ERROR, the writes made so far (`written`) after INTEGRITY_OR_PASSWORD, unchanged after any other error. -/
def State.raise (s : State) (e : ErrorCode) (info : Nat) (written : Memory) (out : Region) (drawCount : Nat) : Result where
  err := e
  regs := s.regs
  mem :=
    if e = .busError then unspecify s.mem out drawCount
    else if e = .integrityOrPassword then written
    else s.mem
  outLen := 0
  errAddr := if e = .busError then info else 0
  drawCount := if e = .busError then drawCount + bytesInSpace out else drawCount

/-- The raise of a check made before any memory access (60_exceptions.md R345 items 1 to 5). -/
def State.raiseCheck (s : State) (e : ErrorCode) : Result := s.raise e 0 s.mem emptyRegion s.drawCount

/-- The raise of an access or padding error (60_exceptions.md R345 items 6 and 7). -/
def State.raiseAbort (s : State) (x : Abort) (out : Region) (drawCount : Nat) : Result :=
  match x with
  | .bus a => s.raise .busError a s.mem out drawCount
  | .padding written => s.raise .integrityOrPassword 0 written out drawCount

/-- The value a completion writes to OUT_LEN (10_state.md R37). A count that the 32 bits cannot hold leaves a free
value there (log entry 4). -/
def outLenWord (n drawCount : Nat) : Word := if n < 2 ^ 32 then BitVec.ofNat 32 n else Config.freeWord drawCount

/-- The free values counted once OUT_LEN is written. -/
def outLenDraws (n drawCount : Nat) : Nat := if n < 2 ^ 32 then drawCount else drawCount + 1

/-- The commit of the Complete step (40_command_model.md R142). -/
def State.commit (s : State) (r : Result) : State :=
  { s with
    regs := r.regs
    mem := r.mem
    outLen := outLenWord r.outLen r.drawCount
    errAddr := BitVec.ofNat 32 r.errAddr
    status := s.status.complete r.err
    hidden := Hidden.zero
    sequencer := .idle
    pending := none
    drawCount := outLenDraws r.outLen r.drawCount }

/-- The ILLEGAL_COMMAND completion (60_exceptions.md R346). -/
def completeIllegal (s : State) : State := s.commit (s.raiseCheck .illegalCommand)

/-! ### Accept and reset -/

/-- The accept of command word `w` (40_command_model.md R141). -/
def State.accept (s : State) (w : Word) : State :=
  { s with
    cmd := w
    status := s.status.accept
    sequencer := .running w
    pending := some ⟨w, s.regs⟩ }

/-- The regions of command word `w` (20_memory.md R91); an Illegal word has none. -/
def regionsOfWord (w : Word) (o : OperandRegs) : Regions :=
  match decode w with
  | .ok i => regionsOf i o
  | .error _ => ⟨emptyRegion, emptyRegion, emptyRegion, true⟩

/-- The Out region a reset leaves unspecified: that of the running command, none when Idle (70_reset_and_hazards.md
R381, R382). -/
def State.abandonedOut (s : State) : Region :=
  match s.sequencer with
  | .idle => emptyRegion
  | .running w => (regionsOfWord w s.operands).out

/-- Reset of the engine, soft (70_reset_and_hazards.md R382) or power-on (R380, log entry 9): every register and all
hidden state at the reset value, a running command abandoned and its Out unspecified. What is no state of ACE stays. -/
def State.resetEngine (s : State) : State :=
  { State.reset with
    mem := unspecify s.mem s.abandonedOut s.drawCount
    drawCount := s.drawCount + bytesInSpace s.abandonedOut
    platform := s.platform
    inputs := s.inputs
    results := s.results }

/-! ### The register window -/

/-- The register map of 10_state.md R30: offset and register. -/
def regMap : List (Nat × Reg) :=
  [(0x00, .ctrl), (0x04, .status), (0x08, .cmd), (0x0C, .iter), (0x10, .pwAddr), (0x14, .pwLen), (0x18, .srcAddr),
    (0x1C, .srcLen), (0x20, .dstAddr), (0x24, .outLen), (0x28, .errAddr)] ++
  [(0x40, .key 0), (0x44, .key 1), (0x48, .key 2), (0x4C, .key 3), (0x50, .key 4), (0x54, .key 5), (0x58, .key 6),
    (0x5C, .key 7)] ++
  [(0x60, .iv 0), (0x64, .iv 1), (0x68, .iv 2), (0x6C, .iv 3)] ++
  [(0x70, .salt 0), (0x74, .salt 1), (0x78, .salt 2), (0x7C, .salt 3)]

/-- The register at an offset; none at a reserved one (10_state.md R30). -/
def regAt (off : Nat) : Option Reg := regMap.lookup off

/-- The offset of a register (10_state.md R30). -/
def regOffset : Reg → Nat
  | .ctrl => 0x00
  | .status => 0x04
  | .cmd => 0x08
  | .iter => 0x0C
  | .pwAddr => 0x10
  | .pwLen => 0x14
  | .srcAddr => 0x18
  | .srcLen => 0x1C
  | .dstAddr => 0x20
  | .outLen => 0x24
  | .errAddr => 0x28
  | .key j => 0x40 + 4 * j.val
  | .iv j => 0x60 + 4 * j.val
  | .salt j => 0x70 + 4 * j.val

/-- What a host read of a register returns (40_command_model.md R150). -/
def State.readReg (s : State) : Reg → Word
  | .ctrl => ctrlWord s.ie
  | .status => s.status.word
  | .cmd => s.cmd
  | .iter => s.regs.iter
  | .pwAddr => s.regs.pwAddr
  | .pwLen => s.regs.pwLen
  | .srcAddr => s.regs.srcAddr
  | .srcLen => s.regs.srcLen
  | .dstAddr => s.regs.dstAddr
  | .outLen => s.outLen
  | .errAddr => s.errAddr
  | .key j => s.regs.key[j]
  | .iv j => s.regs.iv[j]
  | .salt j => s.regs.salt[j]

/-- What a host read of an offset returns: 0 at a reserved one (40_command_model.md R150). -/
def State.windowRead (s : State) (off : Nat) : Word :=
  match regAt off with
  | none => 0
  | some r => s.readReg r

/-- An idle write of an operand register stores all 32 bits (40_command_model.md R155). CTRL, STATUS, CMD, OUT_LEN and
ERR_ADDR are no operand registers. -/
def OperandRegs.write (o : OperandRegs) (d : Word) : Reg → OperandRegs
  | .ctrl => o
  | .status => o
  | .cmd => o
  | .iter => { o with iter := d }
  | .pwAddr => { o with pwAddr := d }
  | .pwLen => { o with pwLen := d }
  | .srcAddr => { o with srcAddr := d }
  | .srcLen => { o with srcLen := d }
  | .dstAddr => { o with dstAddr := d }
  | .outLen => o
  | .errAddr => o
  | .key j => { o with key := o.key.set j d }
  | .iv j => { o with iv := o.iv.set j d }
  | .salt j => { o with salt := o.salt.set j d }

/-- A write that is taken only while idle; while BUSY it is dropped and sets OVR (40_command_model.md R154). -/
def State.whenIdle (s : State) (taken : State) : State :=
  if s.status.busy then { s with status := s.status.overrun } else taken

/-- A host write of `d` to an operand register (40_command_model.md R154, R155). -/
def State.writeOperand (s : State) (r : Reg) (d : Word) : State :=
  s.whenIdle { s with regs := s.regs.write d r }

/-- A host write of `d` to CTRL: bit 1 resets, else bit 0 goes to IE (40_command_model.md R151). -/
def State.writeCtrl (s : State) (d : Word) : State :=
  if d.getLsbD 1 then s.resetEngine else { s with ie := d.getLsbD 0 }

/-- A host write of `d` to a register (40_command_model.md R151-R156). -/
def State.writeReg (s : State) (r : Reg) (d : Word) : State :=
  match r with
  | .ctrl => s.writeCtrl d
  | .status => { s with status := s.status.writeOneToClear d }
  | .cmd => s.whenIdle (s.accept d)
  | .iter => s.writeOperand .iter d
  | .pwAddr => s.writeOperand .pwAddr d
  | .pwLen => s.writeOperand .pwLen d
  | .srcAddr => s.writeOperand .srcAddr d
  | .srcLen => s.writeOperand .srcLen d
  | .dstAddr => s.writeOperand .dstAddr d
  | .outLen => s
  | .errAddr => s
  | .key j => s.writeOperand (.key j) d
  | .iv j => s.writeOperand (.iv j) d
  | .salt j => s.writeOperand (.salt j) d

/-- A host write of `d` to an offset: ignored at a reserved one (40_command_model.md R156). -/
def State.windowWrite (s : State) (off : Nat) (d : Word) : State :=
  match regAt off with
  | none => s
  | some r => s.writeReg r d

/-- The offset a host access reaches: only an aligned 32-bit access of the window is admitted (20_memory.md R84,
30_encoding.md R129, log entry 11). -/
def windowOffset (p : Platform) (addr size : Nat) : Option Nat :=
  let off := addr - windowBase p
  if size = 4 ∧ windowBase p ≤ addr ∧ off ≤ 0xFC ∧ off % 4 = 0 then some off else none

end Sys2Proof.Machine
end

