-- ==== Sys2Proof/Machine/Cipher.lean ====
section
/-! DEFINITION. CBC, the padding, and the ENC and DEC commands (42_cipher.md sections 2 to 5). -/

namespace Sys2Proof.Machine

/-- The last plaintext block: `r` bytes and the pad byte 16 - r repeated 16 - r times (42_cipher.md R250). -/
def padLast (tail : List Byte) : List Byte :=
  tail ++ List.replicate (16 - tail.length) (BitVec.ofNat 8 (16 - tail.length))

/-- PadOK (42_cipher.md R251). -/
def padOK (h : List Byte) : Bool :=
  let k := (h.getD 15 0).toNat
  decide (1 ≤ k) && decide (k ≤ 16) && (h.drop (16 - k) == List.replicate k (h.getD 15 0))

/-- `CbcEncryptPass` with `n` whole blocks and a last block of `r` bytes to go, after the ciphertext block `prev`
(42_cipher.md R242), each access in the order of 20_memory.md R95. -/
def cbcEncryptFrom (p : Platform) (k : RoundKeys) (r : Nat) :
    Nat → Block → Memory → Nat → Nat → Except Abort Memory
  | 0, prev, m, inA, outA =>
    match dmaRead p m inA r with
    | .error x => .error x
    | .ok tail => dmaWrite p m outA (aesEncBlock k ((Block.ofBytes (padLast tail)).xor prev)).bytes
  | n + 1, prev, m, inA, outA =>
    match dmaRead p m inA 16 with
    | .error x => .error x
    | .ok b =>
      let c := aesEncBlock k ((Block.ofBytes b).xor prev)
      match dmaWrite p m outA c.bytes with
      | .error x => .error x
      | .ok m' => cbcEncryptFrom p k r n c m' (inA + 16) (outA + 16)

/-- `CbcEncryptPass(key, iv, inA, L, outA)` (42_cipher.md R242): memory after it. It writes `paddedLength L` bytes. -/
def cbcEncryptPass (p : Platform) (m : Memory) (key iv : List Byte) (inA len outA : Nat) : Except Abort Memory :=
  cbcEncryptFrom p (expandKey key) (len % 16) (len / 16) (Block.ofBytes iv) m inA outA

/-- `CbcDecryptPass` with `n` blocks and the last block to go, after the ciphertext block `prev` (42_cipher.md R243):
memory after it and the pad length K. -/
def cbcDecryptFrom (p : Platform) (k : RoundKeys) : Nat → Block → Memory → Nat → Nat → Except Abort (Memory × Nat)
  | 0, prev, m, inA, outA =>
    match dmaRead p m inA 16 with
    | .error x => .error x
    | .ok b =>
      let h := ((aesDecBlock k (Block.ofBytes b)).xor prev).bytes
      if padOK h then
        let pad := (h.getD 15 0).toNat
        match dmaWrite p m outA (h.take (16 - pad)) with
        | .error x => .error x
        | .ok m' => .ok (m', pad)
      else .error (.padding m)
  | n + 1, prev, m, inA, outA =>
    match dmaRead p m inA 16 with
    | .error x => .error x
    | .ok b =>
      let c := Block.ofBytes b
      match dmaWrite p m outA ((aesDecBlock k c).xor prev).bytes with
      | .error x => .error x
      | .ok m' => cbcDecryptFrom p k n c m' (inA + 16) (outA + 16)

/-- `CbcDecryptPass(key, iv, inA, L, outA)` for L = 16N, N ≥ 1 (42_cipher.md R243). -/
def cbcDecryptPass (p : Platform) (m : Memory) (key iv : List Byte) (inA len outA : Nat) :
    Except Abort (Memory × Nat) :=
  cbcDecryptFrom p (expandKey key) (len / 16 - 1) (Block.ofBytes iv) m inA outA

/-- What ENC computes (42_cipher.md R260). -/
def encResult (ksz : BitVec 2) (s : State) : Result :=
  let o := s.operands
  let len := o.srcLen.toNat
  match encCheck ksz o with
  | some e => s.raiseCheck e
  | none =>
    match cbcEncryptPass s.platform s.mem (o.keyBytes (klen ksz)) o.ivBytes o.srcAddr.toNat len o.dstAddr.toNat with
    | .error x => s.raiseAbort x (regionsOf (.enc ksz) o).out s.drawCount
    | .ok m => s.success m (paddedLength len) s.drawCount

/-- ENC (42_cipher.md R260): its Complete step. -/
def execEnc (ksz : BitVec 2) (s : State) : Host.Outcome State Fault Refusal := .next (s.commit (encResult ksz s))

/-- What DEC computes (42_cipher.md R270, R271, R272). -/
def decResult (ksz : BitVec 2) (s : State) : Result :=
  let o := s.operands
  let len := o.srcLen.toNat
  match decCheck ksz o with
  | some e => s.raiseCheck e
  | none =>
    match cbcDecryptPass s.platform s.mem (o.keyBytes (klen ksz)) o.ivBytes o.srcAddr.toNat len o.dstAddr.toNat with
    | .error x => s.raiseAbort x (regionsOf (.dec ksz) o).out s.drawCount
    | .ok (m, pad) => s.success m (len - pad) s.drawCount

/-- DEC (42_cipher.md R270): its Complete step. -/
def execDec (ksz : BitVec 2) (s : State) : Host.Outcome State Fault Refusal := .next (s.commit (decResult ksz s))

end Sys2Proof.Machine
end

