-- ==== Sys2Proof/Machine/Sha256.lean ====
section
/-! DEFINITION. SHA-256 (41_kdf.md section 1). -/

namespace Sys2Proof.Machine

/-- Ch (41_kdf.md R183). -/
def shaCh (x y z : Word) : Word := (x &&& y) ^^^ (~~~x &&& z)

/-- Maj (41_kdf.md R183). -/
def shaMaj (x y z : Word) : Word := (x &&& y) ^^^ (x &&& z) ^^^ (y &&& z)

/-- Σ0 (41_kdf.md R183). -/
def shaSum0 (x : Word) : Word := x.rotateRight 2 ^^^ x.rotateRight 13 ^^^ x.rotateRight 22

/-- Σ1 (41_kdf.md R183). -/
def shaSum1 (x : Word) : Word := x.rotateRight 6 ^^^ x.rotateRight 11 ^^^ x.rotateRight 25

/-- σ0 (41_kdf.md R183). -/
def shaSigma0 (x : Word) : Word := x.rotateRight 7 ^^^ x.rotateRight 18 ^^^ (x >>> 3)

/-- σ1 (41_kdf.md R183). -/
def shaSigma1 (x : Word) : Word := x.rotateRight 17 ^^^ x.rotateRight 19 ^^^ (x >>> 10)

/-- The table of round constants (41_kdf.md R184), a row of eight words `+0` to `+7` as one number of 256 bits. -/
def shaConstantRows : List (BitVec 256) :=
  [0x428a2f98_71374491_b5c0fbcf_e9b5dba5_3956c25b_59f111f1_923f82a4_ab1c5ed5,
   0xd807aa98_12835b01_243185be_550c7dc3_72be5d74_80deb1fe_9bdc06a7_c19bf174,
   0xe49b69c1_efbe4786_0fc19dc6_240ca1cc_2de92c6f_4a7484aa_5cb0a9dc_76f988da,
   0x983e5152_a831c66d_b00327c8_bf597fc7_c6e00bf3_d5a79147_06ca6351_14292967,
   0x27b70a85_2e1b2138_4d2c6dfc_53380d13_650a7354_766a0abb_81c2c92e_92722c85,
   0xa2bfe8a1_a81a664b_c24b8b70_c76c51a3_d192e819_d6990624_f40e3585_106aa070,
   0x19a4c116_1e376c08_2748774c_34b0bcb5_391c0cb3_4ed8aa4a_5b9cca4f_682e6ff3,
   0x748f82ee_78a5636f_84c87814_8cc70208_90befffa_a4506ceb_bef9a3f7_c67178f2]

/-- The words of a row, from the left: word k is bits 255 - 32k down to 224 - 32k. -/
def rowWords (row : BitVec 256) : List Word := (List.range 8).map (fun k => row.extractLsb' (224 - 32 * k) 32)

/-- The round constants K[0..63] (41_kdf.md R184). -/
def shaConstants : List Word := shaConstantRows.flatMap rowWords

/-- Eight words: a chaining value H0..H7, or the working variables a..h (41_kdf.md R187). -/
structure ShaState where
  a : Word
  b : Word
  c : Word
  d : Word
  e : Word
  f : Word
  g : Word
  h : Word
  deriving DecidableEq, Repr

/-- H(0) (41_kdf.md R185). -/
def shaInit : ShaState :=
  ⟨0x6a09e667, 0xbb67ae85, 0x3c6ef372, 0xa54ff53a, 0x510e527f, 0x9b05688c, 0x1f83d9ab, 0x5be0cd19⟩

/-- The big-endian words of a byte string (41_kdf.md R182). -/
def shaWords : List Byte → List Word
  | b0 :: b1 :: b2 :: b3 :: rest => (b0 ++ b1 ++ b2 ++ b3 : BitVec 32) :: shaWords rest
  | [] => []
  | [_] => []
  | [_, _] => []
  | [_, _, _] => []

/-- `n` more words of the message schedule, on a list that holds the words so far, the last first (41_kdf.md R186). -/
def shaExtend : Nat → List Word → List Word
  | 0, w => w
  | n + 1, w =>
    shaExtend n ((shaSigma1 (w.getD 1 0) + w.getD 6 0 + shaSigma0 (w.getD 14 0) + w.getD 15 0) :: w)

/-- The message schedule W[0..63] of a 64-byte block (41_kdf.md R186). -/
def shaSchedule (block : List Byte) : List Word := (shaExtend 48 (shaWords block).reverse).reverse

/-- One round, with the round constant and the schedule word (41_kdf.md R187). -/
def shaRound (x : ShaState) (kw : Word × Word) : ShaState :=
  let t1 := x.h + shaSum1 x.e + shaCh x.e x.f x.g + kw.1 + kw.2
  let t2 := shaSum0 x.a + shaMaj x.a x.b x.c
  ⟨t1 + t2, x.a, x.b, x.c, x.d + t1, x.e, x.f, x.g⟩

/-- Wordwise addition modulo 2^32. -/
def ShaState.add (x y : ShaState) : ShaState :=
  ⟨x.a + y.a, x.b + y.b, x.c + y.c, x.d + y.d, x.e + y.e, x.f + y.f, x.g + y.g, x.h + y.h⟩

/-- `Compress(H, M)` (41_kdf.md R187). -/
def shaCompress (x : ShaState) (block : List Byte) : ShaState :=
  x.add ((shaConstants.zip (shaSchedule block)).foldl shaRound x)

/-- The four bytes of a word, most significant first: BE32 (00_scope.md R7). -/
def be32 (w : Word) : List Byte :=
  [w.extractLsb' 24 8, w.extractLsb' 16 8, w.extractLsb' 8 8, w.extractLsb' 0 8]

/-- BE64 of a number (41_kdf.md R181). -/
def be64 (n : Nat) : List Byte := be32 (BitVec.ofNat 32 (n / 2 ^ 32)) ++ be32 (BitVec.ofNat 32 n)

/-- The padding of a message of `len` bytes: 0x80, the least number of zeros that brings the length to 56 modulo 64, and
the length in bits (41_kdf.md R181). -/
def shaPadding (len : Nat) : List Byte :=
  0x80 :: List.replicate ((119 - len % 64) % 64) 0 ++ be64 (8 * len)

/-- The first `n` blocks of 64 bytes (41_kdf.md R181). -/
def shaBlocks : Nat → List Byte → List (List Byte)
  | 0, _ => []
  | n + 1, b => b.take 64 :: shaBlocks n (b.drop 64)

/-- Compress folded over the 64-byte blocks of a byte string (41_kdf.md R187). -/
def shaFold (x : ShaState) (b : List Byte) : ShaState := (shaBlocks (b.length / 64) b).foldl shaCompress x

/-- The digest of a final hash value (41_kdf.md R182). -/
def shaDigest (x : ShaState) : List Byte :=
  be32 x.a ++ be32 x.b ++ be32 x.c ++ be32 x.d ++ be32 x.e ++ be32 x.f ++ be32 x.g ++ be32 x.h

/-- SHA256 (41_kdf.md R180-R187). -/
def sha256 (m : List Byte) : List Byte := shaDigest (shaFold shaInit (m ++ shaPadding m.length))

end Sys2Proof.Machine
end

