-- ==== Sys2Proof/Machine/Pbkdf2.lean ====
section
/-! DEFINITION. HMAC-SHA-256 and PBKDF2 (41_kdf.md sections 2 and 3). -/

namespace Sys2Proof.Machine

/-- Bytewise exclusive-or of two byte strings (00_scope.md R6). -/
def xorBytes (x y : List Byte) : List Byte := List.zipWith (fun a b => a ^^^ b) x y

/-- The HMAC key block K0 (41_kdf.md R190). -/
def hmacKeyBlock (k : List Byte) : List Byte :=
  if 64 < k.length then sha256 k ++ List.replicate 32 0 else k ++ List.replicate (64 - k.length) 0

/-- ipad and opad (41_kdf.md R191). -/
def hmacIpad : List Byte := List.replicate 64 0x36
def hmacOpad : List Byte := List.replicate 64 0x5c

/-- HMAC with the key block K0 given (41_kdf.md R191). -/
def hmacOfBlock (k0 m : List Byte) : List Byte :=
  sha256 (xorBytes k0 hmacOpad ++ sha256 (xorBytes k0 hmacIpad ++ m))

/-- HMAC (41_kdf.md R191). -/
def hmac (k m : List Byte) : List Byte := hmacOfBlock (hmacKeyBlock k) m

/-- `n` more iterations, from the last PRF output U and the accumulator T (41_kdf.md R195). -/
def pbkdf2Loop (k0 : List Byte) : Nat → List Byte → List Byte → List Byte
  | 0, _, t => t
  | n + 1, u, t =>
    let u' := hmacOfBlock k0 u
    pbkdf2Loop k0 n u' (xorBytes t u')

/-- PBKDF2(P, S, c, dkLen), for c ≥ 1 and dkLen ≤ 32 (41_kdf.md R195). -/
def pbkdf2 (p salt : List Byte) (c dkLen : Nat) : List Byte :=
  let k0 := hmacKeyBlock p
  let u1 := hmacOfBlock k0 (salt ++ be32 1)
  (pbkdf2Loop k0 (c - 1) u1 u1).take dkLen

end Sys2Proof.Machine
end

