-- ==== Sys2Proof/Machine/Kdf.lean ====
section
/-! DEFINITION. The KDF command (41_kdf.md section 4). -/

namespace Sys2Proof.Machine

/-- `MemRead(PW_ADDR, PW_LEN)`: the password (41_kdf.md R200). -/
def readPassword (s : State) (o : OperandRegs) : Except Abort (List Byte) :=
  dmaRead s.platform s.mem o.pwAddr.toNat o.pwLen.toNat

/-- What KDF computes (41_kdf.md R200, R205, R206, R210). -/
def kdfResult (ksz : BitVec 2) (s : State) : Result :=
  let o := s.operands
  match kdfCheck ksz o with
  | some e => s.raiseCheck e
  | none =>
    match readPassword s o with
    | .error x => s.raiseAbort x emptyRegion s.drawCount
    | .ok p =>
      { s.success s.mem 0 s.drawCount with
        regs := { s.regs with key := keyRegs (pbkdf2 p o.saltBytes o.iter.toNat (klen ksz)) } }

/-- KDF (41_kdf.md R200): its Complete step. -/
def execKdf (ksz : BitVec 2) (s : State) : Host.Outcome State Fault Refusal := .next (s.commit (kdfResult ksz s))

end Sys2Proof.Machine
end

