-- ==== Sys2Proof/Machine/Container.lean ====
section
/-! DEFINITION. The container commands SEAL and OPEN (43_container.md). -/

namespace Sys2Proof.Machine

/-- The salt and IV of SEAL (43_container.md R290, R292): with GEN = 1 the two halves of a 32-byte draw, with GEN = 0
the SALT and IV registers. -/
def sealHeader (gen : Bool) (o : OperandRegs) (drawCount : Nat) : List Byte × List Byte :=
  if gen then (drawBytes drawCount 16, drawBytes (drawCount + 16) 16) else (o.saltBytes, o.ivBytes)

/-- The free values counted once SEAL has its salt and IV. -/
def sealDraws (gen : Bool) (drawCount : Nat) : Nat := if gen then drawCount + 32 else drawCount

/-- The memory accesses of SEAL, in order (43_container.md R290, 20_memory.md R95): read the password, write salt and
IV, encrypt. -/
def sealPass (p : Platform) (m : Memory) (ksz : BitVec 2) (o : OperandRegs) (salt iv : List Byte) : Except Abort Memory :=
  let dst := o.dstAddr.toNat
  match dmaRead p m o.pwAddr.toNat o.pwLen.toNat with
  | .error x => .error x
  | .ok pw =>
    let dk := pbkdf2 pw salt o.iter.toNat (klen ksz)
    match dmaWrite p m dst salt with
    | .error x => .error x
    | .ok m1 =>
      match dmaWrite p m1 (dst + 16) iv with
      | .error x => .error x
      | .ok m2 => cbcEncryptPass p m2 dk iv o.srcAddr.toNat o.srcLen.toNat (dst + 32)

/-- What SEAL computes (43_container.md R290-R293). -/
def sealResult (ksz : BitVec 2) (gen : Bool) (s : State) : Result :=
  let o := s.operands
  match sealCheck ksz gen o with
  | some e => s.raiseCheck e
  | none =>
    let header := sealHeader gen o s.drawCount
    match sealPass s.platform s.mem ksz o header.1 header.2 with
    | .error x => s.raiseAbort x (regionsOf (.sealC ksz gen) o).out (sealDraws gen s.drawCount)
    | .ok m => s.success m (32 + paddedLength o.srcLen.toNat) (sealDraws gen s.drawCount)

/-- SEAL (43_container.md R290): its Complete step. -/
def execSeal (ksz : BitVec 2) (gen : Bool) (s : State) : Host.Outcome State Fault Refusal :=
  .next (s.commit (sealResult ksz gen s))

/-- The memory accesses of OPEN, in order (43_container.md R300, 20_memory.md R95): read the password, the salt and the
IV, decrypt. -/
def openPass (p : Platform) (m : Memory) (ksz : BitVec 2) (o : OperandRegs) : Except Abort (Memory × Nat) :=
  let src := o.srcAddr.toNat
  match dmaRead p m o.pwAddr.toNat o.pwLen.toNat with
  | .error x => .error x
  | .ok pw =>
    match dmaRead p m src 16 with
    | .error x => .error x
    | .ok salt =>
      match dmaRead p m (src + 16) 16 with
      | .error x => .error x
      | .ok iv =>
        let dk := pbkdf2 pw salt o.iter.toNat (klen ksz)
        cbcDecryptPass p m dk iv (src + 32) (o.srcLen.toNat - 32) o.dstAddr.toNat

/-- What OPEN computes (43_container.md R300-R302). -/
def openResult (ksz : BitVec 2) (s : State) : Result :=
  let o := s.operands
  match openCheck ksz o with
  | some e => s.raiseCheck e
  | none =>
    match openPass s.platform s.mem ksz o with
    | .error x => s.raiseAbort x (regionsOf (.openC ksz) o).out s.drawCount
    | .ok (m, pad) => s.success m (o.srcLen.toNat - 32 - pad) s.drawCount

/-- OPEN (43_container.md R300): its Complete step. -/
def execOpen (ksz : BitVec 2) (s : State) : Host.Outcome State Fault Refusal := .next (s.commit (openResult ksz s))

end Sys2Proof.Machine
end

