-- ==== Sys2Proof/Machine/Housekeeping.lean ====
section
/-! DEFINITION. NOP and ZEROIZE (44_housekeeping.md). -/

namespace Sys2Proof.Machine

/-- NOP (44_housekeeping.md R320): complete with no effect. -/
def execNop (s : State) : Host.Outcome State Fault Refusal := .next (s.commit (s.success s.mem 0 s.drawCount))

/-- The operand registers with KEY, IV and SALT zero (44_housekeeping.md R322). -/
def OperandRegs.zeroized (o : OperandRegs) : OperandRegs :=
  { o with key := #v[0, 0, 0, 0, 0, 0, 0, 0], iv := #v[0, 0, 0, 0], salt := #v[0, 0, 0, 0] }

/-- ZEROIZE (44_housekeeping.md R322): KEY, IV and SALT zero. -/
def execZeroize (s : State) : Host.Outcome State Fault Refusal :=
  .next (s.commit { s.success s.mem 0 s.drawCount with regs := s.regs.zeroized })

end Sys2Proof.Machine
end

