-- ==== Sys2Proof/Machine/Dispatch.lean ====
section
/-! DEFINITION. Exec dispatch (40_command_model.md R143): one arm per command, each its Complete step (R142). -/

namespace Sys2Proof.Machine

def exec (i : Instr) (s : State) : Host.Outcome State Fault Refusal :=
  match i with
  | .nop => Sys2Proof.Machine.execNop s
  | .kdf ksz => Sys2Proof.Machine.execKdf ksz s
  | .enc ksz => Sys2Proof.Machine.execEnc ksz s
  | .dec ksz => Sys2Proof.Machine.execDec ksz s
  | .sealC ksz gen => Sys2Proof.Machine.execSeal ksz gen s
  | .openC ksz => Sys2Proof.Machine.execOpen ksz s
  | .zeroize => Sys2Proof.Machine.execZeroize s

end Sys2Proof.Machine
end

