-- ==== Sys2Proof/Machine/HostBus.lean ====
section
/-! DEFINITION. The host's steps: bus accesses of the register window, host-side accesses of DMA memory, and the
host-program notation as a list of them. -/

namespace Sys2Proof.Machine

/-- Whether a host-side access of the `n` bytes from `a` on touches Pw, In or Out of the running command
(20_memory.md R100 item 4). -/
def State.races (s : State) (a n : Nat) : Bool :=
  match s.sequencer with
  | .idle => false
  | .running w =>
    let rs := regionsOfWord w s.operands
    let acc : Region := ⟨a, n⟩
    !(disjoint acc rs.pw && disjoint acc rs.inp && disjoint acc rs.out)

/-- Whether an access of the `n` bytes from `a` on reaches a device register (20_memory.md R87). -/
def reachesDevice (p : Platform) (a n : Nat) : Bool := p.devices.any (fun r => !disjoint ⟨a, n⟩ r)

/-- A host-side access either faults or is made (20_memory.md R100 item 4, R87, 10_state.md R47, log entry 11). dmaReadOK
and dmaWriteOK are no test of it: they admit the accesses of the engine's port, and what backs an address they refuse is
left to the platform. At every address that is no device's the model makes the access as one of ordinary memory, admitted
or not: DESIGN CHOICE, unsafe (log entry 23). -/
def State.hostSideAccess (s : State) (a n : Nat) (made : State) : Host.Outcome State Fault Refusal :=
  if dmaSize < a + n then .fault .noSuchDmaAddress
  else if reachesDevice s.platform a n then .fault .deviceAccess
  else if s.races a n then .fault .regionRace
  else .next made

/-- A host-side store (30_encoding.md R132). -/
def hostStore (a : Nat) (bytes : List Byte) (s : State) : Host.Outcome State Fault Refusal :=
  s.hostSideAccess a bytes.length { s with mem := Memory.writeBytes s.mem a bytes }

/-- A host-side load: the bytes go to the host. -/
def hostLoad (a n : Nat) (s : State) : Host.Outcome State Fault Refusal :=
  s.hostSideAccess a n { s with results := .bytes (Memory.readBytes s.mem a n) :: s.results }

/-- A host bus read (20_memory.md R84, 40_command_model.md R150): the value goes to the host and no state of ACE
changes. -/
def hostRead (addr size : Nat) (s : State) : Host.Outcome State Fault Refusal :=
  match windowOffset s.platform addr size with
  | none => .fault .mmioBadAccess
  | some off => .next { s with results := .word (s.windowRead off) :: s.results }

/-- A host bus write (20_memory.md R84, 40_command_model.md R151-R156). -/
def hostWrite (addr size : Nat) (d : Word) (s : State) : Host.Outcome State Fault Refusal :=
  match windowOffset s.platform addr size with
  | none => .fault .mmioBadAccess
  | some off => .next (s.windowWrite off d)

/-- The host actions of one line of a host program (30_encoding.md R132). -/
def HostLine.event (p : Platform) : HostLine → Event
  | .wr r v => .busWrite (windowBase p + regOffset r) 4 v
  | .rd r => .busRead (windowBase p + regOffset r) 4
  | .issue m => .busWrite (windowBase p + regOffset .cmd) 4 m.word
  | .issueWord w => .busWrite (windowBase p + regOffset .cmd) 4 w
  | .wait => .wait
  | .mem a bs => .memStore a bs

/-- One line of a host program after what comes before it: the engine's turn, where `turn` says so, or nothing. -/
def HostLine.events (p : Platform) (turn : Bool) (line : HostLine) : List Event :=
  if turn then [.engine, HostLine.event p line] else [HostLine.event p line]

/-- The state with a host program to run, after what is still to come, in one of the orders that 60_exceptions.md R347
admits: each line is paired with whether the engine has a turn, in which a running command completes, right before it. -/
def State.withInterleaving (s : State) (lines : List (Bool × HostLine)) : State :=
  { s with inputs := s.inputs ++ lines.flatMap (fun x => HostLine.events s.platform x.1 x.2) }

/-- The state with a host program to run in the one order in which the engine has no turn between two lines: a command
completes at a WAIT or after the last line. DESIGN CHOICE, unsafe (log entry 24): in a program with no WAIT between two
lines R347 also admits the completion before the second; `State.withInterleaving` gives every order. -/
def State.withProgram (s : State) (lines : List HostLine) : State :=
  s.withInterleaving (lines.map (fun line => (false, line)))

end Sys2Proof.Machine
end

