-- ==== Sys2Proof/Machine/Engine.lean ====
section
/-! DEFINITION. The engine's step, and one step of the machine for each thing that can come next. -/

namespace Sys2Proof.Machine

/-- The Complete step of a running command word (40_command_model.md R142, R143): an Illegal word completes with
ILLEGAL_COMMAND (60_exceptions.md R346). -/
def complete (w : Word) (s : State) : Host.Outcome State Fault Refusal :=
  match decode w with
  | .ok i => exec i s
  | .error _ => .next (completeIllegal s)

/-- The engine's turn: Complete when running; an idle engine does nothing (40_command_model.md R142, R160,
60_exceptions.md R365). -/
def engineTurn (s : State) : Host.Outcome State Fault Refusal :=
  match s.sequencer with
  | .idle => .next s
  | .running w => complete w s

/-- WAIT repeats a read of STATUS until DONE = 1 (30_encoding.md R132); while it does, a running engine completes
(70_reset_and_hazards.md R395, log entry 5). `s` still lists the WAIT, `s'` no longer does. -/
def waitTurn (s s' : State) : Host.Outcome State Fault Refusal := if s.status.done then .next s' else engineTurn s

/-- One step with event `e` first; `s` still lists it, `s'` no longer does. -/
def takeEvent (e : Event) (s s' : State) : Host.Outcome State Fault Refusal :=
  match e with
  | .busRead addr size => hostRead addr size s'
  | .busWrite addr size d => hostWrite addr size d s'
  | .memLoad a n => hostLoad a n s'
  | .memStore a bytes => hostStore a bytes s'
  | .wait => waitTurn s s'
  | .engine => engineTurn s'
  | .powerOnReset => .next s'.resetEngine

end Sys2Proof.Machine
end

