-- ==== Sys2Proof/Machine/Step.lean ====
section
/-! DEFINITION. One step of the machine, and a command word placed where the next step runs it. -/

namespace Sys2Proof.Machine

/-- One step (40_command_model.md R160): the first of `inputs`, or the engine's turn when nothing is listed. -/
def step (s : State) : Host.Outcome State Fault Refusal :=
  match s.inputs with
  | [] => engineTurn s
  | e :: rest => takeEvent e s { s with inputs := rest }

/-- The state in which the very next step runs the command word of bits `w`: the word accepted (40_command_model.md
R141) and the engine's turn next (log entry 6). A command word has 32 bits; bits above `nbits` are 0. -/
def State.withFetchWord (s : State) (nbits w : Nat) : State :=
  { s.accept (BitVec.ofNat 32 (w % 2 ^ nbits)) with inputs := .engine :: s.inputs }

end Sys2Proof.Machine
end

