-- ==== Sys2Proof/Machine/Contracts.lean ====
section
/-! DEFINITION. The contracts of 00_scope.md R4 as functions of byte strings, with no memory, registers or order of
accesses: `derive`, `encrypt`, `decrypt`, and the container. The machine does not call them; the statements compare
the commands with them. -/

namespace Sys2Proof.Machine

/-- `derive(password, salt, iterations, output_length)` (41_kdf.md R195). -/
def derive (password salt : List Byte) (iterations outputLength : Nat) : List Byte :=
  pbkdf2 password salt iterations outputLength

/-- The padded plaintext (42_cipher.md R250). -/
def padded (p : List Byte) : List Byte :=
  p ++ List.replicate (16 - p.length % 16) (BitVec.ofNat 8 (16 - p.length % 16))

/-- The first `n` blocks of 16 bytes. -/
def blocksOf : Nat → List Byte → List Block
  | 0, _ => []
  | n + 1, b => Block.ofBytes (b.take 16) :: blocksOf n (b.drop 16)

/-- C_i = AES_Enc(key, X_i ⊕ C_(i-1)) (42_cipher.md R244). -/
def cbcEncryptBlocks (k : RoundKeys) : Block → List Block → List Block
  | _, [] => []
  | prev, x :: xs => aesEncBlock k (x.xor prev) :: cbcEncryptBlocks k (aesEncBlock k (x.xor prev)) xs

/-- X_i = AES_Dec(key, C_i) ⊕ C_(i-1) (42_cipher.md R244). -/
def cbcDecryptBlocks (k : RoundKeys) : Block → List Block → List Block
  | _, [] => []
  | prev, c :: cs => (aesDecBlock k c).xor prev :: cbcDecryptBlocks k c cs

/-- The bytes of a list of blocks. -/
def bytesOf (bs : List Block) : List Byte := bs.flatMap Block.bytes

/-- `encrypt(key, iv, plaintext)` (00_scope.md R4, 42_cipher.md R242). -/
def encrypt (key iv plaintext : List Byte) : List Byte :=
  bytesOf (cbcEncryptBlocks (expandKey key) (Block.ofBytes iv)
    (blocksOf (plaintext.length / 16 + 1) (padded plaintext)))

/-- The padded plaintext of a ciphertext of whole blocks, before the padding is checked (42_cipher.md R243). -/
def decryptPadded (key iv ciphertext : List Byte) : List Byte :=
  bytesOf (cbcDecryptBlocks (expandKey key) (Block.ofBytes iv) (blocksOf (ciphertext.length / 16) ciphertext))

/-- `decrypt(key, iv, ciphertext)`, for a ciphertext of one or more whole blocks: none when the padding is bad
(00_scope.md R4, 42_cipher.md R243, R251). -/
def decrypt (key iv ciphertext : List Byte) : Option (List Byte) :=
  let x := decryptPadded key iv ciphertext
  let last := x.drop (x.length - 16)
  if padOK last then some (x.take (x.length - (last.getD 15 0).toNat)) else none

/-- The container: salt, IV, ciphertext (43_container.md R295). -/
def container (salt iv ciphertext : List Byte) : List Byte := salt ++ iv ++ ciphertext

/-! ### The order of accesses -/

/-- One byte access of the DMA port (20_memory.md R87). -/
inductive Access where
  | read (addr : Nat)
  | write (addr : Nat)
  deriving DecidableEq, Repr

/-- The address of an access. -/
def Access.addr : Access → Nat
  | .read a => a
  | .write a => a

/-- The access is admitted (20_memory.md R96). -/
def Access.admitted (p : Platform) : Access → Bool
  | .read a => dmaReadOK p a
  | .write a => dmaWriteOK p a

/-- The reads of n bytes from `a` on, in increasing order. -/
def readsAt (a : Nat) : Nat → List Access
  | 0 => []
  | n + 1 => .read a :: readsAt (a + 1) n

/-- The writes of n bytes from `a` on, in increasing order. -/
def writesAt (a : Nat) : Nat → List Access
  | 0 => []
  | n + 1 => .write a :: writesAt (a + 1) n

/-- The ENC order with `n` whole blocks and a last block of `r` bytes (20_memory.md R95). -/
def encOrder (r : Nat) : Nat → Nat → Nat → List Access
  | 0, inA, outA => readsAt inA r ++ writesAt outA 16
  | n + 1, inA, outA => readsAt inA 16 ++ writesAt outA 16 ++ encOrder r n (inA + 16) (outA + 16)

/-- The DEC order with `n` blocks and the last block, of which `keep` bytes are written (20_memory.md R95). -/
def decOrder (keep : Nat) : Nat → Nat → Nat → List Access
  | 0, inA, outA => readsAt inA 16 ++ writesAt outA keep
  | n + 1, inA, outA => readsAt inA 16 ++ writesAt outA 16 ++ decOrder keep n (inA + 16) (outA + 16)

/-- The order of accesses of each command (20_memory.md R95). `keep` is the number of bytes of the last block that DEC
and OPEN write: 16 - K when the padding is good, 0 when it is not. -/
def accessOrder (i : Instr) (o : OperandRegs) (keep : Nat) : List Access :=
  let src := o.srcAddr.toNat
  let dst := o.dstAddr.toNat
  let len := o.srcLen.toNat
  let pw := readsAt o.pwAddr.toNat o.pwLen.toNat
  match i with
  | .nop => []
  | .kdf _ => pw
  | .enc _ => encOrder (len % 16) (len / 16) src dst
  | .dec _ => decOrder keep (len / 16 - 1) src dst
  | .sealC _ _ => pw ++ writesAt dst 16 ++ writesAt (dst + 16) 16 ++ encOrder (len % 16) (len / 16) src (dst + 32)
  | .openC _ =>
    pw ++ readsAt src 16 ++ readsAt (src + 16) 16 ++ decOrder keep ((len - 32) / 16 - 1) (src + 32) dst
  | .zeroize => []

/-- The address of the first access in an order that is not admitted (20_memory.md R96). -/
def firstRefusedAccess (p : Platform) (order : List Access) : Option Nat :=
  (order.find? (fun x => !x.admitted p)).map Access.addr

/-! ### The key and data of a command, as byte strings -/

/-- The password in memory. -/
def State.passwordBytes (s : State) : List Byte :=
  Memory.readBytes s.mem s.operands.pwAddr.toNat s.operands.pwLen.toNat

/-- The input buffer in memory. -/
def State.inputBytes (s : State) : List Byte :=
  Memory.readBytes s.mem s.operands.srcAddr.toNat s.operands.srcLen.toNat

/-- KeyBytes(klen) of the operands (10_state.md R42). -/
def State.keyOperand (s : State) (ksz : BitVec 2) : List Byte := s.operands.keyBytes (klen ksz)

/-- The key OPEN derives, from the password and the container's salt. -/
def State.openKey (s : State) (ksz : BitVec 2) : List Byte :=
  derive s.passwordBytes (s.inputBytes.take 16) s.operands.iter.toNat (klen ksz)

/-- The IV of the container OPEN reads. -/
def State.openIv (s : State) : List Byte := (s.inputBytes.drop 16).take 16

/-- The ciphertext of the container OPEN reads. -/
def State.openCiphertext (s : State) : List Byte := s.inputBytes.drop 32

/-- How many bytes of its last block a pass writes, given that decrypted block: 16 - K, or 0 when the padding is bad
(20_memory.md R95). -/
def keptBytes (last : List Byte) : Nat := if padOK last then 16 - (last.getD 15 0).toNat else 0

/-- The last 16 bytes of a byte string. -/
def lastBlock (x : List Byte) : List Byte := x.drop (x.length - 16)

/-- The last decrypted block of DEC and OPEN (42_cipher.md R243); no other command has one. -/
def heldBlock (i : Instr) (s : State) : List Byte :=
  match i with
  | .nop => []
  | .kdf _ => []
  | .enc _ => []
  | .dec ksz => lastBlock (decryptPadded (s.keyOperand ksz) s.operands.ivBytes s.inputBytes)
  | .sealC _ _ => []
  | .openC ksz => lastBlock (decryptPadded (s.openKey ksz) s.openIv s.openCiphertext)
  | .zeroize => []

/-! ### When a command executes normally -/

/-- Every byte of the region is admitted for reading. -/
def ReadAdmitted (p : Platform) (a n : Nat) : Prop := ∀ i, i < n → dmaReadOK p (a + i) = true

/-- Every byte of the region is admitted for writing. -/
def WriteAdmitted (p : Platform) (a n : Nat) : Prop := ∀ i, i < n → dmaWriteOK p (a + i) = true

/-- The input can be read to its end though the output is written as the pass goes: there is no input, the buffers are
disjoint, or each output block stands where its input block does (20_memory.md R92). -/
def PassLegal (inA inLen outA outLen : Nat) : Prop :=
  inLen = 0 ∨ inA + inLen ≤ outA ∨ outA + outLen ≤ inA ∨ inA = outA

/-- KDF executes normally: KSZ legal, ITER not 0, the password region in the DMA space and admitted (41_kdf.md R200). -/
structure KdfRuns (ksz : BitVec 2) (s : State) : Prop where
  legalKsz : ksz = 0b00 ∨ ksz = 0b10
  iter : s.operands.iter ≠ 0
  pw : s.operands.pwAddr.toNat + s.operands.pwLen.toNat ≤ 2 ^ 32
  pwRead : ReadAdmitted s.platform s.operands.pwAddr.toNat s.operands.pwLen.toNat

/-- ENC executes normally: KSZ legal, the regions in the DMA space, disjoint or in place, and admitted
(42_cipher.md R260, 20_memory.md R91-R93). -/
structure EncRuns (ksz : BitVec 2) (s : State) : Prop where
  legalKsz : ksz = 0b00 ∨ ksz = 0b10
  inp : s.operands.srcAddr.toNat + s.operands.srcLen.toNat ≤ 2 ^ 32
  out : s.operands.dstAddr.toNat + 16 * (s.operands.srcLen.toNat / 16 + 1) ≤ 2 ^ 32
  legal : PassLegal s.operands.srcAddr.toNat s.operands.srcLen.toNat s.operands.dstAddr.toNat
    (16 * (s.operands.srcLen.toNat / 16 + 1))
  inRead : ReadAdmitted s.platform s.operands.srcAddr.toNat s.operands.srcLen.toNat
  outWrite : WriteAdmitted s.platform s.operands.dstAddr.toNat (16 * (s.operands.srcLen.toNat / 16 + 1))

/-- DEC executes as far as its padding check: KSZ legal, SRC_LEN a nonzero multiple of 16, the regions in the DMA space,
disjoint or in place, and every byte it reads or writes admitted (42_cipher.md R270, 20_memory.md R91-R96). -/
structure DecRuns (ksz : BitVec 2) (s : State) : Prop where
  legalKsz : ksz = 0b00 ∨ ksz = 0b10
  nonzero : s.operands.srcLen.toNat ≠ 0
  blocks : s.operands.srcLen.toNat % 16 = 0
  inp : s.operands.srcAddr.toNat + s.operands.srcLen.toNat ≤ 2 ^ 32
  out : s.operands.dstAddr.toNat + s.operands.srcLen.toNat ≤ 2 ^ 32
  legal : PassLegal s.operands.srcAddr.toNat s.operands.srcLen.toNat s.operands.dstAddr.toNat s.operands.srcLen.toNat
  inRead : ReadAdmitted s.platform s.operands.srcAddr.toNat s.operands.srcLen.toNat
  outWrite : WriteAdmitted s.platform s.operands.dstAddr.toNat
    (s.operands.srcLen.toNat - 16 + keptBytes (heldBlock (.dec ksz) s))

/-- SEAL executes normally (43_container.md R290, 20_memory.md R91-R93). -/
structure SealRuns (ksz : BitVec 2) (s : State) : Prop where
  legalKsz : ksz = 0b00 ∨ ksz = 0b10
  iter : s.operands.iter ≠ 0
  pwNonempty : s.operands.pwLen ≠ 0
  pw : s.operands.pwAddr.toNat + s.operands.pwLen.toNat ≤ 2 ^ 32
  inp : s.operands.srcAddr.toNat + s.operands.srcLen.toNat ≤ 2 ^ 32
  out : s.operands.dstAddr.toNat + (32 + 16 * (s.operands.srcLen.toNat / 16 + 1)) ≤ 2 ^ 32
  legal : s.operands.srcLen.toNat = 0 ∨
    s.operands.srcAddr.toNat + s.operands.srcLen.toNat ≤ s.operands.dstAddr.toNat ∨
    s.operands.dstAddr.toNat + (32 + 16 * (s.operands.srcLen.toNat / 16 + 1)) ≤ s.operands.srcAddr.toNat ∨
    s.operands.dstAddr.toNat + 32 = s.operands.srcAddr.toNat
  pwRead : ReadAdmitted s.platform s.operands.pwAddr.toNat s.operands.pwLen.toNat
  inRead : ReadAdmitted s.platform s.operands.srcAddr.toNat s.operands.srcLen.toNat
  outWrite : WriteAdmitted s.platform s.operands.dstAddr.toNat (32 + 16 * (s.operands.srcLen.toNat / 16 + 1))

/-- OPEN executes as far as its padding check (43_container.md R300, 20_memory.md R91-R96). -/
structure OpenRuns (ksz : BitVec 2) (s : State) : Prop where
  legalKsz : ksz = 0b00 ∨ ksz = 0b10
  iter : s.operands.iter ≠ 0
  pwNonempty : s.operands.pwLen ≠ 0
  long : 48 ≤ s.operands.srcLen.toNat
  blocks : s.operands.srcLen.toNat % 16 = 0
  pw : s.operands.pwAddr.toNat + s.operands.pwLen.toNat ≤ 2 ^ 32
  inp : s.operands.srcAddr.toNat + s.operands.srcLen.toNat ≤ 2 ^ 32
  out : s.operands.dstAddr.toNat + (s.operands.srcLen.toNat - 32) ≤ 2 ^ 32
  legal : s.operands.srcAddr.toNat + s.operands.srcLen.toNat ≤ s.operands.dstAddr.toNat ∨
    s.operands.dstAddr.toNat + (s.operands.srcLen.toNat - 32) ≤ s.operands.srcAddr.toNat ∨
    s.operands.dstAddr.toNat = s.operands.srcAddr.toNat + 32
  pwRead : ReadAdmitted s.platform s.operands.pwAddr.toNat s.operands.pwLen.toNat
  inRead : ReadAdmitted s.platform s.operands.srcAddr.toNat s.operands.srcLen.toNat
  outWrite : WriteAdmitted s.platform s.operands.dstAddr.toNat
    (s.operands.srcLen.toNat - 48 + keptBytes (heldBlock (.openC ksz) s))

/-- The first access of a command, in its order, that is not admitted (20_memory.md R95, R96). -/
def refusedAddress (i : Instr) (s : State) : Option Nat :=
  firstRefusedAccess s.platform (accessOrder i s.operands (keptBytes (heldBlock i s)))

/-! ### The order of checks -/

/-- KSZ of a command that has one. -/
def kszOf : Instr → Option (BitVec 2)
  | .nop => none
  | .kdf ksz => some ksz
  | .enc ksz => some ksz
  | .dec ksz => some ksz
  | .sealC ksz _ => some ksz
  | .openC ksz => some ksz
  | .zeroize => none

/-- KDF, SEAL and OPEN read ITER (10_state.md R35). -/
def usesIter : Instr → Bool
  | .nop => false
  | .kdf _ => true
  | .enc _ => false
  | .dec _ => false
  | .sealC _ _ => true
  | .openC _ => true
  | .zeroize => false

/-- SEAL and OPEN refuse an empty password (43_container.md R291). -/
def needsPassword : Instr → Bool
  | .nop => false
  | .kdf _ => false
  | .enc _ => false
  | .dec _ => false
  | .sealC _ _ => true
  | .openC _ => true
  | .zeroize => false

/-- The length DEC and OPEN refuse (60_exceptions.md R340, code 2). -/
def malformedLength (i : Instr) (len : Nat) : Prop :=
  match i with
  | .nop => False
  | .kdf _ => False
  | .enc _ => False
  | .dec _ => len = 0 ∨ len % 16 ≠ 0
  | .sealC _ _ => False
  | .openC _ => len < 32 ∨ len = 32 ∨ (len - 32) % 16 ≠ 0
  | .zeroize => False

/-- A region of the command passes 2^32, or In and Out share an address other than in the in-place form
(20_memory.md R90-R93). -/
def regionError (i : Instr) (o : OperandRegs) : Prop :=
  let rs := regionsOf i o
  2 ^ 32 < rs.pw.base + rs.pw.size ∨ 2 ^ 32 < rs.inp.base + rs.inp.size ∨ 2 ^ 32 < rs.out.base + rs.out.size ∨
    ((∃ a, (rs.inp.base ≤ a ∧ a < rs.inp.base + rs.inp.size) ∧ rs.out.base ≤ a ∧ a < rs.out.base + rs.out.size) ∧
      rs.inPlace = false)

/-- The bad padding of DEC and OPEN (60_exceptions.md R340, code 3). -/
def badPadding (i : Instr) (s : State) : Prop :=
  match i with
  | .nop => False
  | .kdf _ => False
  | .enc _ => False
  | .dec _ => padOK (heldBlock i s) = false
  | .sealC _ _ => False
  | .openC _ => padOK (heldBlock i s) = false
  | .zeroize => False

/-- KSZ is reserved, or ITER is 0 where it is used (60_exceptions.md R340, code 4). -/
def preconditionError (i : Instr) (o : OperandRegs) : Prop :=
  (∃ k, kszOf i = some k ∧ (k = 0b01 ∨ k = 0b11)) ∨ (usesIter i = true ∧ o.iter = 0)

/-- The password is empty where it may not be (60_exceptions.md R340, code 1). -/
def passwordError (i : Instr) (o : OperandRegs) : Prop := needsPassword i = true ∧ o.pwLen = 0

/-- No error up to MALFORMED_CONTAINER applies. -/
def passesRegisterChecks (i : Instr) (o : OperandRegs) : Prop :=
  ¬ preconditionError i o ∧ ¬ passwordError i o ∧ ¬ malformedLength i o.srcLen.toNat

/-- `e` is the first error that applies to the command, in the order of 60_exceptions.md R345, or `ok` when none does. -/
def FirstError (i : Instr) (s : State) (e : ErrorCode) : Prop :=
  let o := s.operands
  match e with
  | .preconditionViolation => preconditionError i o
  | .emptyPassword => ¬ preconditionError i o ∧ passwordError i o
  | .malformedContainer => ¬ preconditionError i o ∧ ¬ passwordError i o ∧ malformedLength i o.srcLen.toNat
  | .regionError => passesRegisterChecks i o ∧ regionError i o
  | .busError => passesRegisterChecks i o ∧ ¬ regionError i o ∧ refusedAddress i s ≠ none
  | .integrityOrPassword =>
    passesRegisterChecks i o ∧ ¬ regionError i o ∧ refusedAddress i s = none ∧ badPadding i s
  | .ok => passesRegisterChecks i o ∧ ¬ regionError i o ∧ refusedAddress i s = none ∧ ¬ badPadding i s
  | .illegalCommand => False

/-! ### What every completion, and every reset, leaves -/

/-- The completion of a command with error code `e`, but for what it writes to the operand registers, OUT_LEN, ERR_ADDR
and memory: STATUS, CTRL.IE, CMD and the hidden state (40_command_model.md R142), and what is no state of ACE. -/
structure CompletedWith (s t : State) (e : ErrorCode) : Prop where
  busy : t.status.busy = false
  done : t.status.done = true
  ovr : t.status.ovr = s.status.ovr
  err : t.status.err = e
  ie : t.ie = s.ie
  cmd : t.cmd = s.cmd
  sequencer : t.sequencer = .idle
  pending : t.pending = none
  hidden : t.hidden = Hidden.zero
  platform : t.platform = s.platform
  inputs : t.inputs = s.inputs
  results : t.results = s.results

/-- Every register and all hidden state at the reset value of 10_state.md R30 and R48. -/
structure AceReset (t : State) : Prop where
  ctrl : t.ie = false
  status : t.status.word = 0
  cmd : t.cmd = 0
  iter : t.regs.iter = 100000
  pwAddr : t.regs.pwAddr = 0
  pwLen : t.regs.pwLen = 0
  srcAddr : t.regs.srcAddr = 0
  srcLen : t.regs.srcLen = 0
  dstAddr : t.regs.dstAddr = 0
  outLen : t.outLen = 0
  errAddr : t.errAddr = 0
  key : ∀ j : Fin 8, t.regs.key[j] = 0
  iv : ∀ j : Fin 4, t.regs.iv[j] = 0
  salt : ∀ j : Fin 4, t.regs.salt[j] = 0
  sequencer : t.sequencer = .idle
  pending : t.pending = none
  hidden : t.hidden = Hidden.zero
  interrupt : t.irq = false

/-- The same value in memory at every address outside the `n` bytes from `a` on. -/
def SameOutside (m m' : Memory) (a n : Nat) : Prop :=
  ∀ x, x < a ∨ a + n ≤ x → Memory.read m' x = Memory.read m x

/-- The run of a command from `s` to `t` makes no memory access: memory stays, and with any other memory and any other
admission the run is the same. -/
def NoMemoryAccess (run : State → Host.Outcome State Fault Refusal) (s t : State) : Prop :=
  t.mem = s.mem ∧ ∀ m p, run { s with mem := m, platform := p } = .next { t with mem := m, platform := p }

/-- The value a host read of a register returns, as a number (40_command_model.md R150). -/
def State.registerValue (s : State) : Reg → Nat
  | .ctrl => s.ie.toNat
  | .status => s.status.busy.toNat + 2 * s.status.done.toNat + 4 * s.status.ovr.toNat + 256 * s.status.err.code.toNat
  | .cmd => s.cmd.toNat
  | .iter => s.regs.iter.toNat
  | .pwAddr => s.regs.pwAddr.toNat
  | .pwLen => s.regs.pwLen.toNat
  | .srcAddr => s.regs.srcAddr.toNat
  | .srcLen => s.regs.srcLen.toNat
  | .dstAddr => s.regs.dstAddr.toNat
  | .outLen => s.outLen.toNat
  | .errAddr => s.errAddr.toNat
  | .key j => s.regs.key[j].toNat
  | .iv j => s.regs.iv[j].toNat
  | .salt j => s.regs.salt[j].toNat

/-! ### The constants of SHA-256 -/

/-- The number has no divisor from 2 to itself, itself left out, and is at least 2. -/
def isPrime (n : Nat) : Bool := decide (2 ≤ n) && (List.range n).all (fun d => decide (d < 2) || n % d != 0)

/-- The first 64 primes: those up to 311 (41_kdf.md R184). -/
def firstPrimes : List Nat := (List.range 312).filter isPrime

/-! ### The tables of the spec -/

/-- The rows of 30_encoding.md R127 for NOP, KDF, ENC and DEC: the word, what it decodes to, and whether it executes. -/
def commandRowsPlain : List (Word × Instr × Bool) :=
  [(0x00000000#32, .nop, true),
    (0x00000001#32, .kdf 0#2, true), (0x00000101#32, .kdf 1#2, false), (0x00000201#32, .kdf 2#2, true),
    (0x00000301#32, .kdf 3#2, false),
    (0x00000002#32, .enc 0#2, true), (0x00000102#32, .enc 1#2, false), (0x00000202#32, .enc 2#2, true),
    (0x00000302#32, .enc 3#2, false),
    (0x00000003#32, .dec 0#2, true), (0x00000103#32, .dec 1#2, false), (0x00000203#32, .dec 2#2, true),
    (0x00000303#32, .dec 3#2, false)]

/-- The rows of 30_encoding.md R127 for SEAL, OPEN and ZEROIZE. -/
def commandRowsContainer : List (Word × Instr × Bool) :=
  [(0x00000004#32, .sealC 0#2 false, true), (0x00000104#32, .sealC 1#2 false, false),
    (0x00000204#32, .sealC 2#2 false, true), (0x00000304#32, .sealC 3#2 false, false),
    (0x00000404#32, .sealC 0#2 true, true), (0x00000504#32, .sealC 1#2 true, false),
    (0x00000604#32, .sealC 2#2 true, true), (0x00000704#32, .sealC 3#2 true, false),
    (0x00000005#32, .openC 0#2, true), (0x00000105#32, .openC 1#2, false), (0x00000205#32, .openC 2#2, true),
    (0x00000305#32, .openC 3#2, false), (0x00000006#32, .zeroize, true)]

/-- The 26 words that decode to a command (30_encoding.md R127). -/
def commandTable : List (Word × Instr × Bool) := commandRowsPlain.append commandRowsContainer

/-- The error codes each command can report (60_exceptions.md R344). -/
def possibleErrors : Instr → List (BitVec 4)
  | .nop => [0]
  | .kdf _ => [0, 4, 6, 7]
  | .enc _ => [0, 4, 6, 7]
  | .dec _ => [0, 2, 3, 4, 6, 7]
  | .sealC _ _ => [0, 1, 4, 6, 7]
  | .openC _ => [0, 1, 2, 3, 4, 6, 7]
  | .zeroize => [0]

/-- The Out region of a running command (20_memory.md R91); none when Idle or when the word is Illegal. -/
def runningOut (s : State) : Region :=
  match s.sequencer with
  | .idle => ⟨0, 0⟩
  | .running w =>
    match decode w with
    | .ok i => (regionsOf i s.operands).out
    | .error _ => ⟨0, 0⟩

end Sys2Proof.Machine
end

