-- ==== Sys2Proof/Safety.lean ====
section
/-! DEFINITION. What every state of a run satisfies, and what a safe run and the end of a run are. -/

namespace Sys2Proof.Machine

/-- The relations between the fields of the state that every step keeps. -/
structure Inv (s : State) : Prop where
  /-- DMA memory is in its canonical form (log entry 1). -/
  memCanonical : Memory.wf s.mem
  /-- BUSY = 0 exactly when the sequencer is Idle (10_state.md R45). -/
  busyIffRunning : s.status.busy = true ↔ s.sequencer ≠ .idle
  /-- Idle, `pending` is empty; running w, it is w and a snapshot that equals the live registers
  (40_command_model.md R140, R141, R142). -/
  pendingIsSnapshot : s.pending = match s.sequencer with
    | .idle => none
    | .running w => some ⟨w, s.regs⟩
  /-- While a command runs, CMD reads back its word (10_state.md R34, log entry 19). -/
  cmdIsRunning : ∀ w, s.sequencer = .running w → s.cmd = w
  /-- BUSY = 1 with DONE = 1 never occurs (10_state.md R33). -/
  notBusyAndDone : s.status.busy = true → s.status.done = false
  /-- ERR is 0 from the accept to the completion (40_command_model.md R141). -/
  busyHasNoError : s.status.busy = true → s.status.err = .ok
  /-- After an error, OUT_LEN is 0 (10_state.md R37). -/
  errorHasNoOutput : s.status.err ≠ .ok → s.outLen = 0
  /-- An idle engine holds an ERR_ADDR only after a BUS_ERROR (10_state.md R38). -/
  errAddrOnlyOnBusError : s.status.busy = false → s.status.err ≠ .busError → s.errAddr = 0
  /-- An idle engine's hidden working state is zero (10_state.md R44). -/
  hiddenZero : s.sequencer = .idle → s.hidden = Hidden.zero

/-- A run of `n` steps from `s` meets no fault of the host and no refusal. -/
def SafeFor (s : State) : Nat → Prop
  | 0 => True
  | n + 1 =>
    match step s with
    | .next t => SafeFor t n
    | .fault _ => False
    | .refused _ => False

/-- The end of a run: the host has executed its last line and BUSY = 0 (40_command_model.md R161). -/
def State.runEnded (s : State) : Bool := s.inputs.isEmpty && !s.status.busy

end Sys2Proof.Machine
end

