-- ==== Sys2Proof/Certificates/Slice0/Obligations.lean ====
section
/-! DEFINITION. The statements for the provers. The file names in the docstrings are those of spec/. -/

section

open Sys2Proof Sys2Proof.Machine

/-! ### Encoding -/

/-- One word of each command, as 30_encoding.md R120 and R121 lay out the fields OP, KSZ and GEN, decodes to it. -/
def Obligations.SampleWordsDecode : Prop :=
  decode 0x00000000 = .ok .nop ∧ decode 0x00000201 = .ok (.kdf 0b10) ∧ decode 0x00000002 = .ok (.enc 0b00) ∧
    decode 0x00000303 = .ok (.dec 0b11) ∧ decode 0x00000604 = .ok (.sealC 0b10 true) ∧
    decode 0x00000104 = .ok (.sealC 0b01 false) ∧ decode 0x00000205 = .ok (.openC 0b10) ∧
    decode 0x00000006 = .ok .zeroize ∧ decode 0x00000007 = .error .illegalCommand ∧
    decode 0x00000100 = .error .illegalCommand ∧ decode 0x00000401 = .error .illegalCommand ∧
    decode 0x00000801 = .error .illegalCommand

/-- The decoder and the encoder agree in both directions, on all 2^32 words and all commands: a word decodes to a command
exactly when it is that command's encoding, so no bit of a command word is dropped (30_encoding.md R120, R125). -/
def Obligations.DecodeEncodeAgree : Prop :=
  (∀ i, decode (encode i) = .ok i) ∧ ∀ w i, decode w = .ok i → w = encode i

/-- 30_encoding.md R127: the words that decode to a command are the 26 of its table; 14 execute, each normally in some
state; 12 have a reserved KSZ and fail with PRECONDITION_VIOLATION in every state. Every other word is Illegal. -/
def Obligations.TwentySixCommandWords : Prop :=
  (∀ w i, decode w = .ok i ↔ ∃ b, (w, i, b) ∈ commandTable) ∧
    (∀ w, (∀ i b, (w, i, b) ∉ commandTable) → decode w = .error .illegalCommand) ∧
    (commandTable.map Prod.fst).Nodup ∧ commandTable.length = 26 ∧
    (commandTable.filter (fun row => row.2.2)).length = 14 ∧
    (∀ w i, (w, i, true) ∈ commandTable → ∃ s t, exec i s = .next t ∧ t.status.err = .ok) ∧
    (∀ w i, (w, i, false) ∈ commandTable → ∀ s, ∃ t, exec i s = .next t ∧ t.status.err = .preconditionViolation)

/-- Which words are Illegal (the list of 30_encoding.md R126), and that each is accepted like any command word. -/
def Obligations.IllegalEncodings : Prop :=
  (∀ w, decode w = .error .illegalCommand ↔
    rsvField w ≠ 0 ∨ 7 ≤ (opField w).toNat ∨
      ((opField w = 0x00 ∨ opField w = 0x06) ∧ (kszField w ≠ 0 ∨ genField w = true)) ∨
      ((opField w = 0x01 ∨ opField w = 0x02 ∨ opField w = 0x03 ∨ opField w = 0x05) ∧ genField w = true)) ∧
    ∀ s rest w, s.inputs = .busWrite (windowBase s.platform + 0x08) 4 w :: rest → s.status.busy = false →
      ∃ t, step s = .next t ∧ t.sequencer = .running w ∧ t.cmd = w

/-- 60_exceptions.md R346: an Illegal word completes with ERR = 5, OUT_LEN = 0 and ERR_ADDR = 0; no other register
changes, and no memory access is made, so the completion is the same whatever memory and admission are. -/
def Obligations.IllegalCommandCompletes : Prop :=
  ∀ (s : State) (w : Word), s.sequencer = .running w → s.cmd = w → decode w = .error .illegalCommand →
    ∃ t, engineTurn s = .next t ∧ CompletedWith s t .illegalCommand ∧ t.status.err.code = 5 ∧ t.outLen = 0 ∧
      t.errAddr = 0 ∧ t.cmd = w ∧ t.regs = s.regs ∧ t.drawCount = s.drawCount ∧ NoMemoryAccess engineTurn s t

/-- 30_encoding.md R131: the five pseudo-instructions, what they expand to, and their words. -/
def Obligations.PseudoInstructionWords : Prop :=
  (Mnemonic.kdfDefault.instr = (Mnemonic.kdf .k32).instr ∧ Mnemonic.kdfDefault.word = 0x00000201) ∧
    (Mnemonic.encDefault.instr = (Mnemonic.enc .k32).instr ∧ Mnemonic.encDefault.word = 0x00000202) ∧
    (Mnemonic.decDefault.instr = (Mnemonic.dec .k32).instr ∧ Mnemonic.decDefault.word = 0x00000203) ∧
    (Mnemonic.sealDefault.instr = (Mnemonic.sealC .k32 true).instr ∧ Mnemonic.sealDefault.word = 0x00000604) ∧
    (Mnemonic.openDefault.instr = (Mnemonic.openC .k32).instr ∧ Mnemonic.openDefault.word = 0x00000205)

/-- 30_encoding.md R122: KSZ = 0b00 is a 16-byte key and AES with 10 rounds, KSZ = 0b10 a 32-byte key and 14 rounds;
the reserved values decode as the command their OP names and fail at execution with PRECONDITION_VIOLATION. -/
def Obligations.KszSelectsKeyLength : Prop :=
  (∀ ksz : BitVec 2, ksz = 0b00 ∨ ksz = 0b10 → klen ksz = 16 * ((ksz.getLsbD 1).toNat + 1)) ∧
    klen 0b00 = 16 ∧ klen 0b10 = 32 ∧
    (∀ key : List Byte, key.length = 16 → (expandKey key).middle.length + 1 = 10) ∧
    (∀ key : List Byte, key.length = 32 → (expandKey key).middle.length + 1 = 14) ∧
    ∀ (ksz : BitVec 2) (gen : Bool) (i : Instr), ksz = 0b01 ∨ ksz = 0b11 →
      i = .kdf ksz ∨ i = .enc ksz ∨ i = .dec ksz ∨ i = .sealC ksz gen ∨ i = .openC ksz →
      decode (encode i) = .ok i ∧ ∀ s, ∃ t, exec i s = .next t ∧ t.status.err = .preconditionViolation

/-! ### The register window -/

/-- The 27 registers and their offsets (the map of 10_state.md R30); the other 37 word offsets of the window hold none. -/
def Obligations.RegisterOffsets : Prop :=
  (regOffset .ctrl = 0x00 ∧ regOffset .status = 0x04 ∧ regOffset .cmd = 0x08 ∧ regOffset .iter = 0x0C ∧
    regOffset .pwAddr = 0x10 ∧ regOffset .pwLen = 0x14 ∧ regOffset .srcAddr = 0x18 ∧ regOffset .srcLen = 0x1C ∧
    regOffset .dstAddr = 0x20 ∧ regOffset .outLen = 0x24 ∧ regOffset .errAddr = 0x28) ∧
    (∀ j : Fin 8, regOffset (.key j) = 0x40 + 4 * j.val) ∧ (∀ j : Fin 4, regOffset (.iv j) = 0x60 + 4 * j.val) ∧
    (∀ j : Fin 4, regOffset (.salt j) = 0x70 + 4 * j.val) ∧
    (∀ off r, regAt off = some r ↔ regOffset r = off) ∧
    ((List.range 64).filter (fun k => (regAt (4 * k)).isNone)).length = 37

/-- A host read returns the register's value (40_command_model.md R150), 0 at a reserved offset, and changes no state of
ACE (20_memory.md R86). The value goes to the model's list of results (log entry 13). -/
def Obligations.HostReadReturnsRegister : Prop :=
  (∀ s rest r, s.inputs = .busRead (windowBase s.platform + regOffset r) 4 :: rest →
    ∃ v : Word, v.toNat = s.registerValue r ∧
      step s = .next { s with inputs := rest, results := .word v :: s.results }) ∧
    ∀ s rest off, off % 4 = 0 → off ≤ 0xFC → (∀ r, regOffset r ≠ off) →
      s.inputs = .busRead (windowBase s.platform + off) 4 :: rest →
      step s = .next { s with inputs := rest, results := .word 0 :: s.results }

/-- A host access of the window is a 32-bit access at BASE + off with off a multiple of 4 from 0 to 0xFC, and is answered;
any other is a fault of the host (20_memory.md R84). That a host bus access outside the 256 bytes of the window is this
fault too is the model's reading (log entry 11). -/
def Obligations.MmioBadAccessExactly : Prop :=
  ∀ s rest addr size d, s.inputs = .busRead addr size :: rest ∨ s.inputs = .busWrite addr size d :: rest →
    ((size = 4 ∧ ∃ off, addr = windowBase s.platform + off ∧ off % 4 = 0 ∧ off ≤ 0xFC) → ∃ t, step s = .next t) ∧
    (¬(size = 4 ∧ ∃ off, addr = windowBase s.platform + off ∧ off % 4 = 0 ∧ off ≤ 0xFC) →
      step s = .fault .mmioBadAccess)

/-- 40_command_model.md R151: a host write to CTRL at any time. Bit 1 set: the soft reset, after which IE is 0; else
bit 0 goes to IE and nothing else changes. -/
def Obligations.CtrlWrite : Prop :=
  ∀ s rest d, s.inputs = .busWrite (windowBase s.platform + 0x00) 4 d :: rest →
    (d.getLsbD 1 = true → ∃ t, step s = .next t ∧ t = State.resetEngine { s with inputs := rest } ∧ AceReset t) ∧
    (d.getLsbD 1 = false → step s = .next { s with inputs := rest, ie := d.getLsbD 0 })

/-- 40_command_model.md R152: a host write to STATUS at any time clears DONE where bit 1 is 1 and OVR where bit 2 is 1;
BUSY, ERR and everything else stay. -/
def Obligations.StatusWriteOneToClear : Prop :=
  ∀ s rest d, s.inputs = .busWrite (windowBase s.platform + 0x04) 4 d :: rest →
    step s = .next { s with
      inputs := rest
      status := {
        busy := s.status.busy
        done := if d.getLsbD 1 = true then false else s.status.done
        ovr := if d.getLsbD 2 = true then false else s.status.ovr
        err := s.status.err } }

/-- 40_command_model.md R141 and R153: a host write of any word to CMD while BUSY = 0 accepts it, as one step; OVR,
CTRL, OUT_LEN and ERR_ADDR stay, and the interrupt output falls. While BUSY = 1 the write is dropped. -/
def Obligations.CmdWriteAccepts : Prop :=
  ∀ s rest w, s.inputs = .busWrite (windowBase s.platform + 0x08) 4 w :: rest →
    (s.status.busy = false → ∃ t, step s = .next t ∧ t.irq = false ∧ t = { s with
      inputs := rest
      cmd := w
      status := { busy := true, done := false, ovr := s.status.ovr, err := .ok }
      sequencer := .running w
      pending := some ⟨w, s.regs⟩ }) ∧
    (s.status.busy = true →
      step s = .next { s with inputs := rest, status := { s.status with ovr := true } })

/-- 40_command_model.md R154: while BUSY = 1, a host write to CMD or to an operand register changes nothing but OVR. -/
def Obligations.WriteWhileBusyDropped : Prop :=
  ∀ s rest r d, r ≠ .ctrl → r ≠ .status → r ≠ .outLen → r ≠ .errAddr → s.status.busy = true →
    s.inputs = .busWrite (windowBase s.platform + regOffset r) 4 d :: rest →
    step s = .next { s with inputs := rest, status := { s.status with ovr := true } }

/-- 40_command_model.md R155: while BUSY = 0, a host write to an operand register stores all 32 bits, which read back;
no other register and nothing else changes. -/
def Obligations.WriteWhileIdleStored : Prop :=
  ∀ s rest r d, r ≠ .ctrl → r ≠ .status → r ≠ .cmd → r ≠ .outLen → r ≠ .errAddr → s.status.busy = false →
    s.inputs = .busWrite (windowBase s.platform + regOffset r) 4 d :: rest →
    ∃ t, step s = .next t ∧ t.registerValue r = d.toNat ∧ (∀ q, q ≠ r → t.registerValue q = s.registerValue q) ∧
      t = { s with inputs := rest, regs := t.regs }

/-- 40_command_model.md R156: a host write to OUT_LEN, ERR_ADDR or a reserved offset is ignored at any time. -/
def Obligations.ReadOnlyWriteIgnored : Prop :=
  ∀ s rest off d,
    off = 0x24 ∨ off = 0x28 ∨ (off % 4 = 0 ∧ ((0x2C ≤ off ∧ off ≤ 0x3C) ∨ (0x80 ≤ off ∧ off ≤ 0xFC))) →
    s.inputs = .busWrite (windowBase s.platform + off) 4 d :: rest → step s = .next { s with inputs := rest }

/-- The byte-string views of the registers (10_state.md R42): KeyBytes(16) and KeyBytes(32), IvBytes and SaltBytes,
byte by byte, and the rule's example. -/
def Obligations.RegisterByteViews : Prop :=
  (∀ (o : OperandRegs) (n : Nat), n = 16 ∨ n = 32 → (o.keyBytes n).length = n ∧
    ∀ (j : Nat) (h : j / 4 < 8), j < n → (o.keyBytes n)[j]? = some ((o.key[j / 4]).extractLsb' (8 * (j % 4)) 8)) ∧
    (∀ o : OperandRegs, o.ivBytes.length = 16 ∧
      ∀ (j : Nat) (h : j / 4 < 4), o.ivBytes[j]? = some ((o.iv[j / 4]).extractLsb' (8 * (j % 4)) 8)) ∧
    (∀ o : OperandRegs, o.saltBytes.length = 16 ∧
      ∀ (j : Nat) (h : j / 4 < 4), o.saltBytes[j]? = some ((o.salt[j / 4]).extractLsb' (8 * (j % 4)) 8)) ∧
    ∀ o : OperandRegs, o.key[0] = 0x03020100 → o.key[1] = 0x07060504 → o.key[2] = 0x0B0A0908 → o.key[3] = 0x0F0E0D0C →
      o.keyBytes 16 = [0x00, 0x01, 0x02, 0x03, 0x04, 0x05, 0x06, 0x07, 0x08, 0x09, 0x0a, 0x0b, 0x0c, 0x0d, 0x0e, 0x0f]

/-- The interrupt output is CTRL.IE AND STATUS.DONE (60_exceptions.md R350), and a step raises it only by a completion
with IE = 1, or by a host write to CTRL that sets IE while DONE = 1. -/
def Obligations.InterruptRises : Prop :=
  (∀ s : State, s.irq = (s.ie && s.status.done)) ∧
    ∀ s t, step s = .next t → s.irq = false → t.irq = true →
      (s.ie = true ∧ s.sequencer ≠ .idle ∧ t.sequencer = .idle) ∨
      (s.status.done = true ∧ s.ie = false ∧
        ∃ d rest, s.inputs = .busWrite (windowBase s.platform + 0x00) 4 d :: rest ∧ d.getLsbD 1 = false ∧
          d.getLsbD 0 = true)

/-! ### Reset -/

/-- 10_state.md R48, 70_reset_and_hazards.md R381 and R383: after power-on, after the reset input, and after a write of
CTRL bit 1, at any time, every register and all hidden state have their reset values; memory is not changed when ACE is
Idle, and otherwise only in the Out region of the command cut short. -/
def Obligations.EveryResetGivesResetValues : Prop :=
  AceReset State.reset ∧
    ∀ s rest, (s.inputs = .powerOnReset :: rest ∨
        ∃ d, d.getLsbD 1 = true ∧ s.inputs = .busWrite (windowBase s.platform + 0x00) 4 d :: rest) →
      ∃ t, step s = .next t ∧ AceReset t ∧ (s.sequencer = .idle → t.mem = s.mem) ∧
        SameOutside s.mem t.mem (runningOut s).base (runningOut s).size ∧
        t.platform = s.platform ∧ t.inputs = rest ∧ t.results = s.results

/-- A soft reset at any time, as one step (70_reset_and_hazards.md R382). A running command is abandoned with no
completion, DONE and ERR 0; every register is at its reset value, the hidden state zero, the sequencer Idle and `pending`
empty; the bytes outside its Out region are unchanged. The model's choices: every byte of Out below 2^32 is a draw of its
own, the next ones of the counter (log entry 3), also when a check of the command would have failed (log entry 10). -/
def Obligations.SoftResetAbandonsCommand : Prop :=
  ∀ s rest d, s.inputs = .busWrite (windowBase s.platform + 0x00) 4 d :: rest → d.getLsbD 1 = true →
    ∃ t, step s = .next t ∧ AceReset t ∧ t.status.done = false ∧ t.status.err = .ok ∧
      SameOutside s.mem t.mem (runningOut s).base (runningOut s).size ∧
      (∀ k, k < (runningOut s).size → (runningOut s).base + k < 2 ^ 32 →
        Memory.read t.mem ((runningOut s).base + k) = Config.drawByte (s.drawCount + k)) ∧
      s.drawCount ≤ t.drawCount ∧
      ∀ k, k < (runningOut s).size → (runningOut s).base + k < 2 ^ 32 → s.drawCount + k < t.drawCount

/-! ### What each command does -/

/-- 44_housekeeping.md R320: NOP completes in every state with ERR 0, OUT_LEN 0 and ERR_ADDR 0, and no other effect. -/
def Obligations.NopHasNoEffect : Prop :=
  ∀ s, ∃ t, exec .nop s = .next t ∧ CompletedWith s t .ok ∧ t.outLen = 0 ∧ t.errAddr = 0 ∧ t.regs = s.regs ∧
    t.mem = s.mem ∧ t.drawCount = s.drawCount

/-- 44_housekeeping.md R322: ZEROIZE completes in every state with KEY, IV and SALT zero; ITER, the address and length
registers and memory stay. -/
def Obligations.ZeroizeClearsKeys : Prop :=
  ∀ s, ∃ t, exec .zeroize s = .next t ∧ CompletedWith s t .ok ∧ t.outLen = 0 ∧ t.errAddr = 0 ∧
    (∀ j : Fin 8, t.regs.key[j] = 0) ∧ (∀ j : Fin 4, t.regs.iv[j] = 0) ∧ (∀ j : Fin 4, t.regs.salt[j] = 0) ∧
    t.regs = { s.regs with key := t.regs.key, iv := t.regs.iv, salt := t.regs.salt } ∧
    t.mem = s.mem ∧ t.drawCount = s.drawCount

/-- KDF (41_kdf.md R200, R210), in every state in which no check fails: KEY holds PBKDF2 of the password in memory,
the salt registers and ITER, a 16-byte key leaving KEY4-7 zero; no other operand register and no memory changes. -/
def Obligations.KdfDerivesKey : Prop :=
  ∀ ksz s, KdfRuns ksz s → ∃ t, exec (.kdf ksz) s = .next t ∧ CompletedWith s t .ok ∧ t.outLen = 0 ∧ t.errAddr = 0 ∧
    t.regs.keyBytes (klen ksz) = derive s.passwordBytes s.operands.saltBytes s.operands.iter.toNat (klen ksz) ∧
    (klen ksz = 16 → ∀ j : Fin 8, 4 ≤ j.val → t.regs.key[j] = 0) ∧
    t.regs = { s.regs with key := t.regs.key } ∧ t.mem = s.mem ∧ t.drawCount = s.drawCount

/-- ENC (42_cipher.md R260), in every state in which no check fails: the 16 * (L div 16 + 1) bytes at DST_ADDR are the
CBC encryption of the input as it stood before the command, in place or not; no other byte of memory and no operand
register changes. OUT_LEN is their number, where a 32-bit register can hold it (log entry 4). -/
def Obligations.EncEncryptsBuffer : Prop :=
  ∀ ksz s, EncRuns ksz s → ∃ t, exec (.enc ksz) s = .next t ∧ CompletedWith s t .ok ∧ t.errAddr = 0 ∧ t.regs = s.regs ∧
    Memory.readBytes t.mem s.operands.dstAddr.toNat (16 * (s.operands.srcLen.toNat / 16 + 1)) =
      encrypt (s.keyOperand ksz) s.operands.ivBytes s.inputBytes ∧
    SameOutside s.mem t.mem s.operands.dstAddr.toNat (16 * (s.operands.srcLen.toNat / 16 + 1)) ∧
    (16 * (s.operands.srcLen.toNat / 16 + 1) < 2 ^ 32 →
      t.outLen.toNat = 16 * (s.operands.srcLen.toNat / 16 + 1) ∧ t.drawCount = s.drawCount)

/-- DEC (42_cipher.md R270), in every state in which no check fails and the padding is good: the bytes at DST_ADDR are
the plaintext of the input as it stood before the command; no other byte of memory, so none of Out past OUT_LEN, and no
operand register changes. -/
def Obligations.DecDecryptsBuffer : Prop :=
  ∀ ksz s x, DecRuns ksz s → decrypt (s.keyOperand ksz) s.operands.ivBytes s.inputBytes = some x →
    ∃ t, exec (.dec ksz) s = .next t ∧ CompletedWith s t .ok ∧ t.errAddr = 0 ∧ t.regs = s.regs ∧
      t.outLen.toNat = x.length ∧ Memory.readBytes t.mem s.operands.dstAddr.toNat x.length = x ∧
      SameOutside s.mem t.mem s.operands.dstAddr.toNat x.length ∧ t.drawCount = s.drawCount

/-- 42_cipher.md R272: on bad padding DEC completes with INTEGRITY_OR_PASSWORD and OUT_LEN 0; memory holds the plaintext
of all blocks but the last at DST_ADDR, and every other byte of it is unchanged. -/
def Obligations.DecBadPadding : Prop :=
  ∀ ksz s, DecRuns ksz s → decrypt (s.keyOperand ksz) s.operands.ivBytes s.inputBytes = none →
    ∃ t, exec (.dec ksz) s = .next t ∧ CompletedWith s t .integrityOrPassword ∧ t.errAddr = 0 ∧ t.regs = s.regs ∧
      t.outLen = 0 ∧
      Memory.readBytes t.mem s.operands.dstAddr.toNat (s.operands.srcLen.toNat - 16) =
        (decryptPadded (s.keyOperand ksz) s.operands.ivBytes s.inputBytes).take (s.operands.srcLen.toNat - 16) ∧
      SameOutside s.mem t.mem s.operands.dstAddr.toNat (s.operands.srcLen.toNat - 16) ∧ t.drawCount = s.drawCount

/-- SEAL (43_container.md R290, R292), in every state in which no check fails: the bytes at DST_ADDR are the container of
the input as it stood before the command. With GEN = 0 the salt and IV are the registers'; with GEN = 1 they are the two
halves of one draw of 32 bytes (log entry 3). No other byte of memory and no operand register changes. -/
def Obligations.SealWritesContainer : Prop :=
  ∀ ksz gen s, SealRuns ksz s → ∃ t salt iv, exec (.sealC ksz gen) s = .next t ∧ CompletedWith s t .ok ∧ t.errAddr = 0 ∧
    t.regs = s.regs ∧ salt.length = 16 ∧ iv.length = 16 ∧
    (gen = false → salt = s.operands.saltBytes ∧ iv = s.operands.ivBytes) ∧
    (gen = true → ∀ k, k < 32 → (salt ++ iv)[k]? = some (Config.drawByte (s.drawCount + k))) ∧
    Memory.readBytes t.mem s.operands.dstAddr.toNat (32 + 16 * (s.operands.srcLen.toNat / 16 + 1)) =
      salt ++ iv ++
        encrypt (derive s.passwordBytes salt s.operands.iter.toNat (klen ksz)) iv s.inputBytes ∧
    SameOutside s.mem t.mem s.operands.dstAddr.toNat (32 + 16 * (s.operands.srcLen.toNat / 16 + 1)) ∧
    (32 + 16 * (s.operands.srcLen.toNat / 16 + 1) < 2 ^ 32 →
      t.outLen.toNat = 32 + 16 * (s.operands.srcLen.toNat / 16 + 1) ∧
      t.drawCount = s.drawCount + (if gen then 32 else 0))

/-- OPEN (43_container.md R300), in every state in which no check fails and the padding is good: the bytes at DST_ADDR
are the plaintext of the container as it stood before the command, under the key derived from the password in memory and
the container's salt; no other byte of memory and no operand register changes. -/
def Obligations.OpenDecryptsContainer : Prop :=
  ∀ ksz s x, OpenRuns ksz s →
    decrypt (derive s.passwordBytes (s.inputBytes.take 16) s.operands.iter.toNat (klen ksz))
      ((s.inputBytes.drop 16).take 16) (s.inputBytes.drop 32) = some x →
    ∃ t, exec (.openC ksz) s = .next t ∧ CompletedWith s t .ok ∧ t.errAddr = 0 ∧ t.regs = s.regs ∧
      t.outLen.toNat = x.length ∧ Memory.readBytes t.mem s.operands.dstAddr.toNat x.length = x ∧
      SameOutside s.mem t.mem s.operands.dstAddr.toNat x.length ∧ t.drawCount = s.drawCount

/-- OPEN on bad padding (43_container.md R300, 42_cipher.md R272): INTEGRITY_OR_PASSWORD and OUT_LEN 0; the plaintext of
all blocks but the last is left at DST_ADDR, every other byte of memory is unchanged, and no operand register changes. -/
def Obligations.OpenBadPadding : Prop :=
  ∀ ksz s, OpenRuns ksz s →
    decrypt (derive s.passwordBytes (s.inputBytes.take 16) s.operands.iter.toNat (klen ksz))
      ((s.inputBytes.drop 16).take 16) (s.inputBytes.drop 32) = none →
    ∃ t, exec (.openC ksz) s = .next t ∧ CompletedWith s t .integrityOrPassword ∧ t.errAddr = 0 ∧ t.regs = s.regs ∧
      t.outLen = 0 ∧
      Memory.readBytes t.mem s.operands.dstAddr.toNat (s.operands.srcLen.toNat - 48) =
        (decryptPadded (derive s.passwordBytes (s.inputBytes.take 16) s.operands.iter.toNat (klen ksz))
          ((s.inputBytes.drop 16).take 16) (s.inputBytes.drop 32)).take (s.operands.srcLen.toNat - 48) ∧
      SameOutside s.mem t.mem s.operands.dstAddr.toNat (s.operands.srcLen.toNat - 48) ∧ t.drawCount = s.drawCount

/-- Every command completes in every state, and the frame common to all: STATUS, the hidden state and what is no state of
ACE as every completion leaves them (40_command_model.md R142); no address or length register and no ITER written
(10_state.md R36); KEY written by KDF and ZEROIZE alone, IV and SALT by ZEROIZE alone (R39, R40, R41); memory outside
the command's Out unchanged. -/
def Obligations.EveryCommandCompletes : Prop :=
  ∀ i s, ∃ t, exec i s = .next t ∧ CompletedWith s t t.status.err ∧
    t.regs = { s.regs with key := t.regs.key, iv := t.regs.iv, salt := t.regs.salt } ∧
    ((∀ ksz, i ≠ .kdf ksz) → i ≠ .zeroize → t.regs.key = s.regs.key) ∧
    (i ≠ .zeroize → t.regs.iv = s.regs.iv ∧ t.regs.salt = s.regs.salt) ∧
    SameOutside s.mem t.mem (regionsOf i s.operands).out.base (regionsOf i s.operands).out.size ∧
    s.drawCount ≤ t.drawCount

/-- 43_container.md R293: SEAL and OPEN, on every path, leave the hidden state zero and write no KEY, SALT or IV register,
so a SEAL with GEN = 1 leaves the salt and IV it drew nowhere but in Out. -/
def Obligations.SealAndOpenKeepKeysHidden : Prop :=
  ∀ ksz gen i s, i = .sealC ksz gen ∨ i = .openC ksz → ∃ t, exec i s = .next t ∧ t.hidden = Hidden.zero ∧
    t.regs.key = s.regs.key ∧ t.regs.salt = s.regs.salt ∧ t.regs.iv = s.regs.iv ∧ t.regs = s.regs ∧
    SameOutside s.mem t.mem (regionsOf i s.operands).out.base (regionsOf i s.operands).out.size

/-! ### Errors -/

/-- 60_exceptions.md R345: a command reports the first error that applies, in the order of the rule; every check up to
REGION_ERROR is made before any memory access, so such a completion is the same whatever memory and admission are.
`FirstError i s e` says that e is that first error, or `ok` when none
applies, of the state alone. -/
def Obligations.FirstErrorIsReported : Prop :=
  (∀ s w, s.sequencer = .running w → decode w = .error .illegalCommand →
    ∃ t, engineTurn s = .next t ∧ t.status.err = .illegalCommand ∧ NoMemoryAccess engineTurn s t) ∧
    ∀ i s, ∃ t, exec i s = .next t ∧ (∀ e, t.status.err = e ↔ FirstError i s e) ∧
      (t.status.err = .preconditionViolation ∨ t.status.err = .emptyPassword ∨ t.status.err = .malformedContainer ∨
        t.status.err = .regionError → NoMemoryAccess (exec i) s t)

/-- The error codes each command can report, and no others (60_exceptions.md R344); an Illegal word reports 5. -/
def Obligations.ErrorsPerCommand : Prop :=
  (∀ i s, ∃ t, exec i s = .next t ∧ t.status.err.code ∈ possibleErrors i) ∧
    ∀ s w, s.sequencer = .running w → decode w = .error .illegalCommand →
      ∃ t, engineTurn s = .next t ∧ t.status.err.code = 5

/-- What a command that ends with an error leaves (40_command_model.md R144, 20_memory.md R97): no operand register
written, OUT_LEN 0, ERR_ADDR 0 but for BUS_ERROR, BUSY 0; memory unchanged but for BUS_ERROR and INTEGRITY_OR_PASSWORD,
and then unchanged outside Out. -/
def Obligations.ErrorResult : Prop :=
  ∀ i s, ∃ t, exec i s = .next t ∧ (t.status.err ≠ .ok →
    t.regs = s.regs ∧ t.outLen = 0 ∧ t.status.busy = false ∧ (t.status.err ≠ .busError → t.errAddr = 0) ∧
    (t.status.err ≠ .busError → t.status.err ≠ .integrityOrPassword → t.mem = s.mem) ∧
    SameOutside s.mem t.mem (regionsOf i s.operands).out.base (regionsOf i s.operands).out.size)

/-- When no earlier check fails, a command of which some byte access is not admitted ends with BUS_ERROR, ERR_ADDR the
address of the first such access in its order (60_exceptions.md R343, 20_memory.md R96); no operand register is written,
the hidden state is zero, the bytes outside Out are unchanged (R97). The model's choices: every byte of Out is a draw of
its own, with an index of the counter that this command has passed (log entry 3), also where the byte is not admitted for
writing (log entry 20). -/
def Obligations.BusErrorAtFirstRefusal : Prop :=
  ∀ i s, FirstError i s .busError → ∃ t a, exec i s = .next t ∧
    (accessOrder i s.operands (keptBytes (heldBlock i s))).find? (fun x => !x.admitted s.platform) = some a ∧
    CompletedWith s t .busError ∧ t.errAddr.toNat = a.addr ∧ t.outLen = 0 ∧ t.regs = s.regs ∧
    SameOutside s.mem t.mem (regionsOf i s.operands).out.base (regionsOf i s.operands).out.size ∧
    ∃ c, s.drawCount ≤ c ∧ c + (regionsOf i s.operands).out.size ≤ t.drawCount ∧
      ∀ k, k < (regionsOf i s.operands).out.size →
        Memory.read t.mem ((regionsOf i s.operands).out.base + k) = Config.drawByte (c + k)

/-- 43_container.md R291: SEAL and OPEN raise EMPTY_PASSWORD exactly when PW_LEN = 0, once the precondition checks have
passed, whatever the container length and the regions are. 43_container.md R301 and 42_cipher.md R271: the length checks
of OPEN (all three conditions) and of DEC (the last two, on the ciphertext alone), made before the region check and before
any memory access. -/
def Obligations.PasswordAndLengthChecks : Prop :=
  (∀ ksz gen i s, i = .sealC ksz gen ∨ i = .openC ksz → ksz = 0b00 ∨ ksz = 0b10 → s.operands.iter ≠ 0 →
    ∃ t, exec i s = .next t ∧ (t.status.err = .emptyPassword ↔ s.operands.pwLen = 0)) ∧
    (∀ ksz s, ksz = 0b00 ∨ ksz = 0b10 → s.operands.iter ≠ 0 → s.operands.pwLen ≠ 0 →
      ∃ t, exec (.openC ksz) s = .next t ∧
        (t.status.err = .malformedContainer ↔
          s.operands.srcLen.toNat < 32 ∨ s.operands.srcLen.toNat - 32 = 0 ∨ (s.operands.srcLen.toNat - 32) % 16 ≠ 0) ∧
        (t.status.err = .malformedContainer → NoMemoryAccess (exec (.openC ksz)) s t)) ∧
    ∀ ksz s, ksz = 0b00 ∨ ksz = 0b10 →
      ∃ t, exec (.dec ksz) s = .next t ∧
        (t.status.err = .malformedContainer ↔ s.operands.srcLen.toNat = 0 ∨ s.operands.srcLen.toNat % 16 ≠ 0) ∧
        (t.status.err = .malformedContainer → NoMemoryAccess (exec (.dec ksz)) s t)

/-- Each command's regions (20_memory.md R91), with L = SRC_LEN and exact integers. -/
def Obligations.RegionsOfCommands : Prop :=
  ∀ (o : OperandRegs) (ksz : BitVec 2) (gen : Bool),
    let pw : Region := ⟨o.pwAddr.toNat, o.pwLen.toNat⟩
    let inp : Region := ⟨o.srcAddr.toNat, o.srcLen.toNat⟩
    let none : Region := ⟨0, 0⟩
    let enc := 16 * (o.srcLen.toNat / 16 + 1)
    ((regionsOf .nop o).pw = none ∧ (regionsOf .nop o).inp = none ∧ (regionsOf .nop o).out = none) ∧
    ((regionsOf .zeroize o).pw = none ∧ (regionsOf .zeroize o).inp = none ∧ (regionsOf .zeroize o).out = none) ∧
    ((regionsOf (.kdf ksz) o).pw = pw ∧ (regionsOf (.kdf ksz) o).inp = none ∧ (regionsOf (.kdf ksz) o).out = none) ∧
    ((regionsOf (.enc ksz) o).pw = none ∧ (regionsOf (.enc ksz) o).inp = inp ∧
      (regionsOf (.enc ksz) o).out = ⟨o.dstAddr.toNat, enc⟩ ∧
      ((regionsOf (.enc ksz) o).inPlace = true ↔ o.dstAddr.toNat = o.srcAddr.toNat)) ∧
    ((regionsOf (.dec ksz) o).pw = none ∧ (regionsOf (.dec ksz) o).inp = inp ∧
      (regionsOf (.dec ksz) o).out = ⟨o.dstAddr.toNat, o.srcLen.toNat⟩ ∧
      ((regionsOf (.dec ksz) o).inPlace = true ↔ o.dstAddr.toNat = o.srcAddr.toNat)) ∧
    ((regionsOf (.sealC ksz gen) o).pw = pw ∧ (regionsOf (.sealC ksz gen) o).inp = inp ∧
      (regionsOf (.sealC ksz gen) o).out = ⟨o.dstAddr.toNat, 32 + enc⟩ ∧
      ((regionsOf (.sealC ksz gen) o).inPlace = true ↔ o.dstAddr.toNat + 32 = o.srcAddr.toNat)) ∧
    (48 ≤ o.srcLen.toNat → (regionsOf (.openC ksz) o).pw = pw ∧ (regionsOf (.openC ksz) o).inp = inp ∧
      (regionsOf (.openC ksz) o).out = ⟨o.dstAddr.toNat, o.srcLen.toNat - 32⟩ ∧
      ((regionsOf (.openC ksz) o).inPlace = true ↔ o.dstAddr.toNat = o.srcAddr.toNat + 32))

/-- 20_memory.md R93 with the regions of R90 and R91: once the checks before it have passed, a command raises
REGION_ERROR exactly when a region passes 2^32, or when In and Out share an address other than in the legal in-place
form; no memory is then read or written: the completion is the same whatever memory and admission are. -/
def Obligations.RegionCheckRule : Prop :=
  ∀ i s, passesRegisterChecks i s.operands →
    ∃ t, exec i s = .next t ∧
      (t.status.err = .regionError ↔
        (∃ r, (r = (regionsOf i s.operands).pw ∨ r = (regionsOf i s.operands).inp ∨ r = (regionsOf i s.operands).out) ∧
          0 < r.size ∧ 2 ^ 32 < r.base + r.size) ∨
        ((∃ a, (regionsOf i s.operands).inp.base ≤ a ∧
            a < (regionsOf i s.operands).inp.base + (regionsOf i s.operands).inp.size ∧
            (regionsOf i s.operands).out.base ≤ a ∧
            a < (regionsOf i s.operands).out.base + (regionsOf i s.operands).out.size) ∧
          (regionsOf i s.operands).inPlace = false)) ∧
      (t.status.err = .regionError → NoMemoryAccess (exec i) s t)

/-! ### The algorithms -/

/-- SHA-256 whole, rule by rule (41_kdf.md R181 to R187): the padding, with the least number z of zero bytes, and the split
into blocks; the parsing of a block, its message schedule as 16 words and the recurrence; the bytes of the digest; the six
functions, bit by bit; the constants, as the first 32 bits of the fractional parts of the cube and square roots of the
first primes; the compression, round by round; the hash, block by block; and the example of R187. -/
def Obligations.ShaPaddingAndSchedule : Prop :=
  (∀ m : List Byte, ∃ z, (m.length + 1 + z) % 64 = 56 ∧ (∀ y, (m.length + 1 + y) % 64 = 56 → z ≤ y) ∧
    m ++ shaPadding m.length = m ++ [0x80] ++ List.replicate z 0x00 ++ be64 (8 * m.length) ∧
    (∀ k, k < 8 → (be64 (8 * m.length))[k]? = some (BitVec.ofNat 8 (8 * m.length / 2 ^ (8 * (7 - k))))) ∧
    (m ++ shaPadding m.length).length % 64 = 0 ∧
    (∀ b ∈ shaBlocks ((m ++ shaPadding m.length).length / 64) (m ++ shaPadding m.length), b.length = 64) ∧
    (shaBlocks ((m ++ shaPadding m.length).length / 64) (m ++ shaPadding m.length)).flatten =
      m ++ shaPadding m.length) ∧
    (∀ block : List Byte, block.length = 64 → (shaSchedule block).length = 64 ∧
      (∀ t, t < 16 → (shaSchedule block)[t]? = some (block.getD (4 * t) 0 ++ block.getD (4 * t + 1) 0 ++
        block.getD (4 * t + 2) 0 ++ block.getD (4 * t + 3) 0 : BitVec 32)) ∧
      ∀ t, 16 ≤ t → t < 64 → (shaSchedule block)[t]? = some (shaSigma1 ((shaSchedule block).getD (t - 2) 0) +
        (shaSchedule block).getD (t - 7) 0 + shaSigma0 ((shaSchedule block).getD (t - 15) 0) +
        (shaSchedule block).getD (t - 16) 0)) ∧
    (∀ x : ShaState, (shaDigest x).length = 32 ∧ ∀ j k, j < 8 → k < 4 → (shaDigest x)[4 * j + k]? =
      some (BitVec.ofNat 8 (([x.a, x.b, x.c, x.d, x.e, x.f, x.g, x.h].getD j 0).toNat / 2 ^ (8 * (3 - k))))) ∧
    (∀ (x y z : Word) (i : Nat), i < 32 →
      (shaCh x y z).getLsbD i = ((x.getLsbD i && y.getLsbD i) ^^ (!x.getLsbD i && z.getLsbD i)) ∧
      (shaMaj x y z).getLsbD i =
        ((x.getLsbD i && y.getLsbD i) ^^ (x.getLsbD i && z.getLsbD i) ^^ (y.getLsbD i && z.getLsbD i)) ∧
      (shaSum0 x).getLsbD i =
        (x.getLsbD ((i + 2) % 32) ^^ x.getLsbD ((i + 13) % 32) ^^ x.getLsbD ((i + 22) % 32)) ∧
      (shaSum1 x).getLsbD i =
        (x.getLsbD ((i + 6) % 32) ^^ x.getLsbD ((i + 11) % 32) ^^ x.getLsbD ((i + 25) % 32)) ∧
      (shaSigma0 x).getLsbD i =
        (x.getLsbD ((i + 7) % 32) ^^ x.getLsbD ((i + 18) % 32) ^^ (decide (i + 3 < 32) && x.getLsbD (i + 3))) ∧
      (shaSigma1 x).getLsbD i =
        (x.getLsbD ((i + 17) % 32) ^^ x.getLsbD ((i + 19) % 32) ^^ (decide (i + 10 < 32) && x.getLsbD (i + 10)))) ∧
    (firstPrimes.length = 64 ∧ shaConstants.length = 64 ∧ ∀ t, t < 64 → ∃ n,
      (n * 2 ^ 32 + (shaConstants.getD t 0).toNat) ^ 3 ≤ firstPrimes.getD t 0 * 2 ^ 96 ∧
        firstPrimes.getD t 0 * 2 ^ 96 < (n * 2 ^ 32 + (shaConstants.getD t 0).toNat + 1) ^ 3) ∧
    (shaConstants.getD 0 0 = 0x428a2f98 ∧ shaConstants.getD 7 0 = 0xab1c5ed5 ∧ shaConstants.getD 56 0 = 0x748f82ee ∧
      shaConstants.getD 63 0 = 0xc67178f2) ∧
    (∀ j, j < 8 → ∃ n h, h = ([shaInit.a, shaInit.b, shaInit.c, shaInit.d, shaInit.e, shaInit.f, shaInit.g,
        shaInit.h].getD j 0).toNat ∧
      (n * 2 ^ 32 + h) ^ 2 ≤ firstPrimes.getD j 0 * 2 ^ 64 ∧
        firstPrimes.getD j 0 * 2 ^ 64 < (n * 2 ^ 32 + h + 1) ^ 2) ∧
    (shaInit.a = 0x6a09e667 ∧ shaInit.h = 0x5be0cd19) ∧
    (∀ (h : ShaState) (block : List Byte) (v : Nat → ShaState), block.length = 64 → v 0 = h →
      (∀ t, t < 64 →
        let t1 := (v t).h + shaSum1 (v t).e + shaCh (v t).e (v t).f (v t).g + shaConstants.getD t 0 +
          (shaSchedule block).getD t 0
        let t2 := shaSum0 (v t).a + shaMaj (v t).a (v t).b (v t).c
        v (t + 1) = ⟨t1 + t2, (v t).a, (v t).b, (v t).c, (v t).d + t1, (v t).e, (v t).f, (v t).g⟩) →
      shaCompress h block = ⟨h.a + (v 64).a, h.b + (v 64).b, h.c + (v 64).c, h.d + (v 64).d, h.e + (v 64).e,
        h.f + (v 64).f, h.g + (v 64).g, h.h + (v 64).h⟩) ∧
    (∀ (m : List Byte) (x : Nat → ShaState), x 0 = shaInit →
      (∀ i, x (i + 1) = shaCompress (x i) (((m ++ shaPadding m.length).drop (64 * i)).take 64)) →
      sha256 m = shaDigest (x ((m ++ shaPadding m.length).length / 64))) ∧
    sha256 [0x61, 0x62, 0x63] =
      [0xba, 0x78, 0x16, 0xbf, 0x8f, 0x01, 0xcf, 0xea, 0x41, 0x41, 0x40, 0xde, 0x5d, 0xae, 0x22, 0x23] ++
      [0xb0, 0x03, 0x61, 0xa3, 0x96, 0x17, 0x7a, 0x9c, 0xb4, 0x10, 0xff, 0x61, 0xf2, 0x00, 0x15, 0xad]

/-- 41_kdf.md R190: the key block, for a key of any length. R191: HMAC, byte by byte over the two pads, its length and its
example. R195 and R196: PBKDF2 is the exclusive-or of c PRF applications, each on the one before, the first on the salt
and the block index 1; the 16-byte key is the first half of the 32-byte key. -/
def Obligations.Pbkdf2Iterates : Prop :=
  (∀ k : List Byte, (hmacKeyBlock k).length = 64 ∧
    (64 < k.length → hmacKeyBlock k = sha256 k ++ List.replicate 32 0x00) ∧
    (k.length ≤ 64 → hmacKeyBlock k = k ++ List.replicate (64 - k.length) 0x00)) ∧
    hmacKeyBlock [] = List.replicate 64 0x00 ∧
    (∀ k m : List Byte, (hmac k m).length = 32 ∧
      hmac k m = sha256 ((hmacKeyBlock k).map (fun b => b ^^^ 0x5c) ++
        sha256 ((hmacKeyBlock k).map (fun b => b ^^^ 0x36) ++ m))) ∧
    hmac [0x4a, 0x65, 0x66, 0x65]
        ([0x77, 0x68, 0x61, 0x74, 0x20, 0x64, 0x6f, 0x20, 0x79, 0x61, 0x20, 0x77, 0x61, 0x6e] ++
          [0x74, 0x20, 0x66, 0x6f, 0x72, 0x20, 0x6e, 0x6f, 0x74, 0x68, 0x69, 0x6e, 0x67, 0x3f]) =
      [0x5b, 0xdc, 0xc1, 0x46, 0xbf, 0x60, 0x75, 0x4e, 0x6a, 0x04, 0x24, 0x26, 0x08, 0x95, 0x75, 0xc7] ++
      [0x5a, 0x00, 0x3f, 0x08, 0x9d, 0x27, 0x39, 0x83, 0x9d, 0xec, 0x58, 0xb9, 0x64, 0xec, 0x38, 0x43] ∧
  (∀ (p salt : List Byte) (dkLen : Nat) (u t : Nat → List Byte), dkLen = 16 ∨ dkLen = 32 →
    u 1 = hmac p (salt ++ [0x00, 0x00, 0x00, 0x01]) → t 1 = u 1 →
    (∀ j, 1 ≤ j → u (j + 1) = hmac p (u j)) →
    (∀ j, 1 ≤ j → t (j + 1) = List.zipWith (fun a b => a ^^^ b) (t j) (u (j + 1))) →
    ∀ c, 1 ≤ c → pbkdf2 p salt c dkLen = (t c).take dkLen ∧ (pbkdf2 p salt c dkLen).length = dkLen) ∧
    ∀ (p salt : List Byte) (c : Nat), 1 ≤ c → pbkdf2 p salt c 16 = (pbkdf2 p salt c 32).take 16

/-- 42_cipher.md R233: the S-box table is the affine map of the inverse in GF(2^8), with 0 for 0, and its examples. -/
def Obligations.SboxDefinition : Prop :=
  (∀ b, ∃ x, (b = 0 ∧ x = 0 ∨ gfMul b x = 0x01) ∧
    ∀ i, i < 8 → (sbox b).getLsbD i = (x.getLsbD i ^^ x.getLsbD ((i + 4) % 8) ^^ x.getLsbD ((i + 5) % 8) ^^
      x.getLsbD ((i + 6) % 8) ^^ x.getLsbD ((i + 7) % 8) ^^ (0x63 : Byte).getLsbD i)) ∧
    sbox 0x00 = 0x63 ∧ sbox 0x01 = 0x7c ∧ sbox 0x53 = 0xed

/-- 42_cipher.md R238: the key schedule of a 16- or 32-byte key, as its first words and the recurrence, with RotWord,
SubWord, Rcon and the rule's checks. -/
def Obligations.KeyScheduleRecurrence : Prop :=
  (∀ (key : List Byte) (nk nr : Nat), (nk = 4 ∧ nr = 10) ∨ (nk = 8 ∧ nr = 14) → key.length = 4 * nk →
    let w := keySchedule key
    w.length = 4 * (nr + 1) ∧
    (∀ i, i < nk → w[i]? =
      some ⟨key.getD (4 * i) 0, key.getD (4 * i + 1) 0, key.getD (4 * i + 2) 0, key.getD (4 * i + 3) 0⟩) ∧
    ∀ i, nk ≤ i → i < 4 * (nr + 1) →
      let t := w.getD (i - 1) zeroColumn
      w[i]? = some ((w.getD (i - nk) zeroColumn).xor
        (if i % nk = 0 then (subWord (rotWord t)).xor ⟨rcon (i / nk), 0x00, 0x00, 0x00⟩
         else if nk = 8 ∧ i % 8 = 4 then subWord t
         else t))) ∧
    (∀ a b c d : Byte, rotWord ⟨a, b, c, d⟩ = ⟨b, c, d, a⟩ ∧ subWord ⟨a, b, c, d⟩ = ⟨sbox a, sbox b, sbox c, sbox d⟩) ∧
    (rcon 1 = 0x01 ∧ rcon 8 = 0x80 ∧ rcon 9 = 0x1b ∧ rcon 10 = 0x36 ∧
      ∀ j, 1 ≤ j → j < 10 → rcon (j + 1) = xtime (rcon j)) ∧
    (let w := keySchedule
        [0x2b, 0x7e, 0x15, 0x16, 0x28, 0xae, 0xd2, 0xa6, 0xab, 0xf7, 0x15, 0x88, 0x09, 0xcf, 0x4f, 0x3c]
     w[4]? = some ⟨0xa0, 0xfa, 0xfe, 0x17⟩ ∧ w[43]? = some ⟨0xb6, 0x63, 0x0c, 0xa6⟩) ∧
    (let w := keySchedule
        [0x60, 0x3d, 0xeb, 0x10, 0x15, 0xca, 0x71, 0xbe, 0x2b, 0x73, 0xae, 0xf0, 0x85, 0x7d, 0x77, 0x81, 0x1f, 0x35,
         0x2c, 0x07, 0x3b, 0x61, 0x08, 0xd7, 0x2d, 0x98, 0x10, 0xa3, 0x09, 0x14, 0xdf, 0xf4]
     w[8]? = some ⟨0x9b, 0xa3, 0x54, 0x11⟩ ∧ w[59]? = some ⟨0x70, 0x6c, 0x63, 0x1e⟩)

/-- 42_cipher.md R239: the forward cipher round by round, with the round keys of the key schedule, and its example. -/
def Obligations.AesForwardCipher : Prop :=
  (∀ (key inp : List Byte) (nr : Nat) (f : Nat → Block), (key.length = 16 ∧ nr = 10) ∨ (key.length = 32 ∧ nr = 14) →
    f 0 = (Block.ofBytes inp).xor (roundKeyOf (keySchedule key) 0) →
    (∀ r, 1 ≤ r → r ≤ nr - 1 →
      f r = (mixColumns (shiftRows (subBytes (f (r - 1))))).xor (roundKeyOf (keySchedule key) r)) →
    aesEnc key inp = ((shiftRows (subBytes (f (nr - 1)))).xor (roundKeyOf (keySchedule key) nr)).bytes) ∧
    aesEnc [0x00, 0x01, 0x02, 0x03, 0x04, 0x05, 0x06, 0x07, 0x08, 0x09, 0x0a, 0x0b, 0x0c, 0x0d, 0x0e, 0x0f]
      [0x00, 0x11, 0x22, 0x33, 0x44, 0x55, 0x66, 0x77, 0x88, 0x99, 0xaa, 0xbb, 0xcc, 0xdd, 0xee, 0xff] =
      [0x69, 0xc4, 0xe0, 0xd8, 0x6a, 0x7b, 0x04, 0x30, 0xd8, 0xcd, 0xb7, 0x80, 0x70, 0xb4, 0xc5, 0x5a]

/-- 42_cipher.md R240: the inverse cipher round by round, with its example, and that each cipher undoes the other on every
block, for every key. -/
def Obligations.AesInverseCipher : Prop :=
  (∀ (key inp : List Byte) (nr : Nat) (g : Nat → Block), (key.length = 16 ∧ nr = 10) ∨ (key.length = 32 ∧ nr = 14) →
    g nr = (Block.ofBytes inp).xor (roundKeyOf (keySchedule key) nr) →
    (∀ r, 1 ≤ r → r ≤ nr - 1 →
      g r = invMixColumns ((invSubBytes (invShiftRows (g (r + 1)))).xor (roundKeyOf (keySchedule key) r))) →
    aesDec key inp = ((invSubBytes (invShiftRows (g 1))).xor (roundKeyOf (keySchedule key) 0)).bytes) ∧
    (∀ key x : List Byte, x.length = 16 → aesDec key (aesEnc key x) = x ∧ aesEnc key (aesDec key x) = x) ∧
    aesDec ((List.range 32).map (BitVec.ofNat 8))
      [0x8e, 0xa2, 0xb7, 0xca, 0x51, 0x67, 0x45, 0xbf, 0xea, 0xfc, 0x49, 0x90, 0x4b, 0x49, 0x60, 0x89] =
      [0x00, 0x11, 0x22, 0x33, 0x44, 0x55, 0x66, 0x77, 0x88, 0x99, 0xaa, 0xbb, 0xcc, 0xdd, 0xee, 0xff]

/-- 42_cipher.md R244: the laws of CBC on byte strings. Block i of a byte string is its bytes 16i to 16i + 15, and the
block before the first is the IV. -/
def Obligations.CbcLaws : Prop :=
  ∀ key iv : List Byte, key.length = 16 ∨ key.length = 32 → iv.length = 16 →
    (∀ (p : List Byte) (i : Nat), i ≤ p.length / 16 →
      let c := encrypt key iv p
      ((c.drop (16 * i)).take 16) = aesEnc key (xorBytes (((padded p).drop (16 * i)).take 16)
        (if i = 0 then iv else (c.drop (16 * (i - 1))).take 16))) ∧
    (∀ (c : List Byte) (i : Nat), c.length % 16 = 0 → i < c.length / 16 →
      ((decryptPadded key iv c).drop (16 * i)).take 16 = xorBytes (aesDec key ((c.drop (16 * i)).take 16))
        (if i = 0 then iv else (c.drop (16 * (i - 1))).take 16)) ∧
    ∀ p : List Byte, iv = List.replicate 16 0 → 16 ≤ p.length →
      (encrypt key iv p).take 16 = aesEnc key (p.take 16)

/-- 42_cipher.md R250, R251 and R252 on byte strings: the pad length is from 1 to 16 and a whole block when L is a multiple
of 16; ENC's length is ceil((L + 1) / 16) * 16; a plaintext DEC returns is from 1 to 16 bytes shorter than its ciphertext,
by the value of the last byte; DEC of the encryption of P returns exactly P. The padding check, and that it is the
source's condition "for some K". -/
def Obligations.PaddingRules : Prop :=
  (∀ h : List Byte, h.length = 16 →
    (padOK h = true ↔ 1 ≤ (h.getD 15 0).toNat ∧ (h.getD 15 0).toNat ≤ 16 ∧
      ∀ i, 16 - (h.getD 15 0).toNat ≤ i → i < 16 → h.getD i 0 = h.getD 15 0) ∧
    (padOK h = true ↔ ∃ k : Nat, 1 ≤ k ∧ k ≤ 16 ∧ ∀ i, 16 - k ≤ i → i < 16 → (h.getD i 0).toNat = k)) ∧
    (∀ p : List Byte, ∃ k : Nat, k = 16 - p.length % 16 ∧ 1 ≤ k ∧ k ≤ 16 ∧
      padded p = p ++ List.replicate k (BitVec.ofNat 8 k) ∧ (p.length % 16 = 0 → k = 16)) ∧
    (∀ key iv p : List Byte, (encrypt key iv p).length = 16 * (p.length / 16 + 1) ∧
      (encrypt key iv p).length = (p.length + 1 + 15) / 16 * 16) ∧
    (∀ key iv c x : List Byte, c.length % 16 = 0 → 16 ≤ c.length → decrypt key iv c = some x →
      let k := ((decryptPadded key iv c).getD (c.length - 1) 0).toNat
      1 ≤ k ∧ k ≤ 16 ∧ x.length = c.length - k) ∧
    ∀ key iv p : List Byte, decrypt key iv (encrypt key iv p) = some p

/-! ### Memory and the host side -/

/-- No device register is admitted for the engine's port (20_memory.md R87). Host-side accesses to DMA memory (20_memory.md
R100 item 4, 40_command_model.md R160): one that touches Pw, In or Out of the running command is a fault; any other is
made, as one step, whatever the engine does. The model's choices: an access past the last address is a fault (log entry
11), and so is one that reaches a device register (log entry 14); the running command's regions are those of R91 also when
a check of it will fail, and an Illegal word has none (log entry 15); an access at an address the platform does not admit
is made as one of memory (log entry 23). -/
def Obligations.HostSideAccess : Prop :=
  (∀ (p : Platform) (r : Region) (a : Nat), r ∈ p.devices → r.base ≤ a → a < r.base + r.size →
    dmaReadOK p a = false ∧ dmaWriteOK p a = false) ∧
  ∀ (s : State) (rest : List Event) (a n : Nat) (bytes : List Byte) (e : Event) (t : State),
    (e = .memStore a bytes ∧ n = bytes.length ∧ t = { s with inputs := rest, mem := Memory.writeBytes s.mem a bytes }) ∨
      (e = .memLoad a n ∧
        t = { s with inputs := rest, results := .bytes (Memory.readBytes s.mem a n) :: s.results }) →
    s.inputs = e :: rest →
    let device : Prop := ∃ r x, r ∈ s.platform.devices ∧ (r.base ≤ x ∧ x < r.base + r.size) ∧ a ≤ x ∧ x < a + n
    let touches : Prop := ∃ w i r x, s.sequencer = .running w ∧ decode w = .ok i ∧
      (r = (regionsOf i s.operands).pw ∨ r = (regionsOf i s.operands).inp ∨ r = (regionsOf i s.operands).out) ∧
      (r.base ≤ x ∧ x < r.base + r.size) ∧ a ≤ x ∧ x < a + n
    (2 ^ 32 < a + n → step s = .fault .noSuchDmaAddress) ∧
    (a + n ≤ 2 ^ 32 → device → step s = .fault .deviceAccess) ∧
    (a + n ≤ 2 ^ 32 → ¬ device → touches → step s = .fault .regionRace) ∧
    (a + n ≤ 2 ^ 32 → ¬ device → ¬ touches → step s = .next t)

/-- Memory: a store is read back byte for byte and leaves every other byte; the canonical form is kept; and two memories
in canonical form with the same bytes are the same memory. -/
def Obligations.MemoryLaws : Prop :=
  (∀ (m : Memory) (a : Nat) (b : List Byte), Memory.readBytes (Memory.writeBytes m a b) a b.length = b ∧
    SameOutside m (Memory.writeBytes m a b) a b.length) ∧
    (∀ (m : Memory) (a : Nat) (b : List Byte), Memory.wf m → a + b.length ≤ 2 ^ 32 → Memory.wf (Memory.writeBytes m a b)) ∧
    ∀ m m' : Memory, Memory.wf m → Memory.wf m' → (∀ a, Memory.read m a = Memory.read m' a) → m = m'

/-- A step changes a byte of memory only by a host-side store that covers it, or in the Out region of the running command,
when it completes or is cut short by a reset (20_memory.md R97, 70_reset_and_hazards.md R381, R382). -/
def Obligations.MemoryChangesOnlyBy : Prop :=
  ∀ s t a, step s = .next t → Memory.read t.mem a ≠ Memory.read s.mem a →
    (∃ b bytes rest, s.inputs = .memStore b bytes :: rest ∧ b ≤ a ∧ a < b + bytes.length) ∨
      ((runningOut s).base ≤ a ∧ a < (runningOut s).base + (runningOut s).size ∧ s.sequencer ≠ .idle ∧
        t.sequencer = .idle)

/-- A step changes KEY only by the completion of KDF or ZEROIZE, by a host write to a KEY register while BUSY = 0, or by a
reset; and IV and SALT only by the completion of ZEROIZE, such a host write, or a reset (10_state.md R39, R40, R41). -/
def Obligations.KeysChangeOnlyBy : Prop :=
  ∀ s t, step s = .next t →
    let wrote (r : Reg) : Prop :=
      s.status.busy = false ∧ ∃ d rest, s.inputs = .busWrite (windowBase s.platform + regOffset r) 4 d :: rest
    let reset : Prop := AceReset t
    let ran (i : Instr) : Prop := ∃ w, s.sequencer = .running w ∧ decode w = .ok i ∧ t.sequencer = .idle
    (t.regs.key ≠ s.regs.key → (∃ ksz, ran (.kdf ksz)) ∨ ran .zeroize ∨ (∃ j, wrote (.key j)) ∨ reset) ∧
    (t.regs.iv ≠ s.regs.iv → ran .zeroize ∨ (∃ j, wrote (.iv j)) ∨ reset) ∧
    (t.regs.salt ≠ s.regs.salt → ran .zeroize ∨ (∃ j, wrote (.salt j)) ∨ reset)

/-- OVR is sticky (10_state.md R33, R43, 60_exceptions.md R351): a step sets it only by dropping a host write while
BUSY = 1, which changes no other bit of STATUS, and clears it only by a host write to STATUS with bit 2 set, or by a
reset. -/
def Obligations.OvrIsSticky : Prop :=
  ∀ s t, step s = .next t →
    (s.status.ovr = false → t.status.ovr = true → s.status.busy = true ∧ t.status = { s.status with ovr := true } ∧
      ∃ addr d rest, s.inputs = .busWrite addr 4 d :: rest) ∧
    (s.status.ovr = true → t.status.ovr = false →
      AceReset t ∨ ∃ d rest, s.inputs = .busWrite (windowBase s.platform + 0x04) 4 d :: rest ∧ d.getLsbD 2 = true)

/-- While a command runs, nothing but its completion or a reset changes CMD, the operand registers, OUT_LEN, ERR_ADDR, the
running word or the snapshot (70_reset_and_hazards.md R391, 40_command_model.md R140, R150), so reads are stale and no
access disturbs the command. -/
def Obligations.RegistersFrozenWhileBusy : Prop :=
  ∀ s t, step s = .next t → s.status.busy = true → t.status.busy = true →
    t.cmd = s.cmd ∧ t.regs = s.regs ∧ t.outLen = s.outLen ∧ t.errAddr = s.errAddr ∧ t.sequencer = s.sequencer ∧
      t.pending = s.pending ∧ t.status.err = s.status.err

/-! ### The step -/

/-- A step runs the decoded command: with command word w running, the engine's turn is `exec` of the command w decodes to,
when the turn is listed, when nothing is listed, and when the host waits for DONE (log entry 5); an Idle engine does
nothing. A word placed by `withFetchWord` is run by the next step (log entry 6). -/
def Obligations.StepRunsDecodedCommand : Prop :=
  (∀ s w i, s.sequencer = .running w → decode w = .ok i →
    (s.inputs = [] → step s = exec i s) ∧
    (∀ rest, s.inputs = .engine :: rest → step s = exec i { s with inputs := rest }) ∧
    (∀ rest, s.inputs = .wait :: rest → s.status.done = false → step s = exec i s)) ∧
    (∀ s, s.sequencer = .idle →
      (s.inputs = [] → step s = .next s) ∧
      (∀ rest, s.inputs = .engine :: rest → step s = .next { s with inputs := rest }) ∧
      (∀ rest, s.inputs = .wait :: rest → s.status.done = false → step s = .next s)) ∧
    (∀ s rest, s.inputs = .wait :: rest → s.status.done = true → step s = .next { s with inputs := rest }) ∧
    ∀ s nbits w i, decode (BitVec.ofNat 32 (w % 2 ^ nbits)) = .ok i →
      step (State.withFetchWord s nbits w) = exec i (s.accept (BitVec.ofNat 32 (w % 2 ^ nbits)))

/-- WAIT ends (30_encoding.md R132, 70_reset_and_hazards.md R395): a host that waits while a command runs sees DONE = 1, and
goes on at the next step. That it takes one step of the engine is the model's choice (log entry 5); the spec says only
that the completion comes. -/
def Obligations.WaitEnds : Prop :=
  ∀ s rest w, s.inputs = .wait :: rest → s.sequencer = .running w → s.status.done = false →
    ∃ t, step s = .next t ∧ t.status.done = true ∧ t.status.busy = false ∧ t.inputs = .wait :: rest ∧
      step t = .next { t with inputs := rest }

/-- A command computes only from the snapshot, memory, the platform's admission and the draws (40_command_model.md R140,
41_kdf.md R197): two states that agree on these give the same error code, OUT_LEN, ERR_ADDR and memory, and the same
change of KEY, IV and SALT, whatever else the states hold. In a state of a run the snapshot is the live registers. -/
def Obligations.CommandReadsSnapshotOnly : Prop :=
  (∀ i s s', s'.operands = s.operands → s'.mem = s.mem → s'.platform = s.platform → s'.drawCount = s.drawCount →
    ∃ t t', exec i s = .next t ∧ exec i s' = .next t' ∧ t'.status.err = t.status.err ∧ t'.outLen = t.outLen ∧
      t'.errAddr = t.errAddr ∧ t'.mem = t.mem ∧ t'.drawCount = t.drawCount ∧
      (t.regs = s.regs ∧ t'.regs = s'.regs ∨
        t.regs = { s.regs with key := t.regs.key } ∧ t'.regs = { s'.regs with key := t.regs.key } ∨
        t.regs = { s.regs with key := t.regs.key, iv := t.regs.iv, salt := t.regs.salt } ∧
          t'.regs = { s'.regs with key := t.regs.key, iv := t.regs.iv, salt := t.regs.salt })) ∧
    ∀ s, Machine.Inv s → s.operands = s.regs

/-! ### Invariants and headline results -/

/-- The machine after reset meets the invariant. -/
def Obligations.InvAtReset : Prop := Machine.Inv State.reset

/-- Every step keeps the invariant, from every state that meets it: memory in canonical form, BUSY exactly when a command
runs (10_state.md R45), `pending` the running word and the live registers (40_command_model.md R140), CMD the running
word, never BUSY and DONE together (10_state.md R33), ERR 0 while BUSY, OUT_LEN 0 after an error, ERR_ADDR only after a
BUS_ERROR, and the hidden state zero while idle (10_state.md R44). The model's choices: the canonical form of memory (log
entry 1), and that CMD reads the running word while BUSY = 1 (log entry 19). -/
def Obligations.InvKept : Prop := ∀ s t, Machine.Inv s → step s = .next t → Machine.Inv t

/-- 43_container.md R305: for every non-empty password, plaintext, ITER, legal KSZ and GEN, a SEAL that completes with
ERR = 0 writes a container of OUT_LEN bytes, and an OPEN of that container with the same password, ITER and KSZ, with
legal regions and admitted accesses, completes with ERR = 0, OUT_LEN the plaintext's length, and the plaintext at
DST_ADDR. -/
def Obligations.SealOpenRoundTrip : Prop :=
  ∀ ksz gen s t u, exec (.sealC ksz gen) s = .next t → t.status.err = .ok →
    u.operands.srcLen.toNat = 32 + 16 * (s.operands.srcLen.toNat / 16 + 1) →
    u.inputBytes = Memory.readBytes t.mem s.operands.dstAddr.toNat u.operands.srcLen.toNat →
    u.passwordBytes = s.passwordBytes → u.operands.iter = s.operands.iter → OpenRuns ksz u →
    t.outLen = u.operands.srcLen ∧
      ∃ v, exec (.openC ksz) u = .next v ∧ CompletedWith u v .ok ∧ v.outLen.toNat = s.operands.srcLen.toNat ∧
        Memory.readBytes v.mem u.operands.dstAddr.toNat s.operands.srcLen.toNat = s.inputBytes

/-- 43_container.md R306 for SEAL: KDF and then ENC with DST_ADDR + 32, from the same state, leave memory as SEAL with
GEN = 0 does, but for the 32 bytes of the header, which SEAL alone writes; and they leave the key in KEY, which SEAL does
not. The ENC is run by `exec` from the live registers, `pending` being empty after the KDF (log entry 8). -/
def Obligations.SealIsKdfThenEnc : Prop :=
  ∀ ksz s, SealRuns ksz s → s.operands = s.regs →
    ∃ t u v, exec (.sealC ksz false) s = .next t ∧ exec (.kdf ksz) s = .next u ∧
      exec (.enc ksz) { u with regs := { u.regs with dstAddr := u.regs.dstAddr + 32 } } = .next v ∧
      t.status.err = .ok ∧ v.status.err = .ok ∧
      (∀ a, s.operands.dstAddr.toNat + 32 ≤ a ∨ a < s.operands.dstAddr.toNat → Memory.read t.mem a = Memory.read v.mem a) ∧
      Memory.readBytes t.mem s.operands.dstAddr.toNat 32 = s.operands.saltBytes ++ s.operands.ivBytes ∧
      Memory.readBytes v.mem s.operands.dstAddr.toNat 32 = Memory.readBytes s.mem s.operands.dstAddr.toNat 32 ∧
      t.regs.key = s.regs.key ∧ v.regs.key = u.regs.key ∧
      v.regs.keyBytes (klen ksz) = derive s.passwordBytes s.operands.saltBytes s.operands.iter.toNat (klen ksz)

/-- 43_container.md R306 for OPEN: KDF and then DEC, with SALT and IV loaded from the header and SRC_ADDR and SRC_LEN
moved past it, leave memory, ERR and OUT_LEN as OPEN does. Each is run by `exec` with `pending` empty, so from the live
registers (log entry 8). -/
def Obligations.OpenIsKdfThenDec : Prop :=
  ∀ ksz s salt iv, OpenRuns ksz s → s.pending = none →
    ({ s.regs with salt := salt, iv := iv } : OperandRegs).saltBytes = s.inputBytes.take 16 →
    ({ s.regs with salt := salt, iv := iv } : OperandRegs).ivBytes = (s.inputBytes.drop 16).take 16 →
    ∃ t u v, exec (.openC ksz) s = .next t ∧
      exec (.kdf ksz) { s with regs := { s.regs with salt := salt, iv := iv } } = .next u ∧
      exec (.dec ksz) { u with
        regs := { u.regs with srcAddr := u.regs.srcAddr + 32, srcLen := u.regs.srcLen - 32 } } = .next v ∧
      v.status.err = t.status.err ∧ v.outLen = t.outLen ∧ v.errAddr = t.errAddr ∧ v.mem = t.mem ∧
      t.regs.key = s.regs.key

end
end

