-- ==== Sys2Proof/Laws/Aes.lean ====
section
/-! SUPPORT. AES: the field arithmetic is linear, each step of the inverse cipher undoes one of the forward cipher, and
blocks and byte strings correspond. -/

namespace Sys2Proof.Machine

/-! ### The field -/

theorem xtime_xor (x y : Byte) : xtime (x ^^^ y) = xtime x ^^^ xtime y := by
  simp only [xtime, BitVec.shiftLeft_xor_distrib, BitVec.getLsbD_xor]
  have key : ∀ u v : Byte, u ^^^ v ^^^ (if (x.getLsbD 7 ^^ y.getLsbD 7) = true then 0x1B#8 else 0#8) =
      (u ^^^ if x.getLsbD 7 = true then 0x1B#8 else 0#8) ^^^ (v ^^^ if y.getLsbD 7 = true then 0x1B#8 else 0#8) := by
    intro u v
    rw [show ∀ p q : Byte, (u ^^^ p) ^^^ (v ^^^ q) = u ^^^ v ^^^ (p ^^^ q) by intro p q; ac_rfl]
    cases x.getLsbD 7 <;> cases y.getLsbD 7 <;> simp
  exact key _ _

theorem gfMulBits_xor (n : Nat) (a x y : Byte) :
    gfMulBits n a (x ^^^ y) = gfMulBits n a x ^^^ gfMulBits n a y := by
  induction n generalizing a x y with
  | zero => simp [gfMulBits]
  | succ n ih =>
    simp only [gfMulBits, xtime_xor, ih]
    rw [show ∀ p q r s : Byte, (p ^^^ q) ^^^ (r ^^^ s) = (p ^^^ r) ^^^ (q ^^^ s) by intro p q r s; ac_rfl]
    cases a.getLsbD 0 <;> simp

/-- The product is additive in its second argument. -/
theorem gfMul_xor (a x y : Byte) : gfMul a (x ^^^ y) = gfMul a x ^^^ gfMul a y := gfMulBits_xor 8 a x y

/-- Every byte satisfies a property that all 256 values satisfy. -/
theorem forall_byte {P : Byte → Prop} (h : ∀ i : Fin 256, P (BitVec.ofFin i)) (b : Byte) : P b := h b.toFin

/-- InvMixColumns after MixColumns: the coefficient of a byte in its own row. -/
theorem gfMul_row_self (x : Byte) :
    gfMul 0x0e (gfMul 0x02 x) ^^^ gfMul 0x0b x ^^^ gfMul 0x0d x ^^^ gfMul 0x09 (gfMul 0x03 x) = x :=
  forall_byte (P := fun x =>
    gfMul 0x0e (gfMul 0x02 x) ^^^ gfMul 0x0b x ^^^ gfMul 0x0d x ^^^ gfMul 0x09 (gfMul 0x03 x) = x)
    (by decide +kernel) x

/-- The coefficients of a byte in the other rows. -/
theorem gfMul_row_one (x : Byte) :
    gfMul 0x0e (gfMul 0x03 x) ^^^ gfMul 0x0b (gfMul 0x02 x) ^^^ gfMul 0x0d x ^^^ gfMul 0x09 x = 0 :=
  forall_byte (P := fun x =>
    gfMul 0x0e (gfMul 0x03 x) ^^^ gfMul 0x0b (gfMul 0x02 x) ^^^ gfMul 0x0d x ^^^ gfMul 0x09 x = 0)
    (by decide +kernel) x

theorem gfMul_row_two (x : Byte) :
    gfMul 0x0e x ^^^ gfMul 0x0b (gfMul 0x03 x) ^^^ gfMul 0x0d (gfMul 0x02 x) ^^^ gfMul 0x09 x = 0 :=
  forall_byte (P := fun x =>
    gfMul 0x0e x ^^^ gfMul 0x0b (gfMul 0x03 x) ^^^ gfMul 0x0d (gfMul 0x02 x) ^^^ gfMul 0x09 x = 0)
    (by decide +kernel) x

theorem gfMul_row_three (x : Byte) :
    gfMul 0x0e x ^^^ gfMul 0x0b x ^^^ gfMul 0x0d (gfMul 0x03 x) ^^^ gfMul 0x09 (gfMul 0x02 x) = 0 :=
  forall_byte (P := fun x =>
    gfMul 0x0e x ^^^ gfMul 0x0b x ^^^ gfMul 0x0d (gfMul 0x03 x) ^^^ gfMul 0x09 (gfMul 0x02 x) = 0)
    (by decide +kernel) x

/-- MixColumns after InvMixColumns. -/
theorem gfMul_col_self (x : Byte) :
    gfMul 0x02 (gfMul 0x0e x) ^^^ gfMul 0x03 (gfMul 0x09 x) ^^^ gfMul 0x0d x ^^^ gfMul 0x0b x = x :=
  forall_byte (P := fun x =>
    gfMul 0x02 (gfMul 0x0e x) ^^^ gfMul 0x03 (gfMul 0x09 x) ^^^ gfMul 0x0d x ^^^ gfMul 0x0b x = x)
    (by decide +kernel) x

theorem gfMul_col_one (x : Byte) :
    gfMul 0x02 (gfMul 0x0b x) ^^^ gfMul 0x03 (gfMul 0x0e x) ^^^ gfMul 0x09 x ^^^ gfMul 0x0d x = 0 :=
  forall_byte (P := fun x =>
    gfMul 0x02 (gfMul 0x0b x) ^^^ gfMul 0x03 (gfMul 0x0e x) ^^^ gfMul 0x09 x ^^^ gfMul 0x0d x = 0)
    (by decide +kernel) x

theorem gfMul_col_two (x : Byte) :
    gfMul 0x02 (gfMul 0x0d x) ^^^ gfMul 0x03 (gfMul 0x0b x) ^^^ gfMul 0x0e x ^^^ gfMul 0x09 x = 0 :=
  forall_byte (P := fun x =>
    gfMul 0x02 (gfMul 0x0d x) ^^^ gfMul 0x03 (gfMul 0x0b x) ^^^ gfMul 0x0e x ^^^ gfMul 0x09 x = 0)
    (by decide +kernel) x

theorem gfMul_col_three (x : Byte) :
    gfMul 0x02 (gfMul 0x09 x) ^^^ gfMul 0x03 (gfMul 0x0d x) ^^^ gfMul 0x0b x ^^^ gfMul 0x0e x = 0 :=
  forall_byte (P := fun x =>
    gfMul 0x02 (gfMul 0x09 x) ^^^ gfMul 0x03 (gfMul 0x0d x) ^^^ gfMul 0x0b x ^^^ gfMul 0x0e x = 0)
    (by decide +kernel) x

/-! ### The tables -/

theorem invSbox_sbox (b : Byte) : invSbox (sbox b) = b :=
  forall_byte (P := fun b => invSbox (sbox b) = b) (by decide +kernel) b

theorem sbox_invSbox (b : Byte) : sbox (invSbox b) = b :=
  forall_byte (P := fun b => sbox (invSbox b) = b) (by decide +kernel) b

/-! ### The steps -/

/-- Four bytes whose contributions to a row add up to the first of them. -/
theorem xor_rows (a1 a2 a3 a4 b1 b2 b3 b4 c1 c2 c3 c4 d1 d2 d3 d4 a : Byte)
    (ha : a1 ^^^ a2 ^^^ a3 ^^^ a4 = a) (hb : b1 ^^^ b2 ^^^ b3 ^^^ b4 = 0) (hc : c1 ^^^ c2 ^^^ c3 ^^^ c4 = 0)
    (hd : d1 ^^^ d2 ^^^ d3 ^^^ d4 = 0) :
    (a1 ^^^ b1 ^^^ c1 ^^^ d1) ^^^ (a2 ^^^ b2 ^^^ c2 ^^^ d2) ^^^ (a3 ^^^ b3 ^^^ c3 ^^^ d3) ^^^
      (a4 ^^^ b4 ^^^ c4 ^^^ d4) = a := by
  have : (a1 ^^^ b1 ^^^ c1 ^^^ d1) ^^^ (a2 ^^^ b2 ^^^ c2 ^^^ d2) ^^^ (a3 ^^^ b3 ^^^ c3 ^^^ d3) ^^^
      (a4 ^^^ b4 ^^^ c4 ^^^ d4) = (a1 ^^^ a2 ^^^ a3 ^^^ a4) ^^^ (b1 ^^^ b2 ^^^ b3 ^^^ b4) ^^^
      (c1 ^^^ c2 ^^^ c3 ^^^ c4) ^^^ (d1 ^^^ d2 ^^^ d3 ^^^ d4) := by ac_rfl
  rw [this, ha, hb, hc, hd]; simp

theorem invMixColumn_mixColumn (s : Column) : invMixColumn (mixColumn s) = s := by
  obtain ⟨w, x, y, z⟩ := s
  simp only [invMixColumn, mixColumn, gfMul_xor, Column.mk.injEq]
  refine ⟨?_, ?_, ?_, ?_⟩
  · exact xor_rows _ _ _ _ _ _ _ _ _ _ _ _ _ _ _ _ _
      (gfMul_row_self w) (gfMul_row_one x) (gfMul_row_two y) (gfMul_row_three z)
  · have h1 := gfMul_row_self x; have h2 := gfMul_row_one y; have h3 := gfMul_row_two z; have h4 := gfMul_row_three w
    refine Eq.trans ?_ (xor_rows _ _ _ _ _ _ _ _ _ _ _ _ _ _ _ _ _ h1 h2 h3 h4); ac_rfl
  · have h1 := gfMul_row_self y; have h2 := gfMul_row_one z; have h3 := gfMul_row_two w; have h4 := gfMul_row_three x
    refine Eq.trans ?_ (xor_rows _ _ _ _ _ _ _ _ _ _ _ _ _ _ _ _ _ h1 h2 h3 h4); ac_rfl
  · have h1 := gfMul_row_self z; have h2 := gfMul_row_one w; have h3 := gfMul_row_two x; have h4 := gfMul_row_three y
    refine Eq.trans ?_ (xor_rows _ _ _ _ _ _ _ _ _ _ _ _ _ _ _ _ _ h1 h2 h3 h4); ac_rfl

theorem mixColumn_invMixColumn (s : Column) : mixColumn (invMixColumn s) = s := by
  obtain ⟨w, x, y, z⟩ := s
  simp only [invMixColumn, mixColumn, gfMul_xor, Column.mk.injEq]
  refine ⟨?_, ?_, ?_, ?_⟩
  · have h1 := gfMul_col_self w; have h2 := gfMul_col_one x; have h3 := gfMul_col_two y; have h4 := gfMul_col_three z
    refine Eq.trans ?_ (xor_rows _ _ _ _ _ _ _ _ _ _ _ _ _ _ _ _ _ h1 h2 h3 h4); ac_rfl
  · have h1 := gfMul_col_self x; have h2 := gfMul_col_one y; have h3 := gfMul_col_two z; have h4 := gfMul_col_three w
    refine Eq.trans ?_ (xor_rows _ _ _ _ _ _ _ _ _ _ _ _ _ _ _ _ _ h1 h2 h3 h4); ac_rfl
  · have h1 := gfMul_col_self y; have h2 := gfMul_col_one z; have h3 := gfMul_col_two w; have h4 := gfMul_col_three x
    refine Eq.trans ?_ (xor_rows _ _ _ _ _ _ _ _ _ _ _ _ _ _ _ _ _ h1 h2 h3 h4); ac_rfl
  · have h1 := gfMul_col_self z; have h2 := gfMul_col_one w; have h3 := gfMul_col_two x; have h4 := gfMul_col_three y
    refine Eq.trans ?_ (xor_rows _ _ _ _ _ _ _ _ _ _ _ _ _ _ _ _ _ h1 h2 h3 h4); ac_rfl

@[simp] theorem invMixColumns_mixColumns (s : Block) : invMixColumns (mixColumns s) = s := by
  simp [invMixColumns, mixColumns, Block.mapColumns, invMixColumn_mixColumn]

@[simp] theorem mixColumns_invMixColumns (s : Block) : mixColumns (invMixColumns s) = s := by
  simp [invMixColumns, mixColumns, Block.mapColumns, mixColumn_invMixColumn]

@[simp] theorem invSubBytes_subBytes (s : Block) : invSubBytes (subBytes s) = s := by
  simp [invSubBytes, subBytes, Block.mapColumns, Column.map, invSbox_sbox]

@[simp] theorem subBytes_invSubBytes (s : Block) : subBytes (invSubBytes s) = s := by
  simp [invSubBytes, subBytes, Block.mapColumns, Column.map, sbox_invSbox]

@[simp] theorem invShiftRows_shiftRows (s : Block) : invShiftRows (shiftRows s) = s := rfl

@[simp] theorem shiftRows_invShiftRows (s : Block) : shiftRows (invShiftRows s) = s := rfl

@[simp] theorem Block.xor_xor_cancel (x k : Block) : (x.xor k).xor k = x := by
  simp [Block.xor, Column.xor]

/-- A middle round of the inverse cipher undoes the MixColumns and AddRoundKey of the round it belongs to and the
SubBytes and ShiftRows after it. -/
theorem decRound_encRound (s k : Block) :
    decRound k (shiftRows (subBytes (encRound s k))) = shiftRows (subBytes s) := by
  simp [decRound, encRound]

theorem encRound_decRound (s k : Block) :
    encRound (invSubBytes (invShiftRows (decRound k s))) k = invSubBytes (invShiftRows s) := by
  simp [decRound, encRound]

/-! ### The ciphers -/

theorem foldr_decRound_foldl_encRound (l : List Block) (x : Block) :
    l.foldr decRound (shiftRows (subBytes (l.foldl encRound x))) = shiftRows (subBytes x) := by
  induction l generalizing x with
  | nil => rfl
  | cons k l ih => rw [List.foldl_cons, List.foldr_cons, ih, decRound_encRound]

theorem foldl_encRound_foldr_decRound (l : List Block) (x : Block) :
    l.foldl encRound (invSubBytes (invShiftRows (l.foldr decRound x))) = invSubBytes (invShiftRows x) := by
  induction l with
  | nil => rfl
  | cons k l ih => rw [List.foldl_cons, List.foldr_cons, encRound_decRound, ih]

/-- The inverse cipher undoes the forward cipher, under any round keys. -/
@[simp] theorem aesDecBlock_aesEncBlock (k : RoundKeys) (x : Block) : aesDecBlock k (aesEncBlock k x) = x := by
  simp [aesDecBlock, aesEncBlock, foldr_decRound_foldl_encRound]

/-- The forward cipher undoes the inverse cipher, under any round keys. -/
@[simp] theorem aesEncBlock_aesDecBlock (k : RoundKeys) (x : Block) : aesEncBlock k (aesDecBlock k x) = x := by
  simp [aesDecBlock, aesEncBlock, foldl_encRound_foldr_decRound]

/-! ### Blocks and byte strings -/

@[simp] theorem Block.length_bytes (x : Block) : x.bytes.length = 16 := rfl

@[simp] theorem Block.ofBytes_bytes (x : Block) : Block.ofBytes x.bytes = x := rfl

@[simp] theorem length_aesEnc (key inp : List Byte) : (aesEnc key inp).length = 16 := rfl

@[simp] theorem length_aesDec (key inp : List Byte) : (aesDec key inp).length = 16 := rfl

theorem Block.bytes_ofBytes {b : List Byte} (h : b.length = 16) : (Block.ofBytes b).bytes = b := by
  match b, h with
  | [a0, a1, a2, a3, a4, a5, a6, a7, a8, a9, a10, a11, a12, a13, a14, a15], _ => rfl

/-- The exclusive-or of blocks is that of their byte strings. -/
theorem Block.bytes_xor (x y : Block) :
    (x.xor y).bytes = List.zipWith (fun a b => a ^^^ b) x.bytes y.bytes := rfl

theorem Block.ofBytes_zipWith_xor {b c : List Byte} (hb : b.length = 16) (hc : c.length = 16) :
    Block.ofBytes (List.zipWith (fun x y => x ^^^ y) b c) = (Block.ofBytes b).xor (Block.ofBytes c) := by
  rw [← Block.ofBytes_bytes ((Block.ofBytes b).xor (Block.ofBytes c)), Block.bytes_xor, Block.bytes_ofBytes hb,
    Block.bytes_ofBytes hc]

end Sys2Proof.Machine
end

