-- ==== Sys2Proof/Laws/Memory.lean ====
section
/-! SUPPORT. What the operations over DMA memory do: reads after writes, the canonical form, and admission. -/

namespace Sys2Proof.Machine

/-! ### One byte -/

@[simp] theorem Memory.read_nil (a : Nat) : Memory.read [] a = Config.unlistedByte := rfl

theorem Memory.read_cons (k : Nat) (v : Byte) (m : Memory) (a : Nat) :
    Memory.read ((k, v) :: m) a = if k = a then v else Memory.read m a := rfl

theorem Memory.read_erase (m : Memory) (a x : Nat) :
    Memory.read (Memory.erase m a) x = if x = a then Config.unlistedByte else Memory.read m x := by
  induction m with
  | nil => simp [Memory.erase]
  | cons c m ih =>
    obtain ⟨k, v⟩ := c
    simp only [Memory.erase, List.filter_cons] at ih ⊢
    by_cases hk : k = a
    · subst hk
      by_cases hx : x = k
      · subst hx; simpa using ih
      · simp [ih, hx, Memory.read_cons, Ne.symm hx]
    · by_cases hx : x = a
      · subst hx; simpa [hk, Memory.read_cons] using ih
      · simp [hk, Memory.read_cons, ih, hx]

theorem Memory.read_insert (m : Memory) (a x : Nat) (b : Byte) (h : Memory.read m a = Config.unlistedByte)
    (hn : ∀ c ∈ m, c.1 ≠ a) : Memory.read (Memory.insert m a b) x = if x = a then b else Memory.read m x := by
  induction m with
  | nil => simp [Memory.insert, Memory.read_cons, eq_comm]
  | cons c m ih =>
    obtain ⟨k, v⟩ := c
    have hk : k ≠ a := hn (k, v) (by simp)
    simp only [Memory.read_cons, hk, if_false] at h
    have ih' := ih h (fun c hc => hn c (by simp [hc]))
    by_cases ha : a < k
    · simp [Memory.insert, ha, Memory.read_cons, eq_comm]
    · by_cases hx : x = a
      · subst hx; simp [Memory.insert, ha, Memory.read_cons, hk, ih']
      · simp [Memory.insert, ha, Memory.read_cons, ih', hx]

theorem Memory.not_mem_erase (m : Memory) (a : Nat) : ∀ c ∈ Memory.erase m a, c.1 ≠ a := by
  simp [Memory.erase]

/-- A read after a write, at any two addresses. -/
@[simp] theorem Memory.read_write (m : Memory) (a x : Nat) (b : Byte) :
    Memory.read (Memory.write m a b) x = if x = a then b else Memory.read m x := by
  unfold Memory.write
  split
  · subst b; simp [Memory.read_erase]
  · rw [Memory.read_insert _ _ _ _ (by simp [Memory.read_erase]) (Memory.not_mem_erase m a)]
    by_cases hx : x = a <;> simp [hx, Memory.read_erase]

/-! ### Byte strings -/

@[simp] theorem Memory.readBytes_zero (m : Memory) (a : Nat) : Memory.readBytes m a 0 = [] := rfl

@[simp] theorem Memory.length_readBytes (m : Memory) (a n : Nat) : (Memory.readBytes m a n).length = n := by
  induction n generalizing a with
  | zero => rfl
  | succ n ih => simp [Memory.readBytes, ih]

theorem Memory.getElem_readBytes (m : Memory) (a n i : Nat) (h : i < (Memory.readBytes m a n).length) :
    (Memory.readBytes m a n)[i] = Memory.read m (a + i) := by
  induction n generalizing a i with
  | zero => simp at h
  | succ n ih =>
    cases i with
    | zero => simp [Memory.readBytes]
    | succ i => simp [Memory.readBytes, ih, Nat.add_assoc, Nat.add_comm 1 i]

/-- Two byte strings read from memory are equal when their bytes are. -/
theorem Memory.readBytes_congr {m m' : Memory} {a a' n : Nat}
    (h : ∀ i, i < n → Memory.read m (a + i) = Memory.read m' (a' + i)) :
    Memory.readBytes m a n = Memory.readBytes m' a' n := by
  apply List.ext_getElem (by simp)
  intro i h1 h2
  rw [Memory.getElem_readBytes, Memory.getElem_readBytes]
  exact h i (by simpa using h1)

theorem Memory.readBytes_add (m : Memory) (a n k : Nat) :
    Memory.readBytes m a (n + k) = Memory.readBytes m a n ++ Memory.readBytes m (a + n) k := by
  induction n generalizing a with
  | zero => simp
  | succ n ih => rw [Nat.add_right_comm]; simp [Memory.readBytes, ih, Nat.add_assoc, Nat.add_comm 1 n]

/-- The bytes read from memory are `b` exactly when each is. -/
theorem Memory.readBytes_eq_iff (m : Memory) (a : Nat) (b : List Byte) :
    Memory.readBytes m a b.length = b ↔ ∀ i, (h : i < b.length) → Memory.read m (a + i) = b[i] := by
  constructor
  · intro h i hi
    have := Memory.getElem_readBytes m a b.length i (by simpa using hi)
    rw [← this]; simp [h]
  · intro h
    apply List.ext_getElem (by simp)
    intro i h1 h2
    rw [Memory.getElem_readBytes]; exact h i h2

/-- A read after a write of a byte string, at any address. -/
theorem Memory.read_writeBytes (m : Memory) (a x : Nat) (b : List Byte) :
    Memory.read (Memory.writeBytes m a b) x =
      if h : a ≤ x ∧ x - a < b.length then b[x - a] else Memory.read m x := by
  induction b generalizing m a with
  | nil => simp [Memory.writeBytes]
  | cons c b ih =>
    rw [Memory.writeBytes, ih]
    rcases Nat.lt_trichotomy x a with h | h | h
    · have h1 : ¬ (a + 1 ≤ x ∧ x - (a + 1) < b.length) := by omega
      have h2 : ¬ (a ≤ x ∧ x - a < (c :: b).length) := by omega
      have h3 : x ≠ a := by omega
      simp only [h1, h2, dif_neg, not_false_eq_true, Memory.read_write, h3, if_false]
    · subst h; simp
    · have h3 : x ≠ a := by omega
      by_cases h4 : x - (a + 1) < b.length
      · have h1 : a + 1 ≤ x ∧ x - (a + 1) < b.length := ⟨h, h4⟩
        have h2 : a ≤ x ∧ x - a < (c :: b).length := by simp; omega
        rw [dif_pos h1, dif_pos h2]
        have : x - a = (x - (a + 1)) + 1 := by omega
        simp only [this, List.getElem_cons_succ]
      · have h1 : ¬ (a + 1 ≤ x ∧ x - (a + 1) < b.length) := by omega
        have h2 : ¬ (a ≤ x ∧ x - a < (c :: b).length) := by simp; omega
        rw [dif_neg h1, dif_neg h2]; simp [h3]

/-- A write of a byte string leaves every address outside it alone. -/
theorem Memory.read_writeBytes_of_outside (m : Memory) (a x : Nat) (b : List Byte) (h : x < a ∨ a + b.length ≤ x) :
    Memory.read (Memory.writeBytes m a b) x = Memory.read m x := by
  rw [Memory.read_writeBytes, dif_neg]; omega

theorem Memory.read_writeBytes_of_inside (m : Memory) (a i : Nat) (b : List Byte) (h : i < b.length) :
    Memory.read (Memory.writeBytes m a b) (a + i) = b[i] := by
  rw [Memory.read_writeBytes, dif_pos (by omega)]; simp

/-- Reading back the byte string just written. -/
theorem Memory.readBytes_writeBytes_self (m : Memory) (a : Nat) (b : List Byte) :
    Memory.readBytes (Memory.writeBytes m a b) a b.length = b := by
  rw [Memory.readBytes_eq_iff]
  exact fun i hi => Memory.read_writeBytes_of_inside m a i b hi

/-- A store of `n` bytes is read back. -/
theorem Memory.readBytes_writeBytes_of_length (m : Memory) (a n : Nat) (b : List Byte) (h : b.length = n) :
    Memory.readBytes (Memory.writeBytes m a b) a n = b := by
  subst h
  exact Memory.readBytes_writeBytes_self m a b

/-- Reading bytes that a write does not touch. -/
theorem Memory.readBytes_writeBytes_of_disjoint (m : Memory) (a x n : Nat) (b : List Byte)
    (h : x + n ≤ a ∨ a + b.length ≤ x) : Memory.readBytes (Memory.writeBytes m a b) x n = Memory.readBytes m x n :=
  Memory.readBytes_congr fun i hi => Memory.read_writeBytes_of_outside m a (x + i) b (by omega)

/-! ### The canonical form -/

theorem Memory.wf_nil : Memory.wf [] := by simp [Memory.wf]

theorem Memory.wf_erase {m : Memory} (h : Memory.wf m) (a : Nat) : Memory.wf (Memory.erase m a) :=
  ⟨h.1.filter _, fun c hc => h.2 c (List.mem_filter.mp hc).1⟩

theorem Memory.mem_insert {m : Memory} {a : Nat} {b : Byte} {c : Host.Cell} (h : c ∈ Memory.insert m a b) :
    c = (a, b) ∨ c ∈ m := by
  induction m with
  | nil => simpa [Memory.insert] using h
  | cons d m ih =>
    obtain ⟨k, v⟩ := d
    simp only [Memory.insert] at h
    split at h
    · simpa using h
    · rcases List.mem_cons.mp h with h | h
      · simp [h]
      · rcases ih h with h | h <;> simp [h]

theorem Memory.wf_insert {m : Memory} (h : Memory.wf m) {a : Nat} {b : Byte} (ha : a < dmaSize)
    (hb : b ≠ Config.unlistedByte) (hn : ∀ c ∈ m, c.1 ≠ a) : Memory.wf (Memory.insert m a b) := by
  refine ⟨?_, fun c hc => ?_⟩
  · have h1 := h.1
    clear h
    induction m with
    | nil => simp [Memory.insert]
    | cons d m ih =>
      obtain ⟨k, v⟩ := d
      rw [List.pairwise_cons] at h1
      have hk : k ≠ a := hn (k, v) (by simp)
      simp only [Memory.insert]
      split
      · rename_i hlt
        refine List.pairwise_cons.mpr ⟨fun c hc => ?_, List.pairwise_cons.mpr h1⟩
        rcases List.mem_cons.mp hc with rfl | hc
        · exact hlt
        · exact Nat.lt_trans hlt (h1.1 c hc)
      · rename_i hlt
        refine List.pairwise_cons.mpr ⟨fun c hc => ?_, ih (fun c hc => hn c (by simp [hc])) h1.2⟩
        rcases Memory.mem_insert hc with rfl | hc
        · simp only; omega
        · exact h1.1 c hc
  · rcases Memory.mem_insert hc with rfl | hc
    · exact ⟨ha, hb⟩
    · exact h.2 c hc

/-- A write to an address of the DMA space keeps the canonical form. -/
theorem Memory.wf_write {m : Memory} (h : Memory.wf m) {a : Nat} (ha : a < dmaSize) (b : Byte) :
    Memory.wf (Memory.write m a b) := by
  unfold Memory.write
  split
  · exact Memory.wf_erase h a
  · rename_i hb
    exact Memory.wf_insert (Memory.wf_erase h a) ha hb (Memory.not_mem_erase m a)

/-- A write of a byte string inside the DMA space keeps the canonical form. -/
theorem Memory.wf_writeBytes {m : Memory} (h : Memory.wf m) {a : Nat} (b : List Byte)
    (ha : b = [] ∨ a + b.length ≤ dmaSize) : Memory.wf (Memory.writeBytes m a b) := by
  induction b generalizing m a with
  | nil => exact h
  | cons c b ih =>
    simp only [List.length_cons, reduceCtorEq, false_or] at ha
    exact ih (Memory.wf_write h (by omega) c) (.inr (by omega))

theorem Memory.read_of_lt {m : Memory} {a : Nat} (h : ∀ c ∈ m, a < c.1) : Memory.read m a = Config.unlistedByte := by
  induction m with
  | nil => rfl
  | cons d m ih =>
    have : d.1 ≠ a := by have := h d (by simp); omega
    obtain ⟨k, v⟩ := d
    simp only [Memory.read_cons]
    rw [if_neg this]
    exact ih (fun c hc => h c (by simp [hc]))

/-- Equal memories are equal data: in the canonical form, what every address reads as determines the list. -/
theorem Memory.ext_of_wf {m m' : Memory} (h : Memory.wf m) (h' : Memory.wf m')
    (e : ∀ a, Memory.read m a = Memory.read m' a) : m = m' := by
  induction m generalizing m' with
  | nil =>
    cases m' with
    | nil => rfl
    | cons d m' =>
      have := e d.1
      rw [show d = (d.1, d.2) from rfl, Memory.read_cons] at this
      simp only [Memory.read_nil, if_true] at this
      exact absurd this.symm (h'.2 d (by simp)).2
  | cons c m ih =>
    cases m' with
    | nil =>
      have := e c.1
      rw [show c = (c.1, c.2) from rfl, Memory.read_cons] at this
      simp only [Memory.read_nil, if_true] at this
      exact absurd this (h.2 c (by simp)).2
    | cons d m' =>
      obtain ⟨k, v⟩ := c
      obtain ⟨k', v'⟩ := d
      have h1 := List.pairwise_cons.mp h.1
      have h1' := List.pairwise_cons.mp h'.1
      have hv := (h.2 (k, v) (by simp)).2
      have hv' := (h'.2 (k', v') (by simp)).2
      have hkk : k = k' := by
        rcases Nat.lt_trichotomy k k' with hlt | heq | hlt
        · have := e k
          rw [Memory.read_cons, if_pos rfl, Memory.read_of_lt] at this
          · exact absurd this hv
          · intro x hx
            rcases List.mem_cons.mp hx with rfl | hx
            · exact hlt
            · exact Nat.lt_trans hlt (h1'.1 x hx)
        · exact heq
        · have := e k'
          rw [Memory.read_cons k', if_pos rfl, Memory.read_of_lt] at this
          · exact absurd this.symm hv'
          · intro x hx
            rcases List.mem_cons.mp hx with rfl | hx
            · exact hlt
            · exact Nat.lt_trans hlt (h1.1 x hx)
      subst hkk
      have hvv : v = v' := by simpa [Memory.read_cons] using e k
      subst hvv
      congr 1
      refine ih ⟨h1.2, fun x hx => h.2 x (by simp [hx])⟩ ⟨h1'.2, fun x hx => h'.2 x (by simp [hx])⟩ fun a => ?_
      by_cases ha : k = a
      · subst ha
        rw [Memory.read_of_lt (fun x hx => h1.1 x hx), Memory.read_of_lt (fun x hx => h1'.1 x hx)]
      · simpa [Memory.read_cons, ha] using e a

/-! ### Admission -/

/-- No device register is admitted for reading (20_memory.md R87). -/
theorem dmaReadOK_of_isDevice {p : Platform} {a : Nat} (h : isDevice p a = true) : dmaReadOK p a = false := by
  simp [dmaReadOK, h]

/-- No device register is admitted for writing (20_memory.md R87). -/
theorem dmaWriteOK_of_isDevice {p : Platform} {a : Nat} (h : isDevice p a = true) : dmaWriteOK p a = false := by
  simp [dmaWriteOK, h]

theorem firstRefused_eq_none_iff (ok : Nat → Bool) (a n : Nat) :
    firstRefused ok a n = none ↔ ∀ i, i < n → ok (a + i) = true := by
  induction n generalizing a with
  | zero => simp [firstRefused]
  | succ n ih =>
    simp only [firstRefused]
    split
    · rename_i h
      rw [ih]
      constructor
      · intro h1 i hi
        cases i with
        | zero => exact h
        | succ i => have := h1 i (by omega); rwa [show a + 1 + i = a + (i + 1) by omega] at this
      · intro h1 i hi
        have := h1 (i + 1) (by omega)
        rwa [show a + (i + 1) = a + 1 + i by omega] at this
    · rename_i h
      constructor
      · simp
      · intro h1; exact absurd (h1 0 (by omega)) (by simpa using h)

/-- The refused address is the first: it is refused and every one before it is admitted. -/
theorem firstRefused_eq_some_iff (ok : Nat → Bool) (a n x : Nat) :
    firstRefused ok a n = some x ↔
      a ≤ x ∧ x < a + n ∧ ok x = false ∧ ∀ y, a ≤ y → y < x → ok y = true := by
  induction n generalizing a with
  | zero => simp only [firstRefused, reduceCtorEq, false_iff]; omega
  | succ n ih =>
    simp only [firstRefused]
    split
    · rename_i h
      rw [ih]
      constructor
      · rintro ⟨h1, h2, h3, h4⟩
        refine ⟨by omega, by omega, h3, fun y hy hyx => ?_⟩
        rcases Nat.eq_or_lt_of_le hy with rfl | hy
        · exact h
        · exact h4 y hy hyx
      · rintro ⟨h1, h2, h3, h4⟩
        have : a ≠ x := by rintro rfl; simp [h] at h3
        exact ⟨by omega, by omega, h3, fun y hy hyx => h4 y (by omega) hyx⟩
    · rename_i h
      constructor
      · intro hx
        obtain rfl : a = x := by simpa using hx
        exact ⟨le_refl _, by omega, by simpa using h, fun y h1 h2 => by omega⟩
      · rintro ⟨h1, h2, h3, h4⟩
        rcases Nat.eq_or_lt_of_le h1 with rfl | hlt
        · rfl
        · exact absurd (h4 a (le_refl _) hlt) h

/-- Everything an admitted read can do. -/
theorem dmaRead_eq_ok_iff {p : Platform} {m : Memory} {a n : Nat} {b : List Byte} :
    dmaRead p m a n = .ok b ↔ (∀ i, i < n → dmaReadOK p (a + i) = true) ∧ b = Memory.readBytes m a n := by
  unfold dmaRead
  rw [← firstRefused_eq_none_iff]
  cases firstRefused _ a _ <;> simp [eq_comm]

/-- Everything an admitted write can do. -/
theorem dmaWrite_eq_ok_iff {p : Platform} {m m' : Memory} {a : Nat} {b : List Byte} :
    dmaWrite p m a b = .ok m' ↔
      (∀ i, i < b.length → dmaWriteOK p (a + i) = true) ∧ m' = Memory.writeBytes m a b := by
  unfold dmaWrite
  rw [← firstRefused_eq_none_iff]
  cases firstRefused _ a _ <;> simp [eq_comm]

/-- A read fails only by a refused byte, the first. -/
theorem dmaRead_eq_error_iff {p : Platform} {m : Memory} {a n : Nat} {x : Abort} :
    dmaRead p m a n = .error x ↔ ∃ y, x = .bus y ∧ firstRefused (dmaReadOK p) a n = some y := by
  unfold dmaRead
  cases firstRefused _ a _ <;> simp [eq_comm]

/-- A write fails only by a refused byte, the first. -/
theorem dmaWrite_eq_error_iff {p : Platform} {m : Memory} {a : Nat} {b : List Byte} {x : Abort} :
    dmaWrite p m a b = .error x ↔ ∃ y, x = .bus y ∧ firstRefused (dmaWriteOK p) a b.length = some y := by
  unfold dmaWrite
  cases firstRefused _ a _ <;> simp [eq_comm]

/-! ### Free values -/

@[simp] theorem length_drawBytes (c n : Nat) : (drawBytes c n).length = n := by
  induction n generalizing c with
  | zero => rfl
  | succ n ih => simp [drawBytes, ih]

theorem getElem_drawBytes (c n i : Nat) (h : i < (drawBytes c n).length) :
    (drawBytes c n)[i] = Config.drawByte (c + i) := by
  induction n generalizing c i with
  | zero => simp [drawBytes] at h
  | succ n ih =>
    cases i with
    | zero => simp [drawBytes]
    | succ i => simp [drawBytes, ih, Nat.add_assoc, Nat.add_comm 1 i]

theorem unspecify_empty (m : Memory) (c : Nat) : unspecify m emptyRegion c = m := by
  simp [unspecify, bytesInSpace, emptyRegion, drawBytes, Memory.writeBytes]

/-- Bytes outside the region stay. -/
theorem read_unspecify_of_outside (m : Memory) (r : Region) (c x : Nat) (h : regionHas r x = false) :
    Memory.read (unspecify m r c) x = Memory.read m x := by
  apply Memory.read_writeBytes_of_outside
  simp only [regionHas, Bool.and_eq_false_iff, decide_eq_false_iff_not] at h
  simp only [length_drawBytes, bytesInSpace]
  omega

/-- Each byte of the region is a draw of its own. -/
theorem read_unspecify_of_inside (m : Memory) (r : Region) (c i : Nat) (h : i < r.size) (hs : r.base + i < dmaSize) :
    Memory.read (unspecify m r c) (r.base + i) = Config.drawByte (c + i) := by
  have hi : i < (drawBytes c (bytesInSpace r)).length := by simp only [length_drawBytes, bytesInSpace]; omega
  rw [unspecify, Memory.read_writeBytes_of_inside _ _ _ _ hi, getElem_drawBytes]

theorem Memory.wf_unspecify {m : Memory} (h : Memory.wf m) (r : Region) (c : Nat) : Memory.wf (unspecify m r c) := by
  apply Memory.wf_writeBytes h
  simp only [length_drawBytes, bytesInSpace]
  by_cases hz : min r.size (dmaSize - r.base) = 0
  · exact .inl (by simp [hz, drawBytes])
  · exact .inr (by omega)

/-! ### Regions -/

theorem regionHas_iff (r : Region) (a : Nat) : regionHas r a = true ↔ r.base ≤ a ∧ a < r.base + r.size := by
  simp [regionHas]

theorem not_wraps_iff (r : Region) : wraps r = false ↔ r.size = 0 ∨ r.base + r.size ≤ dmaSize := by
  simp [wraps, Nat.pos_iff_ne_zero]
  omega

end Sys2Proof.Machine
end

