-- ==== Sys2Proof/Laws/Cipher.lean ====
section
/-! SUPPORT. The CBC passes over memory compute the byte-string contracts, in place or between disjoint buffers. -/

namespace Sys2Proof.Machine

/-! ### Byte strings and blocks -/

@[simp] theorem length_bytesOf (bs : List Block) : (bytesOf bs).length = 16 * bs.length := by
  induction bs with
  | nil => rfl
  | cons b bs ih =>
    rw [bytesOf, List.flatMap_cons, List.length_append, Block.length_bytes]
    rw [bytesOf] at ih
    simp only [ih, List.length_cons]
    omega

@[simp] theorem bytesOf_nil : bytesOf [] = [] := rfl

@[simp] theorem bytesOf_cons (b : Block) (bs : List Block) : bytesOf (b :: bs) = b.bytes ++ bytesOf bs := rfl

@[simp] theorem length_blocksOf (n : Nat) (b : List Byte) : (blocksOf n b).length = n := by
  induction n generalizing b with
  | zero => rfl
  | succ n ih => simp [blocksOf, ih]

@[simp] theorem length_cbcEncryptBlocks (k : RoundKeys) (prev : Block) (xs : List Block) :
    (cbcEncryptBlocks k prev xs).length = xs.length := by
  induction xs generalizing prev with
  | nil => rfl
  | cons x xs ih => simp [cbcEncryptBlocks, ih]

@[simp] theorem length_cbcDecryptBlocks (k : RoundKeys) (prev : Block) (cs : List Block) :
    (cbcDecryptBlocks k prev cs).length = cs.length := by
  induction cs generalizing prev with
  | nil => rfl
  | cons c cs ih => simp [cbcDecryptBlocks, ih]

theorem blocksOf_append (n : Nat) (b rest : List Byte) (h : b.length = 16) :
    blocksOf (n + 1) (b ++ rest) = Block.ofBytes b :: blocksOf n rest := by
  rw [blocksOf, List.take_left' h, List.drop_left' h]

theorem blocksOf_bytesOf (bs : List Block) (rest : List Byte) : blocksOf bs.length (bytesOf bs ++ rest) = bs := by
  induction bs with
  | nil => rfl
  | cons b bs ih =>
    have h1 : (b.bytes ++ (bytesOf bs ++ rest)).take 16 = b.bytes := List.take_left' rfl
    have h2 : (b.bytes ++ (bytesOf bs ++ rest)).drop 16 = bytesOf bs ++ rest := List.drop_left' rfl
    simp only [List.length_cons, bytesOf_cons, List.append_assoc, blocksOf, h1, h2, Block.ofBytes_bytes, ih]

theorem bytesOf_blocksOf (n : Nat) (b : List Byte) (h : b.length = 16 * n) : bytesOf (blocksOf n b) = b := by
  induction n generalizing b with
  | zero =>
    have : b = [] := List.length_eq_zero_iff.mp (by omega)
    subst this; rfl
  | succ n ih =>
    rw [blocksOf, bytesOf_cons, Block.bytes_ofBytes (by simp; omega), ih _ (by simp; omega), List.take_append_drop]

/-- Decryption undoes encryption, block by block. -/
theorem cbcDecryptBlocks_cbcEncryptBlocks (k : RoundKeys) (prev : Block) (xs : List Block) :
    cbcDecryptBlocks k prev (cbcEncryptBlocks k prev xs) = xs := by
  induction xs generalizing prev with
  | nil => rfl
  | cons x xs ih => simp [cbcEncryptBlocks, cbcDecryptBlocks, ih]

/-! ### Padding -/

theorem length_padded (p : List Byte) : (padded p).length = 16 * (p.length / 16 + 1) := by
  simp [padded]
  omega

theorem padLast_eq_padded (tail : List Byte) (h : tail.length < 16) : padLast tail = padded tail := by
  simp [padLast, padded, Nat.mod_eq_of_lt h]

@[simp] theorem length_padLast (tail : List Byte) (h : tail.length ≤ 16) : (padLast tail).length = 16 := by
  simp [padLast]
  omega

/-- A padding of K bytes is accepted, whatever stands before it. -/
theorem padOK_append_replicate (x : List Byte) (k : Nat) (h1 : 1 ≤ k) (hx : x.length + k = 16) :
    padOK (x ++ List.replicate k (BitVec.ofNat 8 k)) = true := by
  have hk : ((x ++ List.replicate k (BitVec.ofNat 8 k)).getD 15 0) = BitVec.ofNat 8 k := by
    rw [List.getD_append_right _ _ _ _ (by omega), List.getD_replicate _ (by omega)]
  have hn : (BitVec.ofNat 8 k).toNat = k := by simp; omega
  simp only [padOK, hk, hn]
  rw [List.drop_left' (by omega)]
  simp
  omega

/-- The last byte of such a padding is K. -/
theorem getD_append_replicate (x : List Byte) (k : Nat) (h1 : 1 ≤ k) (hx : x.length + k = 16) :
    ((x ++ List.replicate k (BitVec.ofNat 8 k)).getD 15 0).toNat = k := by
  rw [List.getD_append_right _ _ _ _ (by omega), List.getD_replicate _ (by omega)]
  simp
  omega

/-- An accepted padding has a length from 1 to 16. -/
theorem padOK_bounds {h : List Byte} (ok : padOK h = true) :
    1 ≤ (h.getD 15 0).toNat ∧ (h.getD 15 0).toNat ≤ 16 := by
  simp only [padOK, Bool.and_eq_true, decide_eq_true_eq] at ok
  exact ok.1

/-! ### The contracts -/

theorem length_encrypt (key iv p : List Byte) : (encrypt key iv p).length = paddedLength p.length := by
  simp [encrypt, paddedLength]

theorem length_decryptPadded (key iv c : List Byte) : (decryptPadded key iv c).length = 16 * (c.length / 16) := by
  simp [decryptPadded]

theorem decryptPadded_encrypt (key iv p : List Byte) : decryptPadded key iv (encrypt key iv p) = padded p := by
  have h : (encrypt key iv p).length / 16 = p.length / 16 + 1 := by
    rw [length_encrypt, paddedLength]; omega
  rw [decryptPadded, h]
  have := blocksOf_bytesOf (cbcEncryptBlocks (expandKey key) (Block.ofBytes iv)
    (blocksOf (p.length / 16 + 1) (padded p))) []
  simp only [List.append_nil, length_cbcEncryptBlocks, length_blocksOf] at this
  rw [encrypt, this, cbcDecryptBlocks_cbcEncryptBlocks, bytesOf_blocksOf _ _ (length_padded p)]

/-- The contracts' round trip: decryption of an encryption gives the plaintext back (42_cipher.md R252). -/
theorem decrypt_encrypt (key iv p : List Byte) : decrypt key iv (encrypt key iv p) = some p := by
  have hk : 1 ≤ 16 - p.length % 16 := by omega
  have hsplit : padded p = p.take (16 * (p.length / 16)) ++
      (p.drop (16 * (p.length / 16)) ++
        List.replicate (16 - p.length % 16) (BitVec.ofNat 8 (16 - p.length % 16))) := by
    rw [padded, ← List.append_assoc, List.take_append_drop]
  have hlast : (padded p).drop ((padded p).length - 16) = p.drop (16 * (p.length / 16)) ++
      List.replicate (16 - p.length % 16) (BitVec.ofNat 8 (16 - p.length % 16)) := by
    rw [length_padded, hsplit]
    exact List.drop_left' (by simp; omega)
  have hlen : (p.drop (16 * (p.length / 16))).length + (16 - p.length % 16) = 16 := by simp; omega
  simp only [decrypt, decryptPadded_encrypt, hlast, padOK_append_replicate _ _ hk hlen, if_true,
    getD_append_replicate _ _ hk hlen]
  congr 1
  rw [length_padded, padded]
  exact List.take_left' (by omega)

/-! ### The passes over memory -/

theorem Memory.writeBytes_append (m : Memory) (a : Nat) (b c : List Byte) :
    Memory.writeBytes m a (b ++ c) = Memory.writeBytes (Memory.writeBytes m a b) (a + b.length) c := by
  induction b generalizing m a with
  | nil => rfl
  | cons x b ih => simp [Memory.writeBytes, ih, Nat.add_assoc, Nat.add_comm 1 b.length]

theorem dmaRead_ok {p : Platform} {a n : Nat} (m : Memory) (h : ReadAdmitted p a n) :
    dmaRead p m a n = .ok (Memory.readBytes m a n) := dmaRead_eq_ok_iff.mpr ⟨h, rfl⟩

theorem dmaWrite_ok {p : Platform} {a : Nat} (m : Memory) (b : List Byte) (h : WriteAdmitted p a b.length) :
    dmaWrite p m a b = .ok (Memory.writeBytes m a b) := dmaWrite_eq_ok_iff.mpr ⟨h, rfl⟩

theorem ReadAdmitted.mono {p : Platform} {a n a' n' : Nat} (h : ReadAdmitted p a n) (h1 : a ≤ a')
    (h2 : a' + n' ≤ a + n) : ReadAdmitted p a' n' := fun i hi => by
  have := h (a' - a + i) (by omega)
  rwa [show a + (a' - a + i) = a' + i by omega] at this

theorem WriteAdmitted.mono {p : Platform} {a n a' n' : Nat} (h : WriteAdmitted p a n) (h1 : a ≤ a')
    (h2 : a' + n' ≤ a + n) : WriteAdmitted p a' n' := fun i hi => by
  have := h (a' - a + i) (by omega)
  rwa [show a + (a' - a + i) = a' + i by omega] at this

/-- `CbcEncryptPass`, every access admitted: memory with the ciphertext of the input as it stood before the pass. -/
theorem cbcEncryptFrom_eq (p : Platform) (k : RoundKeys) (r n : Nat) (prev : Block) (m : Memory) (inA outA : Nat)
    (hr : r < 16) (hread : ReadAdmitted p inA (16 * n + r)) (hwrite : WriteAdmitted p outA (16 * (n + 1)))
    (hlegal : PassLegal inA (16 * n + r) outA (16 * (n + 1))) :
    cbcEncryptFrom p k r n prev m inA outA =
      .ok (Memory.writeBytes m outA (bytesOf (cbcEncryptBlocks k prev
        (blocksOf (n + 1) (padded (Memory.readBytes m inA (16 * n + r))))))) := by
  induction n generalizing prev m inA outA with
  | zero =>
    have ht : (Memory.readBytes m inA r).length < 16 := by simpa using hr
    have hpad : (padded (Memory.readBytes m inA r)).take 16 = padded (Memory.readBytes m inA r) :=
      List.take_of_length_le (by rw [length_padded]; simp; omega)
    rw [Nat.mul_zero, Nat.zero_add] at hread
    simp only [cbcEncryptFrom, dmaRead_ok m hread]
    rw [dmaWrite_ok _ _ (by simpa using hwrite), padLast_eq_padded _ ht]
    simp [blocksOf, cbcEncryptBlocks, hpad]
  | succ n ih =>
    have e16 : 16 * (n + 1) + r = 16 + (16 * n + r) := by omega
    have hrb := Memory.readBytes_add m inA 16 (16 * n + r)
    simp only [cbcEncryptFrom, dmaRead_ok m (hread.mono (a' := inA) (n' := 16) (by omega) (by omega))]
    rw [dmaWrite_ok _ _ (hwrite.mono (by omega) (by simp))]
    simp only
    rw [ih _ _ (inA + 16) (outA + 16) (hread.mono (by omega) (by omega)) (hwrite.mono (by omega) (by omega))
      (by unfold PassLegal at hlegal ⊢; omega)]
    have hkeep : Memory.readBytes (Memory.writeBytes m outA
        (aesEncBlock k ((Block.ofBytes (Memory.readBytes m inA 16)).xor prev)).bytes) (inA + 16) (16 * n + r) =
        Memory.readBytes m (inA + 16) (16 * n + r) := by
      rcases Nat.eq_zero_or_pos (16 * n + r) with h0 | h0
      · simp [h0]
      · apply Memory.readBytes_writeBytes_of_disjoint
        unfold PassLegal at hlegal
        simp only [Block.length_bytes]
        omega
    have hpadded : padded (Memory.readBytes m inA (16 * (n + 1) + r)) =
        Memory.readBytes m inA 16 ++ padded (Memory.readBytes m (inA + 16) (16 * n + r)) := by
      rw [e16, hrb, padded, padded]
      have : (Memory.readBytes m inA 16 ++ Memory.readBytes m (inA + 16) (16 * n + r)).length % 16 =
          (Memory.readBytes m (inA + 16) (16 * n + r)).length % 16 := by simp
      rw [this, List.append_assoc]
    rw [hkeep, hpadded, blocksOf_append _ _ _ (by simp), cbcEncryptBlocks, bytesOf_cons, Memory.writeBytes_append,
      Block.length_bytes]

theorem keptBytes_of_ok {last : List Byte} (h : padOK last = true) : keptBytes last = 16 - (last.getD 15 0).toNat :=
  if_pos h

theorem keptBytes_lt (last : List Byte) : keptBytes last < 16 := by
  unfold keptBytes
  split
  · rename_i h
    have := padOK_bounds h
    omega
  · decide

/-- `CbcDecryptPass`, every access it makes admitted: the padded plaintext X of the input as it stood before the pass
is written but for the last block, of which the unpadded bytes are written when the padding is good. -/
theorem cbcDecryptFrom_eq (p : Platform) (k : RoundKeys) (n : Nat) (prev : Block) (m : Memory) (inA outA : Nat)
    (x : List Byte)
    (hx : x = bytesOf (cbcDecryptBlocks k prev (blocksOf (n + 1) (Memory.readBytes m inA (16 * (n + 1))))))
    (hread : ReadAdmitted p inA (16 * (n + 1)))
    (hwrite : WriteAdmitted p outA (16 * n + keptBytes (x.drop (16 * n))))
    (hlegal : PassLegal inA (16 * (n + 1)) outA (16 * (n + 1))) :
    cbcDecryptFrom p k n prev m inA outA =
      if padOK (x.drop (16 * n)) then
        .ok (Memory.writeBytes m outA (x.take (16 * (n + 1) - ((x.drop (16 * n)).getD 15 0).toNat)),
          ((x.drop (16 * n)).getD 15 0).toNat)
      else .error (.padding (Memory.writeBytes m outA (x.take (16 * n)))) := by
  induction n generalizing prev m inA outA x with
  | zero =>
    have hb : (Memory.readBytes m inA 16).take 16 = Memory.readBytes m inA 16 := List.take_of_length_le (by simp)
    simp only [blocksOf, Nat.zero_add, Nat.mul_one, hb, cbcDecryptBlocks, bytesOf_cons, bytesOf_nil,
      List.append_nil] at hx
    subst hx
    simp only [Nat.mul_zero, List.drop_zero, Nat.zero_add] at hwrite
    simp only [cbcDecryptFrom, dmaRead_ok m hread, Nat.mul_zero, List.drop_zero, List.take_zero, Memory.writeBytes]
    split
    · rename_i hok
      rw [keptBytes_of_ok hok] at hwrite
      rw [dmaWrite_ok _ _ (hwrite.mono (le_refl _) (by simp))]
    · rfl
  | succ n ih =>
    have hb : (Memory.readBytes m inA 16).length = 16 := by simp
    rw [show 16 * (n + 1 + 1) = 16 + 16 * (n + 1) by omega, Memory.readBytes_add, blocksOf_append _ _ _ hb,
      cbcDecryptBlocks, bytesOf_cons] at hx
    generalize hy : (aesDecBlock k (Block.ofBytes (Memory.readBytes m inA 16))).xor prev = y at hx
    generalize hz : bytesOf (cbcDecryptBlocks k (Block.ofBytes (Memory.readBytes m inA 16))
      (blocksOf (n + 1) (Memory.readBytes m (inA + 16) (16 * (n + 1))))) = z at hx
    have hdrop : x.drop (16 * (n + 1)) = z.drop (16 * n) := by
      rw [hx, show 16 * (n + 1) = y.bytes.length + 16 * n by simp; omega, List.drop_append,
        List.drop_eq_nil_of_le (by omega), Nat.add_sub_cancel_left, List.nil_append]
    have htake : ∀ j, x.take (16 + j) = y.bytes ++ z.take j := by
      intro j
      rw [hx, show 16 + j = y.bytes.length + j by simp, List.take_append, List.take_of_length_le (by omega),
        Nat.add_sub_cancel_left]
    have hkeep : Memory.readBytes (Memory.writeBytes m outA y.bytes) (inA + 16) (16 * (n + 1)) =
        Memory.readBytes m (inA + 16) (16 * (n + 1)) := by
      apply Memory.readBytes_writeBytes_of_disjoint
      unfold PassLegal at hlegal
      simp only [Block.length_bytes]
      omega
    rw [hdrop] at hwrite ⊢
    simp only [cbcDecryptFrom, dmaRead_ok m (hread.mono (a' := inA) (n' := 16) (by omega) (by omega)), hy]
    rw [dmaWrite_ok _ _ (hwrite.mono (by omega) (by simp; omega))]
    simp only
    rw [ih _ _ (inA + 16) (outA + 16) z (by rw [hkeep, hz]) (hread.mono (by omega) (by omega))
      (hwrite.mono (by omega) (by omega)) (by unfold PassLegal at hlegal ⊢; omega)]
    split
    · rename_i hok
      have hbd := padOK_bounds hok
      rw [show 16 * (n + 1 + 1) - ((z.drop (16 * n)).getD 15 0).toNat =
        16 + (16 * (n + 1) - ((z.drop (16 * n)).getD 15 0).toNat) by omega, htake, Memory.writeBytes_append,
        Block.length_bytes]
    · rw [show 16 * (n + 1) = 16 + 16 * n by omega, htake, Memory.writeBytes_append, Block.length_bytes]

end Sys2Proof.Machine
end

