-- ==== Sys2Proof/Laws/Access.lean ====
section
/-! SUPPORT. The passes make the accesses of 20_memory.md R95 in their order: the first refused one ends them. And what
a pass writes lies in its output region. -/

namespace Sys2Proof.Machine

/-! ### The first refused access -/

@[simp] theorem firstRefusedAccess_nil (p : Platform) : firstRefusedAccess p [] = none := rfl

/-- In two orders one after the other, a refusal in the first comes first. -/
theorem firstRefusedAccess_append (p : Platform) (x y : List Access) :
    firstRefusedAccess p (x ++ y) = (firstRefusedAccess p x).or (firstRefusedAccess p y) := by
  simp only [firstRefusedAccess, List.find?_append]
  cases x.find? _ <;> simp

theorem firstRefusedAccess_readsAt (p : Platform) (a n : Nat) :
    firstRefusedAccess p (readsAt a n) = firstRefused (dmaReadOK p) a n := by
  induction n generalizing a with
  | zero => rfl
  | succ n ih =>
    simp only [readsAt, firstRefused, firstRefusedAccess, List.find?_cons, Access.admitted] at ih ⊢
    cases h : dmaReadOK p a <;> simp [Access.addr, ih]

theorem firstRefusedAccess_writesAt (p : Platform) (a n : Nat) :
    firstRefusedAccess p (writesAt a n) = firstRefused (dmaWriteOK p) a n := by
  induction n generalizing a with
  | zero => rfl
  | succ n ih =>
    simp only [writesAt, firstRefused, firstRefusedAccess, List.find?_cons, Access.admitted] at ih ⊢
    cases h : dmaWriteOK p a <;> simp [Access.addr, ih]

/-- An admitted read, by its order of accesses. -/
theorem dmaRead_eq (p : Platform) (m : Memory) (a n : Nat) :
    dmaRead p m a n = match firstRefusedAccess p (readsAt a n) with
      | some x => .error (.bus x)
      | none => .ok (Memory.readBytes m a n) := by
  rw [firstRefusedAccess_readsAt]; rfl

/-- An admitted write, by its order of accesses. -/
theorem dmaWrite_eq (p : Platform) (m : Memory) (a : Nat) (b : List Byte) :
    dmaWrite p m a b = match firstRefusedAccess p (writesAt a b.length) with
      | some x => .error (.bus x)
      | none => .ok (Memory.writeBytes m a b) := by
  rw [firstRefusedAccess_writesAt]; rfl

/-- Nothing refused in a list of reads: the region is admitted. -/
theorem readAdmitted_of_none {p : Platform} {a n : Nat} (h : firstRefusedAccess p (readsAt a n) = none) :
    ReadAdmitted p a n := (firstRefused_eq_none_iff _ _ _).mp (by rwa [firstRefusedAccess_readsAt] at h)

theorem writeAdmitted_of_none {p : Platform} {a n : Nat} (h : firstRefusedAccess p (writesAt a n) = none) :
    WriteAdmitted p a n := (firstRefused_eq_none_iff _ _ _).mp (by rwa [firstRefusedAccess_writesAt] at h)

/-- A region that is admitted refuses no access. -/
theorem firstRefusedAccess_reads_none {p : Platform} {a n : Nat} (h : ReadAdmitted p a n) :
    firstRefusedAccess p (readsAt a n) = none := by
  rw [firstRefusedAccess_readsAt]; exact (firstRefused_eq_none_iff _ _ _).mpr h

theorem firstRefusedAccess_writes_none {p : Platform} {a n : Nat} (h : WriteAdmitted p a n) :
    firstRefusedAccess p (writesAt a n) = none := by
  rw [firstRefusedAccess_writesAt]; exact (firstRefused_eq_none_iff _ _ _).mpr h

/-! ### The passes -/

/-- `CbcEncryptPass` ends early exactly at the first refused access of its order. -/
theorem cbcEncryptFrom_eq_error_iff (p : Platform) (k : RoundKeys) (r n : Nat) (prev : Block) (m : Memory)
    (inA outA : Nat) (x : Abort) :
    cbcEncryptFrom p k r n prev m inA outA = .error x ↔
      ∃ a, x = .bus a ∧ firstRefusedAccess p (encOrder r n inA outA) = some a := by
  induction n generalizing prev m inA outA with
  | zero =>
    simp only [cbcEncryptFrom, encOrder, dmaRead_eq, dmaWrite_eq, firstRefusedAccess_append, Block.length_bytes]
    cases firstRefusedAccess p (readsAt inA r) <;>
      cases firstRefusedAccess p (writesAt outA 16) <;> simp [eq_comm]
  | succ n ih =>
    simp only [cbcEncryptFrom, encOrder, dmaRead_eq, dmaWrite_eq, firstRefusedAccess_append, Block.length_bytes]
    cases firstRefusedAccess p (readsAt inA 16) with
    | some y => simp [eq_comm]
    | none =>
      cases firstRefusedAccess p (writesAt outA 16) with
      | some y => simp [eq_comm]
      | none => simp [ih]

/-- A byte string is written in two parts. -/
theorem exists_writeBytes_append {m : Memory} {a n k : Nat} {b : List Byte} {m' : Memory} (hb : b.length = n)
    (h : ∃ c, c.length = k ∧ m' = Memory.writeBytes (Memory.writeBytes m a b) (a + n) c) :
    ∃ c, c.length = n + k ∧ m' = Memory.writeBytes m a c := by
  obtain ⟨c, hc, rfl⟩ := h
  exact ⟨b ++ c, by simp [hb, hc], by rw [Memory.writeBytes_append, hb]⟩

/-- What `CbcEncryptPass` writes is its output region, whatever the buffers. -/
theorem cbcEncryptFrom_writes {p : Platform} {k : RoundKeys} {r n : Nat} {prev : Block} {m m' : Memory}
    {inA outA : Nat} (h : cbcEncryptFrom p k r n prev m inA outA = .ok m') :
    ∃ b, b.length = 16 * (n + 1) ∧ m' = Memory.writeBytes m outA b := by
  induction n generalizing prev m inA outA with
  | zero =>
    simp only [cbcEncryptFrom] at h
    split at h
    · cases h
    · exact ⟨_, by simp, (dmaWrite_eq_ok_iff.mp h).2⟩
  | succ n ih =>
    simp only [cbcEncryptFrom] at h
    split at h
    · cases h
    split at h
    · cases h
    rename_i m1 hw
    obtain rfl := (dmaWrite_eq_ok_iff.mp hw).2
    obtain ⟨c, hc, hm⟩ := exists_writeBytes_append (n := 16) rfl (ih h)
    exact ⟨c, by omega, hm⟩

/-- What `CbcDecryptPass` writes on success: all of its output region but the pad. -/
theorem cbcDecryptFrom_writes {p : Platform} {k : RoundKeys} {n pad : Nat} {prev : Block} {m m' : Memory}
    {inA outA : Nat} (h : cbcDecryptFrom p k n prev m inA outA = .ok (m', pad)) :
    1 ≤ pad ∧ pad ≤ 16 ∧ ∃ b, b.length = 16 * (n + 1) - pad ∧ m' = Memory.writeBytes m outA b := by
  induction n generalizing prev m inA outA with
  | zero =>
    simp only [cbcDecryptFrom] at h
    split at h
    · cases h
    split at h
    · rename_i hok
      have hbd := padOK_bounds hok
      split at h
      · cases h
      · rename_i m1 hw
        obtain ⟨rfl, rfl⟩ := Prod.mk.inj (Except.ok.inj h)
        exact ⟨hbd.1, hbd.2, _, by simp, (dmaWrite_eq_ok_iff.mp hw).2⟩
    · cases h
  | succ n ih =>
    simp only [cbcDecryptFrom] at h
    split at h
    · cases h
    split at h
    · cases h
    rename_i m1 hw
    obtain rfl := (dmaWrite_eq_ok_iff.mp hw).2
    obtain ⟨h1, h2, hc⟩ := ih h
    obtain ⟨c, hc, hm⟩ := exists_writeBytes_append (n := 16) rfl hc
    exact ⟨h1, h2, c, by omega, hm⟩

/-- What `CbcDecryptPass` has written when the padding is bad: all blocks but the last. -/
theorem cbcDecryptFrom_padding_writes {p : Platform} {k : RoundKeys} {n : Nat} {prev : Block} {m m' : Memory}
    {inA outA : Nat} (h : cbcDecryptFrom p k n prev m inA outA = .error (.padding m')) :
    ∃ b, b.length = 16 * n ∧ m' = Memory.writeBytes m outA b := by
  induction n generalizing prev m inA outA with
  | zero =>
    simp only [cbcDecryptFrom] at h
    split at h
    · rename_i hr
      obtain ⟨y, rfl, -⟩ := dmaRead_eq_error_iff.mp hr
      cases h
    split at h
    · split at h
      · rename_i hw
        obtain ⟨y, rfl, -⟩ := dmaWrite_eq_error_iff.mp hw
        cases h
      · cases h
    · obtain rfl := Abort.padding.inj (Except.error.inj h)
      exact ⟨[], rfl, rfl⟩
  | succ n ih =>
    simp only [cbcDecryptFrom] at h
    split at h
    · rename_i hr
      obtain ⟨y, rfl, -⟩ := dmaRead_eq_error_iff.mp hr
      cases h
    split at h
    · rename_i hw
      obtain ⟨y, rfl, -⟩ := dmaWrite_eq_error_iff.mp hw
      cases h
    rename_i m1 hw
    obtain rfl := (dmaWrite_eq_ok_iff.mp hw).2
    obtain ⟨c, hc, hm⟩ := exists_writeBytes_append (n := 16) rfl (ih h)
    exact ⟨c, by omega, hm⟩

/-- `CbcDecryptPass` ends with a refused access exactly at the first refused one of its order, in which the last write
is as long as the padding of the input, as it stood before the pass, leaves. -/
theorem cbcDecryptFrom_eq_bus_iff (p : Platform) (k : RoundKeys) (n : Nat) (prev : Block) (m : Memory)
    (inA outA a : Nat) (hlegal : PassLegal inA (16 * (n + 1)) outA (16 * (n + 1))) :
    cbcDecryptFrom p k n prev m inA outA = .error (.bus a) ↔
      firstRefusedAccess p (decOrder
        (keptBytes ((bytesOf (cbcDecryptBlocks k prev
          (blocksOf (n + 1) (Memory.readBytes m inA (16 * (n + 1)))))).drop (16 * n)))
        n inA outA) = some a := by
  induction n generalizing prev m inA outA with
  | zero =>
    have hb : (Memory.readBytes m inA 16).take 16 = Memory.readBytes m inA 16 := List.take_of_length_le (by simp)
    simp only [cbcDecryptFrom, decOrder, dmaRead_eq, firstRefusedAccess_append, blocksOf, hb, cbcDecryptBlocks,
      bytesOf_cons, bytesOf_nil, List.append_nil, Nat.mul_zero, List.drop_zero, Nat.zero_add, Nat.mul_one, keptBytes]
    cases firstRefusedAccess p (readsAt inA 16) with
    | some x => simp
    | none =>
      simp only [Option.none_or]
      split
      · rename_i hok
        have hbd := padOK_bounds hok
        rw [dmaWrite_eq, List.length_take, Block.length_bytes, Nat.min_eq_left (by omega)]
        cases firstRefusedAccess p (writesAt outA _) <;> simp
      · simp [writesAt]
  | succ n ih =>
    have hb : (Memory.readBytes m inA 16).length = 16 := by simp
    have hkeep : Memory.readBytes (Memory.writeBytes m outA
        ((aesDecBlock k (Block.ofBytes (Memory.readBytes m inA 16))).xor prev).bytes) (inA + 16) (16 * (n + 1)) =
        Memory.readBytes m (inA + 16) (16 * (n + 1)) := by
      apply Memory.readBytes_writeBytes_of_disjoint
      unfold PassLegal at hlegal
      simp only [Block.length_bytes]
      omega
    have hdrop : ∀ (y : Block) (x : List Byte), (y.bytes ++ x).drop (16 * (n + 1)) = x.drop (16 * n) := by
      intro y x
      rw [show 16 * (n + 1) = y.bytes.length + 16 * n by simp; omega, List.drop_append,
        List.drop_eq_nil_of_le (by omega), Nat.add_sub_cancel_left, List.nil_append]
    rw [show 16 * (n + 1 + 1) = 16 + 16 * (n + 1) by omega, Memory.readBytes_add, blocksOf_append _ _ _ hb,
      cbcDecryptBlocks, bytesOf_cons, hdrop]
    simp only [cbcDecryptFrom, decOrder, dmaRead_eq, dmaWrite_eq, firstRefusedAccess_append, Block.length_bytes]
    cases firstRefusedAccess p (readsAt inA 16) with
    | some x => simp
    | none =>
      cases firstRefusedAccess p (writesAt outA 16) with
      | some x => simp
      | none =>
        simp only [Option.none_or]
        rw [ih _ _ (inA + 16) (outA + 16) (by unfold PassLegal at hlegal ⊢; omega), hkeep]

/-- An order of encryption that refuses nothing admits both regions. -/
theorem encOrder_admitted {p : Platform} {r n inA outA : Nat} (h : firstRefusedAccess p (encOrder r n inA outA) = none) :
    ReadAdmitted p inA (16 * n + r) ∧ WriteAdmitted p outA (16 * (n + 1)) := by
  induction n generalizing inA outA with
  | zero =>
    simp only [encOrder, firstRefusedAccess_append, Option.or_eq_none_iff] at h
    exact ⟨by simpa using readAdmitted_of_none h.1, by simpa using writeAdmitted_of_none h.2⟩
  | succ n ih =>
    simp only [encOrder, firstRefusedAccess_append, Option.or_eq_none_iff] at h
    obtain ⟨⟨h1, h2⟩, h3⟩ := h
    obtain ⟨i1, i2⟩ := ih h3
    have r1 := readAdmitted_of_none h1
    have w1 := writeAdmitted_of_none h2
    refine ⟨fun i hi => ?_, fun i hi => ?_⟩
    · by_cases hlt : i < 16
      · exact r1 i hlt
      · have := i1 (i - 16) (by omega)
        rwa [show inA + 16 + (i - 16) = inA + i by omega] at this
    · by_cases hlt : i < 16
      · exact w1 i hlt
      · have := i2 (i - 16) (by omega)
        rwa [show outA + 16 + (i - 16) = outA + i by omega] at this

/-- An order of decryption that refuses nothing admits what is read and what is written. -/
theorem decOrder_admitted {p : Platform} {keep n inA outA : Nat}
    (h : firstRefusedAccess p (decOrder keep n inA outA) = none) :
    ReadAdmitted p inA (16 * (n + 1)) ∧ WriteAdmitted p outA (16 * n + keep) := by
  induction n generalizing inA outA with
  | zero =>
    simp only [decOrder, firstRefusedAccess_append, Option.or_eq_none_iff] at h
    exact ⟨by simpa using readAdmitted_of_none h.1, by simpa using writeAdmitted_of_none h.2⟩
  | succ n ih =>
    simp only [decOrder, firstRefusedAccess_append, Option.or_eq_none_iff] at h
    obtain ⟨⟨h1, h2⟩, h3⟩ := h
    obtain ⟨i1, i2⟩ := ih h3
    have r1 := readAdmitted_of_none h1
    have w1 := writeAdmitted_of_none h2
    refine ⟨fun i hi => ?_, fun i hi => ?_⟩
    · by_cases hlt : i < 16
      · exact r1 i hlt
      · have := i1 (i - 16) (by omega)
        rwa [show inA + 16 + (i - 16) = inA + i by omega] at this
    · by_cases hlt : i < 16
      · exact w1 i hlt
      · have := i2 (i - 16) (by omega)
        rwa [show outA + 16 + (i - 16) = outA + i by omega] at this

/-- What is read and what is written admitted: the order of decryption refuses nothing. -/
theorem decOrder_none {p : Platform} {keep n inA outA : Nat} (h1 : ReadAdmitted p inA (16 * (n + 1)))
    (h2 : WriteAdmitted p outA (16 * n + keep)) : firstRefusedAccess p (decOrder keep n inA outA) = none := by
  induction n generalizing inA outA with
  | zero =>
    simp only [decOrder, firstRefusedAccess_append, Option.or_eq_none_iff]
    exact ⟨firstRefusedAccess_reads_none (by simpa using h1), firstRefusedAccess_writes_none (by simpa using h2)⟩
  | succ n ih =>
    simp only [decOrder, firstRefusedAccess_append, Option.or_eq_none_iff]
    exact ⟨⟨firstRefusedAccess_reads_none (h1.mono (by omega) (by omega)),
      firstRefusedAccess_writes_none (h2.mono (by omega) (by omega))⟩,
      ih (h1.mono (by omega) (by omega)) (h2.mono (by omega) (by omega))⟩

/-- Both regions admitted: the order of encryption refuses nothing. -/
theorem encOrder_none {p : Platform} {r n inA outA : Nat} (h1 : ReadAdmitted p inA (16 * n + r))
    (h2 : WriteAdmitted p outA (16 * (n + 1))) : firstRefusedAccess p (encOrder r n inA outA) = none := by
  induction n generalizing inA outA with
  | zero =>
    simp only [encOrder, firstRefusedAccess_append, Option.or_eq_none_iff]
    exact ⟨firstRefusedAccess_reads_none (by simpa using h1), firstRefusedAccess_writes_none (by simpa using h2)⟩
  | succ n ih =>
    simp only [encOrder, firstRefusedAccess_append, Option.or_eq_none_iff]
    exact ⟨⟨firstRefusedAccess_reads_none (h1.mono (by omega) (by omega)),
      firstRefusedAccess_writes_none (h2.mono (by omega) (by omega))⟩,
      ih (h1.mono (by omega) (by omega)) (h2.mono (by omega) (by omega))⟩

/-! ### Where the accesses go -/

theorem mem_readsAt {a n : Nat} {x : Access} (h : x ∈ readsAt a n) : a ≤ x.addr ∧ x.addr < a + n := by
  induction n generalizing a with
  | zero => cases h
  | succ n ih =>
    rcases List.mem_cons.mp h with rfl | h
    · simp [Access.addr]
    · have := ih h
      omega

theorem mem_writesAt {a n : Nat} {x : Access} (h : x ∈ writesAt a n) : a ≤ x.addr ∧ x.addr < a + n := by
  induction n generalizing a with
  | zero => cases h
  | succ n ih =>
    rcases List.mem_cons.mp h with rfl | h
    · simp [Access.addr]
    · have := ih h
      omega

/-- The accesses of encryption lie in the input and the output. -/
theorem mem_encOrder {r n inA outA : Nat} {x : Access} (h : x ∈ encOrder r n inA outA) :
    x.addr < inA + (16 * n + r) ∨ x.addr < outA + 16 * (n + 1) := by
  induction n generalizing inA outA with
  | zero =>
    rcases List.mem_append.mp h with h | h
    · have := mem_readsAt h
      omega
    · have := mem_writesAt h
      omega
  | succ n ih =>
    rcases List.mem_append.mp h with h | h
    · rcases List.mem_append.mp h with h | h
      · have := mem_readsAt h
        omega
      · have := mem_writesAt h
        omega
    · have := ih h
      omega

/-- The accesses of decryption lie in the input and the output. -/
theorem mem_decOrder {keep n inA outA : Nat} {x : Access} (h : x ∈ decOrder keep n inA outA) :
    x.addr < inA + 16 * (n + 1) ∨ x.addr < outA + (16 * n + keep) := by
  induction n generalizing inA outA with
  | zero =>
    rcases List.mem_append.mp h with h | h
    · have := mem_readsAt h
      omega
    · have := mem_writesAt h
      omega
  | succ n ih =>
    rcases List.mem_append.mp h with h | h
    · rcases List.mem_append.mp h with h | h
      · have := mem_readsAt h
        omega
      · have := mem_writesAt h
        omega
    · have := ih h
      omega

/-- Every access of a command whose lengths and regions pass goes to an address of the DMA space
(40_command_model.md R158). -/
theorem accessOrder_addr_lt {i : Instr} {o : OperandRegs} {keep : Nat} {x : Access} (hk : keep ≤ 16)
    (hm : ¬ malformedLength i o.srcLen.toNat) (hr : ¬ regionError i o) (h : x ∈ accessOrder i o keep) :
    x.addr < 2 ^ 32 := by
  simp only [regionError, not_or] at hr
  obtain ⟨h1, h2, h3, -⟩ := hr
  cases i with
  | nop => cases h
  | zeroize => cases h
  | kdf ksz =>
    have := mem_readsAt h
    simp only [regionsOf] at h1
    omega
  | enc ksz =>
    have := mem_encOrder h
    simp only [regionsOf, paddedLength] at h2 h3
    omega
  | dec ksz =>
    have := mem_decOrder h
    simp only [malformedLength] at hm
    simp only [regionsOf] at h2 h3
    omega
  | sealC ksz gen =>
    simp only [accessOrder, List.mem_append] at h
    simp only [regionsOf, paddedLength] at h1 h2 h3
    rcases h with ((h | h) | h) | h
    · have := mem_readsAt h
      omega
    · have := mem_writesAt h
      omega
    · have := mem_writesAt h
      omega
    · have := mem_encOrder h
      omega
  | openC ksz =>
    simp only [accessOrder, List.mem_append] at h
    simp only [malformedLength] at hm
    simp only [regionsOf] at h1 h2 h3
    rcases h with ((h | h) | h) | h
    · have := mem_readsAt h
      omega
    · have := mem_readsAt h
      omega
    · have := mem_readsAt h
      omega
    · have := mem_decOrder h
      omega

end Sys2Proof.Machine
end

