-- ==== Sys2Proof/Laws/Kdf.lean ====
section
/-! SUPPORT. SHA-256, HMAC and PBKDF2: lengths, the padding, and folding Compress over a byte string in two parts. -/

namespace Sys2Proof.Machine

/-! ### Lengths -/

@[simp] theorem length_be32 (w : Word) : (be32 w).length = 4 := rfl

@[simp] theorem length_be64 (n : Nat) : (be64 n).length = 8 := rfl

@[simp] theorem length_shaDigest (x : ShaState) : (shaDigest x).length = 32 := rfl

@[simp] theorem length_sha256 (m : List Byte) : (sha256 m).length = 32 := rfl

@[simp] theorem length_hmacOfBlock (k0 m : List Byte) : (hmacOfBlock k0 m).length = 32 := rfl

@[simp] theorem length_hmac (k m : List Byte) : (hmac k m).length = 32 := rfl

@[simp] theorem length_xorBytes (x y : List Byte) : (xorBytes x y).length = min x.length y.length := by
  simp [xorBytes]

@[simp] theorem length_hmacKeyBlock (k : List Byte) : (hmacKeyBlock k).length = 64 := by
  unfold hmacKeyBlock
  split <;> simp
  omega

theorem length_pbkdf2Loop (k0 : List Byte) (n : Nat) (u t : List Byte) (ht : t.length = 32) :
    (pbkdf2Loop k0 n u t).length = 32 := by
  induction n generalizing u t with
  | zero => exact ht
  | succ n ih => exact ih _ _ (by simp [ht])

/-- The derived key has the length asked for. -/
theorem length_pbkdf2 (p salt : List Byte) (c dkLen : Nat) (h : dkLen ≤ 32) :
    (pbkdf2 p salt c dkLen).length = dkLen := by
  simp only [pbkdf2, List.length_take]
  rw [length_pbkdf2Loop _ _ _ _ (by simp)]
  omega

/-! ### Padding -/

theorem length_shaPadding (len : Nat) : (shaPadding len).length = 9 + (119 - len % 64) % 64 := by
  simp [shaPadding]
  omega

/-- A padded message is whole blocks. -/
theorem length_padded_mod (len : Nat) : (len + (shaPadding len).length) % 64 = 0 := by
  rw [length_shaPadding]
  omega

/-! ### Blocks -/

theorem shaBlocks_append (n k : Nat) (a b : List Byte) (h : a.length = 64 * n) :
    shaBlocks (n + k) (a ++ b) = shaBlocks n a ++ shaBlocks k b := by
  induction n generalizing a with
  | zero =>
    have : a = [] := List.length_eq_zero_iff.mp (by omega)
    subst this
    simp [shaBlocks]
  | succ n ih =>
    rw [Nat.add_right_comm]
    simp only [shaBlocks, List.cons_append]
    rw [List.take_append_of_le_length (by omega), List.drop_append_of_le_length (by omega),
      ih _ (by simp; omega)]

/-- Compress folded over two byte strings, the first of whole blocks. -/
theorem shaFold_append (x : ShaState) (a b : List Byte) (h : a.length % 64 = 0) :
    shaFold x (a ++ b) = shaFold (shaFold x a) b := by
  unfold shaFold
  rw [show (a ++ b).length / 64 = a.length / 64 + b.length / 64 by simp; omega,
    shaBlocks_append _ _ _ _ (by omega), List.foldl_append]

/-- Compress folded over one block. -/
theorem shaFold_block (x : ShaState) (a : List Byte) (h : a.length = 64) : shaFold x a = shaCompress x a := by
  have h1 : a.take 64 = a := List.take_of_length_le (by omega)
  simp [shaFold, h, shaBlocks, h1]

/-- A message that begins with a block: the state after that block, then the rest. -/
theorem sha256_block_append (a m : List Byte) (h : a.length = 64) :
    sha256 (a ++ m) = shaDigest (shaFold (shaCompress shaInit a) (m ++ shaPadding (64 + m.length))) := by
  rw [sha256, List.length_append, h, List.append_assoc, shaFold_append _ _ _ (by omega), shaFold_block _ _ h]

/-! ### PBKDF2 -/

/-- One more iteration at the end of the loop: the accumulator takes one more PRF output. -/
theorem pbkdf2Loop_zero (k0 u t : List Byte) : pbkdf2Loop k0 0 u t = t := rfl

theorem pbkdf2Loop_succ (k0 : List Byte) (n : Nat) (u t : List Byte) :
    pbkdf2Loop k0 (n + 1) u t = pbkdf2Loop k0 n (hmacOfBlock k0 u) (xorBytes t (hmacOfBlock k0 u)) := rfl

/-- The shorter key is the beginning of the longer. -/
theorem pbkdf2_take (p salt : List Byte) (c : Nat) : pbkdf2 p salt c 16 = (pbkdf2 p salt c 32).take 16 := by
  simp [pbkdf2, List.take_take]

end Sys2Proof.Machine
end

