-- ==== Sys2Proof/Laws/State.lean ====
section
/-! SUPPORT. One lemma per field per update of the state, so that no proof unfolds a record update. -/

namespace Sys2Proof.Machine

/-! ### commit -/

@[simp] theorem State.commit_ie (s : State) (r : Result) : (s.commit r).ie = s.ie := rfl

@[simp] theorem State.commit_status (s : State) (r : Result) : (s.commit r).status = s.status.complete r.err := rfl

@[simp] theorem State.commit_cmd (s : State) (r : Result) : (s.commit r).cmd = s.cmd := rfl

@[simp] theorem State.commit_regs (s : State) (r : Result) : (s.commit r).regs = r.regs := rfl

@[simp] theorem State.commit_outLen (s : State) (r : Result) : (s.commit r).outLen = outLenWord r.outLen r.drawCount := rfl

@[simp] theorem State.commit_errAddr (s : State) (r : Result) : (s.commit r).errAddr = BitVec.ofNat 32 r.errAddr := rfl

@[simp] theorem State.commit_sequencer (s : State) (r : Result) : (s.commit r).sequencer = .idle := rfl

@[simp] theorem State.commit_pending (s : State) (r : Result) : (s.commit r).pending = none := rfl

@[simp] theorem State.commit_hidden (s : State) (r : Result) : (s.commit r).hidden = Hidden.zero := rfl

@[simp] theorem State.commit_mem (s : State) (r : Result) : (s.commit r).mem = r.mem := rfl

@[simp] theorem State.commit_platform (s : State) (r : Result) : (s.commit r).platform = s.platform := rfl

@[simp] theorem State.commit_drawCount (s : State) (r : Result) : (s.commit r).drawCount = outLenDraws r.outLen r.drawCount := rfl

@[simp] theorem State.commit_inputs (s : State) (r : Result) : (s.commit r).inputs = s.inputs := rfl

@[simp] theorem State.commit_results (s : State) (r : Result) : (s.commit r).results = s.results := rfl

/-! ### accept -/

@[simp] theorem State.accept_ie (s : State) (w : Word) : (s.accept w).ie = s.ie := rfl

@[simp] theorem State.accept_status (s : State) (w : Word) : (s.accept w).status = s.status.accept := rfl

@[simp] theorem State.accept_cmd (s : State) (w : Word) : (s.accept w).cmd = w := rfl

@[simp] theorem State.accept_regs (s : State) (w : Word) : (s.accept w).regs = s.regs := rfl

@[simp] theorem State.accept_outLen (s : State) (w : Word) : (s.accept w).outLen = s.outLen := rfl

@[simp] theorem State.accept_errAddr (s : State) (w : Word) : (s.accept w).errAddr = s.errAddr := rfl

@[simp] theorem State.accept_sequencer (s : State) (w : Word) : (s.accept w).sequencer = .running w := rfl

@[simp] theorem State.accept_pending (s : State) (w : Word) : (s.accept w).pending = some ⟨w, s.regs⟩ := rfl

@[simp] theorem State.accept_hidden (s : State) (w : Word) : (s.accept w).hidden = s.hidden := rfl

@[simp] theorem State.accept_mem (s : State) (w : Word) : (s.accept w).mem = s.mem := rfl

@[simp] theorem State.accept_platform (s : State) (w : Word) : (s.accept w).platform = s.platform := rfl

@[simp] theorem State.accept_drawCount (s : State) (w : Word) : (s.accept w).drawCount = s.drawCount := rfl

@[simp] theorem State.accept_inputs (s : State) (w : Word) : (s.accept w).inputs = s.inputs := rfl

@[simp] theorem State.accept_results (s : State) (w : Word) : (s.accept w).results = s.results := rfl

/-! ### reset -/

@[simp] theorem State.resetEngine_ie (s : State) : (s.resetEngine).ie = false := rfl

@[simp] theorem State.resetEngine_status (s : State) : (s.resetEngine).status = ⟨false, false, false, .ok⟩ := rfl

@[simp] theorem State.resetEngine_cmd (s : State) : (s.resetEngine).cmd = 0 := rfl

@[simp] theorem State.resetEngine_regs (s : State) : (s.resetEngine).regs = OperandRegs.reset := rfl

@[simp] theorem State.resetEngine_outLen (s : State) : (s.resetEngine).outLen = 0 := rfl

@[simp] theorem State.resetEngine_errAddr (s : State) : (s.resetEngine).errAddr = 0 := rfl

@[simp] theorem State.resetEngine_sequencer (s : State) : (s.resetEngine).sequencer = .idle := rfl

@[simp] theorem State.resetEngine_pending (s : State) : (s.resetEngine).pending = none := rfl

@[simp] theorem State.resetEngine_hidden (s : State) : (s.resetEngine).hidden = Hidden.zero := rfl

@[simp] theorem State.resetEngine_mem (s : State) : (s.resetEngine).mem = unspecify s.mem s.abandonedOut s.drawCount := rfl

@[simp] theorem State.resetEngine_platform (s : State) : (s.resetEngine).platform = s.platform := rfl

@[simp] theorem State.resetEngine_drawCount (s : State) : (s.resetEngine).drawCount = s.drawCount + bytesInSpace s.abandonedOut := rfl

@[simp] theorem State.resetEngine_inputs (s : State) : (s.resetEngine).inputs = s.inputs := rfl

@[simp] theorem State.resetEngine_results (s : State) : (s.resetEngine).results = s.results := rfl

/-! ### a command word placed to run next -/

@[simp] theorem State.withFetchWord_ie (s : State) (nbits w : Nat) : (s.withFetchWord nbits w).ie = s.ie := rfl

@[simp] theorem State.withFetchWord_status (s : State) (nbits w : Nat) : (s.withFetchWord nbits w).status = s.status.accept := rfl

@[simp] theorem State.withFetchWord_cmd (s : State) (nbits w : Nat) : (s.withFetchWord nbits w).cmd = BitVec.ofNat 32 (w % 2 ^ nbits) := rfl

@[simp] theorem State.withFetchWord_regs (s : State) (nbits w : Nat) : (s.withFetchWord nbits w).regs = s.regs := rfl

@[simp] theorem State.withFetchWord_outLen (s : State) (nbits w : Nat) : (s.withFetchWord nbits w).outLen = s.outLen := rfl

@[simp] theorem State.withFetchWord_errAddr (s : State) (nbits w : Nat) : (s.withFetchWord nbits w).errAddr = s.errAddr := rfl

@[simp] theorem State.withFetchWord_sequencer (s : State) (nbits w : Nat) : (s.withFetchWord nbits w).sequencer = .running (BitVec.ofNat 32 (w % 2 ^ nbits)) := rfl

@[simp] theorem State.withFetchWord_pending (s : State) (nbits w : Nat) : (s.withFetchWord nbits w).pending = some ⟨BitVec.ofNat 32 (w % 2 ^ nbits), s.regs⟩ := rfl

@[simp] theorem State.withFetchWord_hidden (s : State) (nbits w : Nat) : (s.withFetchWord nbits w).hidden = s.hidden := rfl

@[simp] theorem State.withFetchWord_mem (s : State) (nbits w : Nat) : (s.withFetchWord nbits w).mem = s.mem := rfl

@[simp] theorem State.withFetchWord_platform (s : State) (nbits w : Nat) : (s.withFetchWord nbits w).platform = s.platform := rfl

@[simp] theorem State.withFetchWord_drawCount (s : State) (nbits w : Nat) : (s.withFetchWord nbits w).drawCount = s.drawCount := rfl

@[simp] theorem State.withFetchWord_inputs (s : State) (nbits w : Nat) : (s.withFetchWord nbits w).inputs = .engine :: s.inputs := rfl

@[simp] theorem State.withFetchWord_results (s : State) (nbits w : Nat) : (s.withFetchWord nbits w).results = s.results := rfl

/-! ### STATUS -/

@[simp] theorem Status.accept_busy (st : Status) : st.accept.busy = true := rfl

@[simp] theorem Status.accept_done (st : Status) : st.accept.done = false := rfl

@[simp] theorem Status.accept_ovr (st : Status) : st.accept.ovr = st.ovr := rfl

@[simp] theorem Status.accept_err (st : Status) : st.accept.err = .ok := rfl

@[simp] theorem Status.complete_busy (st : Status) (e : ErrorCode) : (st.complete e).busy = false := rfl

@[simp] theorem Status.complete_done (st : Status) (e : ErrorCode) : (st.complete e).done = true := rfl

@[simp] theorem Status.complete_ovr (st : Status) (e : ErrorCode) : (st.complete e).ovr = st.ovr := rfl

@[simp] theorem Status.complete_err (st : Status) (e : ErrorCode) : (st.complete e).err = e := rfl

@[simp] theorem Status.overrun_busy (st : Status) : st.overrun.busy = st.busy := rfl

@[simp] theorem Status.overrun_done (st : Status) : st.overrun.done = st.done := rfl

@[simp] theorem Status.overrun_ovr (st : Status) : st.overrun.ovr = true := rfl

@[simp] theorem Status.overrun_err (st : Status) : st.overrun.err = st.err := rfl

@[simp] theorem Status.writeOneToClear_busy (st : Status) (d : Word) : (st.writeOneToClear d).busy = st.busy := rfl

@[simp] theorem Status.writeOneToClear_done (st : Status) (d : Word) : (st.writeOneToClear d).done = (st.done && !d.getLsbD 1) := rfl

@[simp] theorem Status.writeOneToClear_ovr (st : Status) (d : Word) : (st.writeOneToClear d).ovr = (st.ovr && !d.getLsbD 2) := rfl

@[simp] theorem Status.writeOneToClear_err (st : Status) (d : Word) : (st.writeOneToClear d).err = st.err := rfl

/-! ### Results -/

@[simp] theorem State.success_err (s : State) (m : Memory) (n c : Nat) : (s.success m n c).err = .ok := rfl

@[simp] theorem State.success_regs (s : State) (m : Memory) (n c : Nat) : (s.success m n c).regs = s.regs := rfl

@[simp] theorem State.success_mem (s : State) (m : Memory) (n c : Nat) : (s.success m n c).mem = m := rfl

@[simp] theorem State.success_outLen (s : State) (m : Memory) (n c : Nat) : (s.success m n c).outLen = n := rfl

@[simp] theorem State.success_errAddr (s : State) (m : Memory) (n c : Nat) : (s.success m n c).errAddr = 0 := rfl

@[simp] theorem State.success_drawCount (s : State) (m : Memory) (n c : Nat) : (s.success m n c).drawCount = c := rfl

@[simp] theorem State.raise_err (s : State) (e : ErrorCode) (a : Nat) (m : Memory) (r : Region) (c : Nat) :
    (s.raise e a m r c).err = e := rfl

@[simp] theorem State.raise_regs (s : State) (e : ErrorCode) (a : Nat) (m : Memory) (r : Region) (c : Nat) :
    (s.raise e a m r c).regs = s.regs := rfl

@[simp] theorem State.raise_outLen (s : State) (e : ErrorCode) (a : Nat) (m : Memory) (r : Region) (c : Nat) :
    (s.raise e a m r c).outLen = 0 := rfl

@[simp] theorem State.raiseCheck_err (s : State) (e : ErrorCode) : (s.raiseCheck e).err = e := rfl

@[simp] theorem State.raiseCheck_regs (s : State) (e : ErrorCode) : (s.raiseCheck e).regs = s.regs := rfl

@[simp] theorem State.raiseCheck_outLen (s : State) (e : ErrorCode) : (s.raiseCheck e).outLen = 0 := rfl

/-- A check raised before any access changes no memory. -/
@[simp] theorem State.raiseCheck_mem (s : State) (e : ErrorCode) : (s.raiseCheck e).mem = s.mem := by
  unfold State.raiseCheck State.raise
  simp [unspecify_empty]

@[simp] theorem State.raiseCheck_errAddr (s : State) (e : ErrorCode) : (s.raiseCheck e).errAddr = 0 := by
  simp [State.raiseCheck, State.raise]

@[simp] theorem State.raiseCheck_drawCount (s : State) (e : ErrorCode) : (s.raiseCheck e).drawCount = s.drawCount := by
  simp [State.raiseCheck, State.raise, bytesInSpace, emptyRegion]

@[simp] theorem State.raiseAbort_regs (s : State) (x : Abort) (r : Region) (c : Nat) :
    (s.raiseAbort x r c).regs = s.regs := by
  cases x <;> rfl

@[simp] theorem State.raiseAbort_outLen (s : State) (x : Abort) (r : Region) (c : Nat) :
    (s.raiseAbort x r c).outLen = 0 := by
  cases x <;> rfl

@[simp] theorem State.raiseAbort_bus_err (s : State) (a : Nat) (r : Region) (c : Nat) :
    (s.raiseAbort (.bus a) r c).err = .busError := rfl

@[simp] theorem State.raiseAbort_bus_mem (s : State) (a : Nat) (r : Region) (c : Nat) :
    (s.raiseAbort (.bus a) r c).mem = unspecify s.mem r c := rfl

@[simp] theorem State.raiseAbort_bus_errAddr (s : State) (a : Nat) (r : Region) (c : Nat) :
    (s.raiseAbort (.bus a) r c).errAddr = a := rfl

@[simp] theorem State.raiseAbort_bus_drawCount (s : State) (a : Nat) (r : Region) (c : Nat) :
    (s.raiseAbort (.bus a) r c).drawCount = c + bytesInSpace r := rfl

@[simp] theorem State.raiseAbort_padding_err (s : State) (m : Memory) (r : Region) (c : Nat) :
    (s.raiseAbort (.padding m) r c).err = .integrityOrPassword := rfl

@[simp] theorem State.raiseAbort_padding_mem (s : State) (m : Memory) (r : Region) (c : Nat) :
    (s.raiseAbort (.padding m) r c).mem = m := rfl

@[simp] theorem State.raiseAbort_padding_errAddr (s : State) (m : Memory) (r : Region) (c : Nat) :
    (s.raiseAbort (.padding m) r c).errAddr = 0 := rfl

@[simp] theorem State.raiseAbort_padding_drawCount (s : State) (m : Memory) (r : Region) (c : Nat) :
    (s.raiseAbort (.padding m) r c).drawCount = c := rfl

/-! ### Operands and OUT_LEN -/

/-- Right after an accept the operands are the registers (40_command_model.md R140). -/
@[simp] theorem State.operands_accept (s : State) (w : Word) : (s.accept w).operands = s.regs := rfl

theorem State.operands_of_pending {s : State} {p : Pending} (h : s.pending = some p) : s.operands = p.operands := by
  simp [State.operands, h]

theorem State.operands_of_none {s : State} (h : s.pending = none) : s.operands = s.regs := by
  simp [State.operands, h]

@[simp] theorem outLenWord_zero (c : Nat) : outLenWord 0 c = 0 := by simp [outLenWord]

@[simp] theorem outLenDraws_zero (c : Nat) : outLenDraws 0 c = c := by simp [outLenDraws]

theorem outLenWord_of_lt {n : Nat} (h : n < 2 ^ 32) (c : Nat) : outLenWord n c = BitVec.ofNat 32 n := if_pos h

theorem le_outLenDraws (n c : Nat) : c ≤ outLenDraws n c := by
  unfold outLenDraws
  split <;> omega

end Sys2Proof.Machine
end

