-- ==== Sys2Proof/Laws/Commands.lean ====
section
/-! SUPPORT. What the Complete step of each command can do: one result a command, and the facts common to all results. -/

namespace Sys2Proof.Machine

/-! ### The checks -/

theorem firstError_eq_none_iff (l : List (Bool × ErrorCode)) : firstError l = none ↔ ∀ c ∈ l, c.1 = false := by
  induction l with
  | nil => simp [firstError]
  | cons c l ih =>
    obtain ⟨b, e⟩ := c
    cases b <;> simp [firstError, ih]

theorem firstError_mem {l : List (Bool × ErrorCode)} {e : ErrorCode} (h : firstError l = some e) : (true, e) ∈ l := by
  induction l with
  | nil => simp [firstError] at h
  | cons c l ih =>
    obtain ⟨b, e'⟩ := c
    cases b
    · exact List.mem_cons_of_mem _ (ih (by simpa [firstError] using h))
    · simp only [firstError, if_true, Option.some.injEq] at h
      simp [h]

theorem kdfCheck_eq_none_iff {ksz : BitVec 2} {o : OperandRegs} :
    kdfCheck ksz o = none ↔ kszLegal ksz = true ∧ o.iter ≠ 0 ∧ regionBad (regionsOf (.kdf ksz) o) = false := by
  simp [kdfCheck, firstError_eq_none_iff]

theorem encCheck_eq_none_iff {ksz : BitVec 2} {o : OperandRegs} :
    encCheck ksz o = none ↔ kszLegal ksz = true ∧ regionBad (regionsOf (.enc ksz) o) = false := by
  simp [encCheck, firstError_eq_none_iff]

theorem decCheck_eq_none_iff {ksz : BitVec 2} {o : OperandRegs} :
    decCheck ksz o = none ↔ kszLegal ksz = true ∧ cipherLengthBad o.srcLen.toNat = false ∧
      regionBad (regionsOf (.dec ksz) o) = false := by
  simp [decCheck, firstError_eq_none_iff]

theorem sealCheck_eq_none_iff {ksz : BitVec 2} {gen : Bool} {o : OperandRegs} :
    sealCheck ksz gen o = none ↔ kszLegal ksz = true ∧ o.iter ≠ 0 ∧ o.pwLen ≠ 0 ∧
      regionBad (regionsOf (.sealC ksz gen) o) = false := by
  simp [sealCheck, firstError_eq_none_iff]

theorem openCheck_eq_none_iff {ksz : BitVec 2} {o : OperandRegs} :
    openCheck ksz o = none ↔ kszLegal ksz = true ∧ o.iter ≠ 0 ∧ o.pwLen ≠ 0 ∧
      containerLengthBad o.srcLen.toNat = false ∧ regionBad (regionsOf (.openC ksz) o) = false := by
  simp [openCheck, firstError_eq_none_iff]

/-- What the region check lets through (20_memory.md R93). -/
theorem regionBad_eq_false_iff (r : Regions) :
    regionBad r = false ↔ wraps r.pw = false ∧ wraps r.inp = false ∧ wraps r.out = false ∧
      (disjoint r.inp r.out = true ∨ r.inPlace = true) := by
  simp [regionBad, and_assoc, or_iff_not_imp_left]

theorem disjoint_iff (r q : Region) :
    disjoint r q = true ↔ r.size = 0 ∨ q.size = 0 ∨ r.base + r.size ≤ q.base ∨ q.base + q.size ≤ r.base := by
  simp [disjoint, or_assoc]

/-! ### One result a command -/

/-- What `Exec` computes for a command (40_command_model.md R142). -/
def resultOf : Instr → State → Result
  | .nop, s => s.success s.mem 0 s.drawCount
  | .kdf ksz, s => kdfResult ksz s
  | .enc ksz, s => encResult ksz s
  | .dec ksz, s => decResult ksz s
  | .sealC ksz gen, s => sealResult ksz gen s
  | .openC ksz, s => openResult ksz s
  | .zeroize, s => { s.success s.mem 0 s.drawCount with regs := s.regs.zeroized }

/-- The Complete step of a command commits its result, and always answers a next state. -/
theorem exec_eq_commit (i : Instr) (s : State) : exec i s = .next (s.commit (resultOf i s)) := by
  cases i <;> rfl

/-! ### The checks made before any memory access (60_exceptions.md R345) -/

/-- The first check of a command that fails, of the operand registers alone. -/
def checkOf : Instr → OperandRegs → Option ErrorCode
  | .nop, _ => none
  | .kdf ksz, o => kdfCheck ksz o
  | .enc ksz, o => encCheck ksz o
  | .dec ksz, o => decCheck ksz o
  | .sealC ksz gen, o => sealCheck ksz gen o
  | .openC ksz, o => openCheck ksz o
  | .zeroize, _ => none

theorem resultOf_of_check {i : Instr} {s : State} {e : ErrorCode} (h : checkOf i s.operands = some e) :
    resultOf i s = s.raiseCheck e := by
  cases i <;> simp only [checkOf, reduceCtorEq] at h <;>
    simp [resultOf, kdfResult, encResult, decResult, sealResult, openResult, h]

theorem raiseAbort_err (s : State) (x : Abort) (r : Region) (c : Nat) :
    (s.raiseAbort x r c).err = .busError ∨ (s.raiseAbort x r c).err = .integrityOrPassword := by
  cases x <;> simp

/-- Once every check has passed, only an access or the padding can end a command with an error. -/
theorem resultOf_err_of_check_none {i : Instr} {s : State} (h : checkOf i s.operands = none) :
    (resultOf i s).err = .ok ∨ (resultOf i s).err = .busError ∨ (resultOf i s).err = .integrityOrPassword := by
  have abort : ∀ x r c, (s.raiseAbort x r c).err = .ok ∨ (s.raiseAbort x r c).err = .busError ∨
      (s.raiseAbort x r c).err = .integrityOrPassword := fun x r c => .inr (raiseAbort_err s x r c)
  cases i <;> simp only [checkOf] at h <;>
    simp only [resultOf, kdfResult, encResult, decResult, sealResult, openResult, h] <;>
    first | exact .inl rfl | (split <;> first | exact abort _ _ _ | exact .inl rfl)

/-- An error that is neither BUS_ERROR nor INTEGRITY_OR_PASSWORD is that of a check. -/
theorem checkOf_of_err {i : Instr} {s : State} (hok : (resultOf i s).err ≠ .ok) (hbus : (resultOf i s).err ≠ .busError)
    (hpad : (resultOf i s).err ≠ .integrityOrPassword) : checkOf i s.operands = some (resultOf i s).err := by
  cases hc : checkOf i s.operands with
  | some e => rw [resultOf_of_check hc]; rfl
  | none => rcases resultOf_err_of_check_none hc with h | h | h <;> contradiction

/-- A commit of a raised check makes no memory access, whatever gave it. -/
theorem noMemoryAccess_of_raiseCheck {run : State → Host.Outcome State Fault Refusal} {s : State} {e : ErrorCode}
    (h : ∀ m p, run { s with mem := m, platform := p } =
      .next (State.commit { s with mem := m, platform := p } (State.raiseCheck { s with mem := m, platform := p } e))) :
    NoMemoryAccess run s (s.commit (s.raiseCheck e)) := by
  refine ⟨by simp, fun m p => (h m p).trans ?_⟩
  simp [State.commit]

/-- A command that ends with an error other than BUS_ERROR and INTEGRITY_OR_PASSWORD makes no memory access. -/
theorem exec_noMemoryAccess {i : Instr} {s : State} (hok : (resultOf i s).err ≠ .ok)
    (hbus : (resultOf i s).err ≠ .busError) (hpad : (resultOf i s).err ≠ .integrityOrPassword) :
    NoMemoryAccess (exec i) s (s.commit (resultOf i s)) := by
  have hc := checkOf_of_err hok hbus hpad
  rw [resultOf_of_check hc]
  refine noMemoryAccess_of_raiseCheck fun m p => ?_
  rw [exec_eq_commit, resultOf_of_check (s := { s with mem := m, platform := p }) hc]

/-! ### What all results have in common -/

/-- A result whose memory effect lies in `out`, with OUT_LEN and ERR_ADDR as its error code says. -/
structure ResultWithin (s : State) (out : Region) (r : Result) : Prop where
  outside : ∀ a, regionHas out a = false → Memory.read r.mem a = Memory.read s.mem a
  wf : Memory.wf s.mem → Memory.wf r.mem
  outLen : r.err ≠ .ok → r.outLen = 0
  errAddr : r.err ≠ .busError → r.errAddr = 0
  unchanged : r.err ≠ .ok → r.err ≠ .busError → r.err ≠ .integrityOrPassword → r.mem = s.mem
  draws : s.drawCount ≤ r.drawCount

theorem ResultWithin.of_success {s : State} {out : Region} {m : Memory} {n c : Nat}
    (h : ∀ a, regionHas out a = false → Memory.read m a = Memory.read s.mem a)
    (hwf : Memory.wf s.mem → Memory.wf m) (hc : s.drawCount ≤ c) : ResultWithin s out (s.success m n c) :=
  ⟨h, hwf, fun h => absurd rfl h, fun _ => rfl, fun h => absurd rfl h, hc⟩

theorem ResultWithin.of_raiseCheck (s : State) (out : Region) (e : ErrorCode) : ResultWithin s out (s.raiseCheck e) :=
  ⟨by simp, by simp, by simp, by simp, by simp, by simp⟩

theorem ResultWithin.of_raiseAbort {s : State} {out : Region} {c : Nat} (x : Abort)
    (h : ∀ m, x = .padding m → (∀ a, regionHas out a = false → Memory.read m a = Memory.read s.mem a) ∧
      (Memory.wf s.mem → Memory.wf m)) (hc : s.drawCount ≤ c) : ResultWithin s out (s.raiseAbort x out c) := by
  cases x with
  | bus a =>
    refine ⟨fun y hy => ?_, fun hwf => ?_, by simp, by simp, by simp, ?_⟩
    · exact read_unspecify_of_outside _ _ _ _ hy
    · exact Memory.wf_unspecify hwf _ _
    · simp only [State.raiseAbort_bus_drawCount]; omega
  | padding m =>
    obtain ⟨h1, h2⟩ := h m rfl
    exact ⟨by simpa using h1, by simpa using h2, by simp, by simp, by simp, by simpa using hc⟩

/-- Bytes written inside a region that does not wrap: nothing outside changes and the canonical form stays. -/
theorem writeBytes_within {m : Memory} {out : Region} {a : Nat} {b : List Byte} (ha : out.base ≤ a)
    (hb : a + b.length ≤ out.base + out.size) (hw : wraps out = false) :
    (∀ x, regionHas out x = false → Memory.read (Memory.writeBytes m a b) x = Memory.read m x) ∧
      (Memory.wf m → Memory.wf (Memory.writeBytes m a b)) := by
  constructor
  · intro x hx
    apply Memory.read_writeBytes_of_outside
    simp only [regionHas, Bool.and_eq_false_iff, decide_eq_false_iff_not] at hx
    omega
  · intro hwf
    apply Memory.wf_writeBytes hwf
    rcases (not_wraps_iff out).mp hw with h0 | h0
    · exact .inl (List.length_eq_zero_iff.mp (by omega))
    · exact .inr (by omega)

theorem kdfResult_within (ksz : BitVec 2) (s : State) (out : Region) : ResultWithin s out (kdfResult ksz s) := by
  unfold kdfResult readPassword
  simp only
  split
  · exact .of_raiseCheck s out _
  split
  · rename_i x hx
    obtain ⟨a, rfl, -⟩ := dmaRead_eq_error_iff.mp hx
    refine ⟨fun y _ => ?_, fun hwf => ?_, by simp, by simp, by simp, by simp⟩
    · simp [unspecify_empty]
    · simpa [unspecify_empty] using hwf
  · exact ⟨fun _ _ => rfl, id, fun h => absurd rfl h, fun _ => rfl, fun _ _ _ => rfl, le_refl _⟩

theorem encResult_within (ksz : BitVec 2) (s : State) :
    ResultWithin s (regionsOf (.enc ksz) s.operands).out (encResult ksz s) := by
  unfold encResult
  simp only
  split
  · exact .of_raiseCheck s _ _
  rename_i hcheck
  have hw := ((regionBad_eq_false_iff _).mp (encCheck_eq_none_iff.mp hcheck).2).2.2.1
  split
  · rename_i x hx
    refine .of_raiseAbort x (fun m hm => ?_) (le_refl _)
    subst hm
    obtain ⟨a, h, -⟩ := (cbcEncryptFrom_eq_error_iff _ _ _ _ _ _ _ _ _).mp hx
    cases h
  · rename_i m hm
    obtain ⟨b, hb, rfl⟩ := cbcEncryptFrom_writes hm
    have := writeBytes_within (m := s.mem) (out := (regionsOf (.enc ksz) s.operands).out)
      (a := s.operands.dstAddr.toNat) (b := b) (by simp [regionsOf]) (by simp [regionsOf, hb, paddedLength]) hw
    exact .of_success this.1 this.2 (le_refl _)

theorem decResult_within (ksz : BitVec 2) (s : State) :
    ResultWithin s (regionsOf (.dec ksz) s.operands).out (decResult ksz s) := by
  unfold decResult
  simp only
  split
  · exact .of_raiseCheck s _ _
  rename_i hcheck
  have hw := ((regionBad_eq_false_iff _).mp (decCheck_eq_none_iff.mp hcheck).2.2).2.2.1
  have hl : 16 * (s.operands.srcLen.toNat / 16 - 1 + 1) ≤ s.operands.srcLen.toNat := by
    have := (decCheck_eq_none_iff.mp hcheck).2.1
    simp only [cipherLengthBad, Bool.or_eq_false_iff, beq_eq_false_iff_ne, bne_eq_false_iff_eq] at this
    omega
  split
  · rename_i x hx
    refine .of_raiseAbort x (fun m hm => ?_) (le_refl _)
    subst hm
    obtain ⟨b, hb, rfl⟩ := cbcDecryptFrom_padding_writes hx
    exact writeBytes_within (out := (regionsOf (.dec ksz) s.operands).out) (by simp [regionsOf])
      (by simp only [regionsOf, hb]; omega) hw
  · rename_i m pad hm
    obtain ⟨h1, h2, b, hb, rfl⟩ := cbcDecryptFrom_writes hm
    have := writeBytes_within (m := s.mem) (out := (regionsOf (.dec ksz) s.operands).out)
      (a := s.operands.dstAddr.toNat) (b := b) (by simp [regionsOf]) (by simp only [regionsOf, hb]; omega) hw
    exact .of_success this.1 this.2 (le_refl _)

/-- The salt and the IV of SEAL have 16 bytes each. -/
theorem length_regBytes {n : Nat} (v : Vector Word n) : (regBytes v).length = 4 * n := by
  have h : ∀ l : List Word, (l.flatMap wordBytes).length = 4 * l.length := by
    intro l
    induction l with
    | nil => rfl
    | cons w l ih => simp only [List.flatMap_cons, List.length_append, ih, List.length_cons, wordBytes]; simp; omega
  rw [regBytes, h]
  simp

@[simp] theorem length_saltBytes (o : OperandRegs) : o.saltBytes.length = 16 := length_regBytes o.salt

@[simp] theorem length_ivBytes (o : OperandRegs) : o.ivBytes.length = 16 := length_regBytes o.iv

theorem length_sealHeader (gen : Bool) (o : OperandRegs) (c : Nat) :
    (sealHeader gen o c).1.length = 16 ∧ (sealHeader gen o c).2.length = 16 := by
  cases gen <;> simp [sealHeader]

theorem le_sealDraws (gen : Bool) (c : Nat) : c ≤ sealDraws gen c := by
  cases gen <;> simp [sealDraws]

/-- What SEAL's accesses can do: a refused byte, or the whole container written. -/
theorem sealPass_cases {p : Platform} {m : Memory} {ksz : BitVec 2} {o : OperandRegs} {salt iv : List Byte}
    (hs : salt.length = 16) (hv : iv.length = 16) :
    (∃ a, sealPass p m ksz o salt iv = .error (.bus a)) ∨
      ∃ b, b.length = 32 + paddedLength o.srcLen.toNat ∧
        sealPass p m ksz o salt iv = .ok (Memory.writeBytes m o.dstAddr.toNat b) := by
  unfold sealPass
  simp only
  split
  · rename_i x hx
    obtain ⟨a, rfl, -⟩ := dmaRead_eq_error_iff.mp hx
    exact .inl ⟨a, rfl⟩
  split
  · rename_i x hx
    obtain ⟨a, rfl, -⟩ := dmaWrite_eq_error_iff.mp hx
    exact .inl ⟨a, rfl⟩
  rename_i m1 h1
  obtain rfl := (dmaWrite_eq_ok_iff.mp h1).2
  split
  · rename_i x hx
    obtain ⟨a, rfl, -⟩ := dmaWrite_eq_error_iff.mp hx
    exact .inl ⟨a, rfl⟩
  rename_i m2 h2
  obtain rfl := (dmaWrite_eq_ok_iff.mp h2).2
  rw [cbcEncryptPass]
  cases hc : cbcEncryptFrom p _ _ _ _ _ _ _ with
  | error x =>
    obtain ⟨a, rfl, -⟩ := (cbcEncryptFrom_eq_error_iff _ _ _ _ _ _ _ _ _).mp hc
    exact .inl ⟨a, rfl⟩
  | ok m3 =>
    obtain ⟨b, hb, rfl⟩ := cbcEncryptFrom_writes hc
    refine .inr ⟨salt ++ (iv ++ b), by simp [hs, hv, hb, paddedLength]; omega, ?_⟩
    rw [Memory.writeBytes_append, Memory.writeBytes_append, hs, hv]

theorem sealResult_within (ksz : BitVec 2) (gen : Bool) (s : State) :
    ResultWithin s (regionsOf (.sealC ksz gen) s.operands).out (sealResult ksz gen s) := by
  unfold sealResult
  simp only
  split
  · exact .of_raiseCheck s _ _
  rename_i hcheck
  have hw := ((regionBad_eq_false_iff _).mp (sealCheck_eq_none_iff.mp hcheck).2.2.2).2.2.1
  have hh := length_sealHeader gen s.operands s.drawCount
  rcases sealPass_cases (p := s.platform) (m := s.mem) (ksz := ksz) (o := s.operands) hh.1 hh.2 with ⟨a, h⟩ | ⟨b, hb, h⟩
  · rw [h]
    exact .of_raiseAbort _ (fun m hm => by cases hm) (le_sealDraws gen _)
  · rw [h]
    have := writeBytes_within (m := s.mem) (out := (regionsOf (.sealC ksz gen) s.operands).out)
      (a := s.operands.dstAddr.toNat) (b := b) (by simp [regionsOf]) (by simp [regionsOf, hb]) hw
    exact .of_success this.1 this.2 (le_sealDraws gen _)

/-- What OPEN's accesses can do: a refused byte, bad padding with all blocks but the last written, or success. -/
theorem openPass_cases (p : Platform) (m : Memory) (ksz : BitVec 2) (o : OperandRegs)
    (h48 : containerLengthBad o.srcLen.toNat = false) :
    (∃ a, openPass p m ksz o = .error (.bus a)) ∨
      (∃ b, b.length = o.srcLen.toNat - 48 ∧
        openPass p m ksz o = .error (.padding (Memory.writeBytes m o.dstAddr.toNat b))) ∨
      ∃ b pad, 1 ≤ pad ∧ pad ≤ 16 ∧ b.length = o.srcLen.toNat - 32 - pad ∧
        openPass p m ksz o = .ok (Memory.writeBytes m o.dstAddr.toNat b, pad) := by
  have hlen : 16 * ((o.srcLen.toNat - 32) / 16 - 1 + 1) = o.srcLen.toNat - 32 ∧ 48 ≤ o.srcLen.toNat := by
    simp only [containerLengthBad, Bool.or_eq_false_iff, decide_eq_false_iff_not, beq_eq_false_iff_ne,
      bne_eq_false_iff_eq] at h48
    omega
  unfold openPass
  simp only
  split
  · rename_i x hx
    obtain ⟨a, rfl, -⟩ := dmaRead_eq_error_iff.mp hx
    exact .inl ⟨a, rfl⟩
  split
  · rename_i x hx
    obtain ⟨a, rfl, -⟩ := dmaRead_eq_error_iff.mp hx
    exact .inl ⟨a, rfl⟩
  split
  · rename_i x hx
    obtain ⟨a, rfl, -⟩ := dmaRead_eq_error_iff.mp hx
    exact .inl ⟨a, rfl⟩
  rw [cbcDecryptPass]
  cases hc : cbcDecryptFrom p _ _ _ _ _ _ with
  | error x =>
    cases x with
    | bus a => exact .inl ⟨a, rfl⟩
    | padding m' =>
      obtain ⟨b, hb, rfl⟩ := cbcDecryptFrom_padding_writes hc
      exact .inr (.inl ⟨b, by omega, rfl⟩)
  | ok mp =>
    obtain ⟨m', pad⟩ := mp
    obtain ⟨h1, h2, b, hb, rfl⟩ := cbcDecryptFrom_writes hc
    exact .inr (.inr ⟨b, pad, h1, h2, by omega, rfl⟩)

theorem openResult_within (ksz : BitVec 2) (s : State) :
    ResultWithin s (regionsOf (.openC ksz) s.operands).out (openResult ksz s) := by
  unfold openResult
  simp only
  split
  · exact .of_raiseCheck s _ _
  rename_i hcheck
  have hc := openCheck_eq_none_iff.mp hcheck
  have hw := ((regionBad_eq_false_iff _).mp hc.2.2.2.2).2.2.1
  rcases openPass_cases s.platform s.mem ksz s.operands hc.2.2.2.1 with ⟨a, h⟩ | ⟨b, hb, h⟩ | ⟨b, pad, h1, h2, hb, h⟩
  · rw [h]
    exact .of_raiseAbort _ (fun m hm => by cases hm) (le_refl _)
  · rw [h]
    refine .of_raiseAbort _ (fun m hm => ?_) (le_refl _)
    cases hm
    exact writeBytes_within (out := (regionsOf (.openC ksz) s.operands).out) (by simp [regionsOf])
      (by simp only [regionsOf, hb]; omega) hw
  · rw [h]
    have := writeBytes_within (m := s.mem) (out := (regionsOf (.openC ksz) s.operands).out)
      (a := s.operands.dstAddr.toNat) (b := b) (by simp [regionsOf]) (by simp only [regionsOf, hb]; omega) hw
    exact .of_success this.1 this.2 (le_refl _)

/-- Everything the results of all commands have in common. -/
theorem resultOf_within (i : Instr) (s : State) : ResultWithin s (regionsOf i s.operands).out (resultOf i s) := by
  cases i with
  | nop => exact .of_success (fun _ _ => rfl) id (le_refl _)
  | kdf ksz => exact kdfResult_within ksz s _
  | enc ksz => exact encResult_within ksz s
  | dec ksz => exact decResult_within ksz s
  | sealC ksz gen => exact sealResult_within ksz gen s
  | openC ksz => exact openResult_within ksz s
  | zeroize => exact ⟨fun _ _ => rfl, id, fun h => absurd rfl h, fun _ => rfl, fun _ _ _ => rfl, le_refl _⟩

/-! ### Registers a command writes -/

/-- KDF changes no register but KEY, and none on an error. -/
theorem kdfResult_regs (ksz : BitVec 2) (s : State) :
    ∃ k, (kdfResult ksz s).regs = { s.regs with key := k } ∧ ((kdfResult ksz s).err ≠ .ok → k = s.regs.key) := by
  unfold kdfResult
  simp only
  split
  · exact ⟨s.regs.key, rfl, fun _ => rfl⟩
  split
  · exact ⟨s.regs.key, by simp, fun _ => rfl⟩
  · exact ⟨_, rfl, fun h => absurd rfl h⟩

@[simp] theorem encResult_regs (ksz : BitVec 2) (s : State) : (encResult ksz s).regs = s.regs := by
  unfold encResult
  simp only
  split
  · simp
  split <;> simp

@[simp] theorem decResult_regs (ksz : BitVec 2) (s : State) : (decResult ksz s).regs = s.regs := by
  unfold decResult
  simp only
  split
  · simp
  split <;> simp

@[simp] theorem sealResult_regs (ksz : BitVec 2) (gen : Bool) (s : State) : (sealResult ksz gen s).regs = s.regs := by
  unfold sealResult
  simp only
  split
  · simp
  split <;> simp

@[simp] theorem openResult_regs (ksz : BitVec 2) (s : State) : (openResult ksz s).regs = s.regs := by
  unfold openResult
  simp only
  split
  · simp
  split <;> simp

/-- The registers of a result that is an error are unchanged (40_command_model.md R144). -/
theorem resultOf_regs_of_err (i : Instr) (s : State) (h : (resultOf i s).err ≠ .ok) :
    (resultOf i s).regs = s.regs := by
  cases i with
  | kdf ksz =>
    obtain ⟨k, hk, he⟩ := kdfResult_regs ksz s
    simp only [resultOf] at h ⊢
    rw [hk, he h]
  | nop => rfl
  | enc ksz => simp [resultOf]
  | dec ksz => simp [resultOf]
  | sealC ksz gen => simp [resultOf]
  | openC ksz => simp [resultOf]
  | zeroize => exact absurd rfl h

/-- No command writes a register but KEY, IV and SALT (40_command_model.md R142). -/
theorem resultOf_regs_frame (i : Instr) (s : State) :
    ∃ k v t, (resultOf i s).regs = { s.regs with key := k, iv := v, salt := t } := by
  cases i with
  | kdf ksz =>
    obtain ⟨k, hk, -⟩ := kdfResult_regs ksz s
    exact ⟨k, _, _, hk⟩
  | nop => exact ⟨_, _, _, rfl⟩
  | enc ksz => exact ⟨s.regs.key, s.regs.iv, s.regs.salt, by simp [resultOf]⟩
  | dec ksz => exact ⟨s.regs.key, s.regs.iv, s.regs.salt, by simp [resultOf]⟩
  | sealC ksz gen => exact ⟨s.regs.key, s.regs.iv, s.regs.salt, by simp [resultOf]⟩
  | openC ksz => exact ⟨s.regs.key, s.regs.iv, s.regs.salt, by simp [resultOf]⟩
  | zeroize => exact ⟨_, _, _, rfl⟩

end Sys2Proof.Machine
end

