-- ==== Sys2Proof/Laws/PerInstr.lean ====
section
/-! SUPPORT. What is said of every command as syntax, one lemma per constructor. -/

namespace Sys2Proof.Laws.Encoding

/-- A command's word has the OP of 30_encoding.md R121, RSV zero (R120), the command's own KSZ and GEN where it uses them
and zero where it does not (R125). -/
def Statement (i : Instr) : Prop :=
  rsvField (encode i) = 0 ∧ (opField (encode i)).toNat ≤ 6 ∧
    match i with
    | .nop => encode i = 0
    | .kdf ksz => opField (encode i) = opKdf ∧ kszField (encode i) = ksz ∧ genField (encode i) = false
    | .enc ksz => opField (encode i) = opEnc ∧ kszField (encode i) = ksz ∧ genField (encode i) = false
    | .dec ksz => opField (encode i) = opDec ∧ kszField (encode i) = ksz ∧ genField (encode i) = false
    | .sealC ksz gen => opField (encode i) = opSeal ∧ kszField (encode i) = ksz ∧ genField (encode i) = gen
    | .openC ksz => opField (encode i) = opOpen ∧ kszField (encode i) = ksz ∧ genField (encode i) = false
    | .zeroize => encode i = 6

theorem nop : Statement .nop := by
  unfold Statement
  decide

theorem kdf (ksz : BitVec 2) : Statement (.kdf ksz) := by
  unfold Statement
  revert ksz
  decide

theorem enc (ksz : BitVec 2) : Statement (.enc ksz) := by
  unfold Statement
  revert ksz
  decide

theorem dec (ksz : BitVec 2) : Statement (.dec ksz) := by
  unfold Statement
  revert ksz
  decide

theorem sealC (ksz : BitVec 2) (gen : Bool) : Statement (.sealC ksz gen) := by
  unfold Statement
  revert ksz gen
  decide

theorem openC (ksz : BitVec 2) : Statement (.openC ksz) := by
  unfold Statement
  revert ksz
  decide

theorem zeroize : Statement .zeroize := by
  unfold Statement
  decide

end Sys2Proof.Laws.Encoding
end

