-- ==== Sys2Proof/Laws/Success.lean ====
section
/-! SUPPORT. What each command computes when its checks pass and every access is admitted: the contracts of
00_scope.md R4 on the input as it stood before the command. -/

namespace Sys2Proof.Machine

theorem cbcEncryptPass_eq (p : Platform) (m : Memory) (key iv : List Byte) (inA len outA : Nat)
    (hread : ReadAdmitted p inA len) (hwrite : WriteAdmitted p outA (paddedLength len))
    (hlegal : PassLegal inA len outA (paddedLength len)) :
    cbcEncryptPass p m key iv inA len outA =
      .ok (Memory.writeBytes m outA (encrypt key iv (Memory.readBytes m inA len))) := by
  have e : 16 * (len / 16) + len % 16 = len := Nat.div_add_mod len 16
  rw [cbcEncryptPass, cbcEncryptFrom_eq p _ _ _ _ m inA outA (Nat.mod_lt _ (by decide)) (by rwa [e]) hwrite
    (by rw [e]; exact hlegal), e]
  simp [encrypt]

/-- `CbcDecryptPass`, every access it makes admitted. -/
theorem cbcDecryptPass_eq (p : Platform) (m : Memory) (key iv : List Byte) (inA len outA : Nat) (h0 : 0 < len)
    (h16 : len % 16 = 0) (hread : ReadAdmitted p inA len)
    (hwrite : WriteAdmitted p outA
      (len - 16 + keptBytes (lastBlock (decryptPadded key iv (Memory.readBytes m inA len)))))
    (hlegal : PassLegal inA len outA len) :
    cbcDecryptPass p m key iv inA len outA =
      match decrypt key iv (Memory.readBytes m inA len) with
      | some x => .ok (Memory.writeBytes m outA x, len - x.length)
      | none => .error (.padding (Memory.writeBytes m outA
          ((decryptPadded key iv (Memory.readBytes m inA len)).take (len - 16)))) := by
  have e : 16 * (len / 16 - 1 + 1) = len := by omega
  have e1 : len / 16 - 1 + 1 = len / 16 := by omega
  have e2 : 16 * (len / 16 - 1) = len - 16 := by omega
  have e3 : 16 * (len / 16) = len := by omega
  have hl : (decryptPadded key iv (Memory.readBytes m inA len)).length = len := by
    rw [length_decryptPadded]; simp; omega
  have hd : bytesOf (cbcDecryptBlocks (expandKey key) (Block.ofBytes iv)
      (blocksOf (len / 16) (Memory.readBytes m inA len))) = decryptPadded key iv (Memory.readBytes m inA len) := by
    simp [decryptPadded]
  rw [lastBlock, hl] at hwrite
  rw [cbcDecryptPass, cbcDecryptFrom_eq p _ _ _ m inA outA _ rfl (by rwa [e]) (by rw [e, e1, e2, hd]; exact hwrite)
    (by rw [e]; exact hlegal)]
  simp only [e1, e2, e3, decrypt, hl]
  rw [hd]
  split
  · rename_i hok
    have hbd := padOK_bounds hok
    simp only [List.length_take, hl]
    congr 2
    omega
  · rfl

/-- A plaintext is no longer than its ciphertext. -/
theorem length_decrypt_le {key iv c x : List Byte} (h : decrypt key iv c = some x) : x.length ≤ c.length := by
  unfold decrypt at h
  simp only at h
  split at h
  · obtain rfl := Option.some.inj h
    simp only [List.length_take, length_decryptPadded]
    omega
  · cases h

/-- ENC, every access admitted. -/
theorem encResult_eq {ksz : BitVec 2} {s : State} (hc : encCheck ksz s.operands = none)
    (hr : ReadAdmitted s.platform s.operands.srcAddr.toNat s.operands.srcLen.toNat)
    (hw : WriteAdmitted s.platform s.operands.dstAddr.toNat (paddedLength s.operands.srcLen.toNat)) :
    encResult ksz s = s.success
      (Memory.writeBytes s.mem s.operands.dstAddr.toNat
        (encrypt (s.keyOperand ksz) s.operands.ivBytes s.inputBytes))
      (paddedLength s.operands.srcLen.toNat) s.drawCount := by
  have hb := (regionBad_eq_false_iff _).mp (encCheck_eq_none_iff.mp hc).2
  have hl : PassLegal s.operands.srcAddr.toNat s.operands.srcLen.toNat s.operands.dstAddr.toNat
      (paddedLength s.operands.srcLen.toNat) := by
    have := hb.2.2.2
    rw [disjoint_iff] at this
    simp only [regionsOf, paddedLength, decide_eq_true_eq] at this
    simp only [PassLegal, paddedLength]
    omega
  unfold encResult
  simp only [hc, State.keyOperand, State.inputBytes]
  rw [cbcEncryptPass_eq _ _ _ _ _ _ _ hr hw hl]

/-- DEC, every access it makes admitted. -/
theorem decResult_eq {ksz : BitVec 2} {s : State} (hc : decCheck ksz s.operands = none)
    (hr : ReadAdmitted s.platform s.operands.srcAddr.toNat s.operands.srcLen.toNat)
    (hw : WriteAdmitted s.platform s.operands.dstAddr.toNat
      (s.operands.srcLen.toNat - 16 + keptBytes (heldBlock (.dec ksz) s))) :
    decResult ksz s =
      match decrypt (s.keyOperand ksz) s.operands.ivBytes s.inputBytes with
      | some x => s.success (Memory.writeBytes s.mem s.operands.dstAddr.toNat x) x.length s.drawCount
      | none => s.raiseAbort (.padding (Memory.writeBytes s.mem s.operands.dstAddr.toNat
          ((decryptPadded (s.keyOperand ksz) s.operands.ivBytes s.inputBytes).take (s.operands.srcLen.toNat - 16))))
          (regionsOf (.dec ksz) s.operands).out s.drawCount := by
  have hcc := decCheck_eq_none_iff.mp hc
  have hb := (regionBad_eq_false_iff _).mp hcc.2.2
  have hlen : 0 < s.operands.srcLen.toNat ∧ s.operands.srcLen.toNat % 16 = 0 := by
    have := hcc.2.1
    simp only [cipherLengthBad, Bool.or_eq_false_iff, beq_eq_false_iff_ne, bne_eq_false_iff_eq] at this
    omega
  have hl : PassLegal s.operands.srcAddr.toNat s.operands.srcLen.toNat s.operands.dstAddr.toNat
      s.operands.srcLen.toNat := by
    have := hb.2.2.2
    rw [disjoint_iff] at this
    simp only [regionsOf, decide_eq_true_eq] at this
    simp only [PassLegal]
    omega
  unfold decResult
  simp only [hc]
  simp only [heldBlock, State.keyOperand, State.inputBytes] at hw ⊢
  rw [cbcDecryptPass_eq _ _ _ _ _ _ _ hlen.1 hlen.2 hr hw hl]
  cases hd : decrypt (s.operands.keyBytes (klen ksz)) s.operands.ivBytes
      (Memory.readBytes s.mem s.operands.srcAddr.toNat s.operands.srcLen.toNat) with
  | none => rfl
  | some x =>
    have hx := length_decrypt_le hd
    rw [Memory.length_readBytes] at hx
    simp only
    rw [show s.operands.srcLen.toNat - (s.operands.srcLen.toNat - x.length) = x.length by omega]

/-- SEAL's accesses, all admitted: the container of the plaintext as it stood before. -/
theorem sealPass_eq (p : Platform) (m : Memory) (ksz : BitVec 2) (gen : Bool) (o : OperandRegs) (salt iv : List Byte)
    (hs : salt.length = 16) (hv : iv.length = 16)
    (hb : regionBad (regionsOf (.sealC ksz gen) o) = false)
    (hp : ReadAdmitted p o.pwAddr.toNat o.pwLen.toNat) (hr : ReadAdmitted p o.srcAddr.toNat o.srcLen.toNat)
    (hw : WriteAdmitted p o.dstAddr.toNat (32 + paddedLength o.srcLen.toNat)) :
    sealPass p m ksz o salt iv = .ok (Memory.writeBytes m o.dstAddr.toNat
      (container salt iv
        (encrypt (derive (Memory.readBytes m o.pwAddr.toNat o.pwLen.toNat) salt o.iter.toNat (klen ksz)) iv
          (Memory.readBytes m o.srcAddr.toNat o.srcLen.toNat)))) := by
  have hd := ((regionBad_eq_false_iff _).mp hb).2.2.2
  rw [disjoint_iff] at hd
  simp only [regionsOf, decide_eq_true_eq, paddedLength] at hd
  unfold sealPass
  simp only [dmaRead_ok m hp]
  rw [dmaWrite_ok _ _ (hw.mono (le_refl _) (by omega))]
  simp only
  rw [dmaWrite_ok _ _ (hw.mono (by omega) (by omega))]
  simp only
  rw [cbcEncryptPass_eq _ _ _ _ _ _ _ hr (hw.mono (by omega) (by omega))
    (by simp only [PassLegal, paddedLength]; omega)]
  have hkeep : Memory.readBytes (Memory.writeBytes (Memory.writeBytes m o.dstAddr.toNat salt) (o.dstAddr.toNat + 16) iv)
      o.srcAddr.toNat o.srcLen.toNat = Memory.readBytes m o.srcAddr.toNat o.srcLen.toNat := by
    rcases Nat.eq_zero_or_pos o.srcLen.toNat with h0 | h0
    · simp [h0]
    · rw [Memory.readBytes_writeBytes_of_disjoint _ _ _ _ _ (by omega),
        Memory.readBytes_writeBytes_of_disjoint _ _ _ _ _ (by omega)]
  rw [hkeep, container, derive, Memory.writeBytes_append, Memory.writeBytes_append, List.length_append, hs, hv]

/-- SEAL, every access admitted. -/
theorem sealResult_eq {ksz : BitVec 2} {gen : Bool} {s : State} (hc : sealCheck ksz gen s.operands = none)
    (hp : ReadAdmitted s.platform s.operands.pwAddr.toNat s.operands.pwLen.toNat)
    (hr : ReadAdmitted s.platform s.operands.srcAddr.toNat s.operands.srcLen.toNat)
    (hw : WriteAdmitted s.platform s.operands.dstAddr.toNat (32 + paddedLength s.operands.srcLen.toNat)) :
    sealResult ksz gen s =
      (let header := sealHeader gen s.operands s.drawCount
       s.success (Memory.writeBytes s.mem s.operands.dstAddr.toNat
         (container header.1 header.2
           (encrypt (derive s.passwordBytes header.1 s.operands.iter.toNat (klen ksz)) header.2 s.inputBytes)))
         (32 + paddedLength s.operands.srcLen.toNat) (sealDraws gen s.drawCount)) := by
  have hh := length_sealHeader gen s.operands s.drawCount
  unfold sealResult
  simp only [hc, State.passwordBytes, State.inputBytes]
  rw [sealPass_eq _ _ _ gen _ _ _ hh.1 hh.2 (sealCheck_eq_none_iff.mp hc).2.2.2 hp hr hw]

/-- The container OPEN reads is salt, IV and ciphertext (43_container.md R295). -/
theorem inputBytes_split (s : State) (h : 32 ≤ s.operands.srcLen.toNat) :
    s.inputBytes = Memory.readBytes s.mem s.operands.srcAddr.toNat 16 ++
      (Memory.readBytes s.mem (s.operands.srcAddr.toNat + 16) 16 ++
        Memory.readBytes s.mem (s.operands.srcAddr.toNat + 32) (s.operands.srcLen.toNat - 32)) := by
  rw [State.inputBytes]
  conv_lhs => rw [show s.operands.srcLen.toNat = 16 + (16 + (s.operands.srcLen.toNat - 32)) by omega]
  rw [Memory.readBytes_add, Memory.readBytes_add, Nat.add_assoc]

theorem openParts (s : State) (h : 32 ≤ s.operands.srcLen.toNat) :
    s.inputBytes.take 16 = Memory.readBytes s.mem s.operands.srcAddr.toNat 16 ∧
      s.openIv = Memory.readBytes s.mem (s.operands.srcAddr.toNat + 16) 16 ∧
      s.openCiphertext = Memory.readBytes s.mem (s.operands.srcAddr.toNat + 32) (s.operands.srcLen.toNat - 32) := by
  have hs := inputBytes_split s h
  have hd : s.inputBytes.drop 16 = Memory.readBytes s.mem (s.operands.srcAddr.toNat + 16) 16 ++
      Memory.readBytes s.mem (s.operands.srcAddr.toNat + 32) (s.operands.srcLen.toNat - 32) := by
    rw [hs]; exact List.drop_left' (by simp)
  refine ⟨?_, ?_, ?_⟩
  · rw [hs]; exact List.take_left' (by simp)
  · rw [State.openIv, hd]; exact List.take_left' (by simp)
  · have : s.inputBytes.drop 32 = (s.inputBytes.drop 16).drop 16 := by rw [List.drop_drop]
    rw [State.openCiphertext, this, hd]
    exact List.drop_left' (by simp)

/-- OPEN, every access it makes admitted: the container in memory is split, and its ciphertext decrypted. -/
theorem openResult_eq {ksz : BitVec 2} {s : State} (hc : openCheck ksz s.operands = none)
    (hp : ReadAdmitted s.platform s.operands.pwAddr.toNat s.operands.pwLen.toNat)
    (hr : ReadAdmitted s.platform s.operands.srcAddr.toNat s.operands.srcLen.toNat)
    (hw : WriteAdmitted s.platform s.operands.dstAddr.toNat
      (s.operands.srcLen.toNat - 48 + keptBytes (heldBlock (.openC ksz) s))) :
    openResult ksz s =
      match decrypt (s.openKey ksz) s.openIv s.openCiphertext with
      | some x => s.success (Memory.writeBytes s.mem s.operands.dstAddr.toNat x) x.length s.drawCount
      | none => s.raiseAbort (.padding (Memory.writeBytes s.mem s.operands.dstAddr.toNat
          ((decryptPadded (s.openKey ksz) s.openIv s.openCiphertext).take (s.operands.srcLen.toNat - 48))))
          (regionsOf (.openC ksz) s.operands).out s.drawCount := by
  have hcc := openCheck_eq_none_iff.mp hc
  have hd := ((regionBad_eq_false_iff _).mp hcc.2.2.2.2).2.2.2
  rw [disjoint_iff] at hd
  simp only [regionsOf, decide_eq_true_eq] at hd
  have hlen : 48 ≤ s.operands.srcLen.toNat ∧ (s.operands.srcLen.toNat - 32) % 16 = 0 := by
    have := hcc.2.2.2.1
    simp only [containerLengthBad, Bool.or_eq_false_iff, decide_eq_false_iff_not, beq_eq_false_iff_ne,
      bne_eq_false_iff_eq] at this
    omega
  obtain ⟨e1, e2, e3⟩ := openParts s (by omega)
  have hkey : s.openKey ksz = pbkdf2 (Memory.readBytes s.mem s.operands.pwAddr.toNat s.operands.pwLen.toNat)
      (Memory.readBytes s.mem s.operands.srcAddr.toNat 16) s.operands.iter.toNat (klen ksz) := by
    rw [State.openKey, e1, derive, State.passwordBytes]
  have hw' : WriteAdmitted s.platform s.operands.dstAddr.toNat (s.operands.srcLen.toNat - 32 - 16 +
      keptBytes (lastBlock (decryptPadded (s.openKey ksz) s.openIv
        (Memory.readBytes s.mem (s.operands.srcAddr.toNat + 32) (s.operands.srcLen.toNat - 32))))) := by
    rw [← e3, Nat.sub_sub]; exact hw
  unfold openResult openPass
  simp only [hc, dmaRead_ok _ hp,
    dmaRead_ok s.mem (hr.mono (a' := s.operands.srcAddr.toNat) (n' := 16) (le_refl _) (by omega)),
    dmaRead_ok s.mem (hr.mono (a' := s.operands.srcAddr.toNat + 16) (n' := 16) (by omega) (by omega))]
  rw [← hkey, ← e2, cbcDecryptPass_eq _ _ _ _ _ _ _ (by omega) hlen.2 (hr.mono (by omega) (by omega)) hw'
    (by simp only [PassLegal]; omega), ← e3]
  cases hx : decrypt (s.openKey ksz) s.openIv s.openCiphertext with
  | none => simp only [Nat.sub_sub]
  | some x =>
    have hxl := length_decrypt_le hx
    rw [e3, Memory.length_readBytes] at hxl
    simp only
    rw [show s.operands.srcLen.toNat - 32 - (s.operands.srcLen.toNat - 32 - x.length) = x.length by omega]

/-- KDF, every access admitted. -/
theorem kdfResult_eq {ksz : BitVec 2} {s : State} (hc : kdfCheck ksz s.operands = none)
    (hp : ReadAdmitted s.platform s.operands.pwAddr.toNat s.operands.pwLen.toNat) :
    kdfResult ksz s =
      { s.success s.mem 0 s.drawCount with
        regs := { s.regs with
          key := keyRegs (derive s.passwordBytes s.operands.saltBytes s.operands.iter.toNat (klen ksz)) } } := by
  unfold kdfResult readPassword
  simp only [hc, dmaRead_ok _ hp, derive, State.passwordBytes]

/-- Four bytes put together, bit by bit. -/
theorem getLsbD_append_bytes (a b c d : Byte) (i : Nat) :
    (a ++ b ++ c ++ d : BitVec (8 + 8 + 8 + 8)).getLsbD i =
      if i < 8 then d.getLsbD i
      else if i - 8 < 8 then c.getLsbD (i - 8)
      else if i - 8 - 8 < 8 then b.getLsbD (i - 8 - 8)
      else a.getLsbD (i - 8 - 8 - 8) := by
  simp only [BitVec.getLsbD_append]

/-- The bytes of a word put together from a byte string. -/
theorem wordBytes_wordAt (b : List Byte) (j : Nat) :
    wordBytes (wordAt b j) = [b.getD (4 * j) 0, b.getD (4 * j + 1) 0, b.getD (4 * j + 2) 0, b.getD (4 * j + 3) 0] := by
  have key : ∀ (a b c d : Byte), wordBytes (a ++ b ++ c ++ d : BitVec (8 + 8 + 8 + 8)) = [d, c, b, a] := by
    intro a b c d
    simp only [wordBytes, List.cons.injEq, and_true]
    refine ⟨?_, ?_, ?_, ?_⟩
    all_goals
      apply BitVec.eq_of_getLsbD_eq
      intro i hi
      rw [BitVec.getLsbD_extractLsb', getLsbD_append_bytes, decide_eq_true hi, Bool.true_and]
    · rw [if_pos (by omega), Nat.zero_add]
    · rw [if_neg (by omega), if_pos (by omega), Nat.add_sub_cancel_left]
    · rw [if_neg (by omega), if_neg (by omega), if_pos (by omega)]; congr 1; omega
    · rw [if_neg (by omega), if_neg (by omega), if_neg (by omega)]; congr 1; omega
  exact key _ _ _ _

/-- The bytes of the KEY registers that hold a key (10_state.md R39, 41_kdf.md R210). -/
theorem regBytes_keyRegs (dk : List Byte) (h : dk.length ≤ 32) :
    regBytes (keyRegs dk) = dk ++ List.replicate (32 - dk.length) 0 := by
  have e : regBytes (keyRegs dk) = (List.range 32).map (fun i => dk.getD i 0) := by
    simp only [regBytes, keyRegs, Vector.toList_mk, List.flatMap_cons, List.flatMap_nil, wordBytes_wordAt]
    rfl
  rw [e]
  apply List.ext_getElem (by simp; omega)
  intro i h1 h2
  simp only [List.getElem_map, List.getElem_range, List.getElem_append, List.getElem_replicate, List.getD_eq_getElem?_getD]
  split
  · simp [*]
  · rw [List.getElem?_eq_none (by omega)]; rfl

/-- KeyBytes(klen) after KDF is the derived key (10_state.md R42). -/
theorem keyBytes_keyRegs (o : OperandRegs) (dk : List Byte) (h : dk.length ≤ 32) :
    ({ o with key := keyRegs dk } : OperandRegs).keyBytes dk.length = dk := by
  simp [OperandRegs.keyBytes, regBytes_keyRegs dk h]

theorem klen_le (ksz : BitVec 2) : klen ksz ≤ 32 := by
  unfold klen
  split <;> decide

end Sys2Proof.Machine
end

