-- ==== Sys2Proof/Laws/Runs.lean ====
section
/-! SUPPORT. When a command's checks pass, and what it computes when its first refused access is given: the bridge from
the conditions of Contracts to the results of Success. -/

namespace Sys2Proof.Machine

theorem kszLegal_iff (ksz : BitVec 2) : kszLegal ksz = true ↔ ksz = 0b00 ∨ ksz = 0b10 := by
  simp [kszLegal]

theorem kszIllegal_iff (ksz : BitVec 2) : kszLegal ksz = false ↔ ksz = 0b01 ∨ ksz = 0b11 := by
  revert ksz
  decide

/-- Two regions share no address exactly when none is in both (20_memory.md R90). -/
theorem not_disjoint_iff (r q : Region) :
    disjoint r q = false ↔ ∃ a, (r.base ≤ a ∧ a < r.base + r.size) ∧ q.base ≤ a ∧ a < q.base + q.size := by
  rw [← Bool.not_eq_true, disjoint_iff]
  constructor
  · intro h
    exact ⟨max r.base q.base, by omega⟩
  · rintro ⟨a, h⟩
    omega

theorem wraps_iff (r : Region) (h : r.base < 2 ^ 32) : wraps r = true ↔ 2 ^ 32 < r.base + r.size := by
  simp only [wraps, Bool.and_eq_true, decide_eq_true_eq, show dmaSize = 2 ^ 32 from rfl]
  omega

/-- The region check fails exactly on a region error (20_memory.md R93). -/
theorem regionBad_iff (i : Instr) (o : OperandRegs) : regionBad (regionsOf i o) = true ↔ regionError i o := by
  have hb : (regionsOf i o).pw.base < 2 ^ 32 ∧ (regionsOf i o).inp.base < 2 ^ 32 ∧ (regionsOf i o).out.base < 2 ^ 32 := by
    have h1 := o.pwAddr.isLt
    have h2 := o.srcAddr.isLt
    have h3 := o.dstAddr.isLt
    cases i <;> simp only [regionsOf, emptyRegion] <;> omega
  simp only [regionError, ← wraps_iff _ hb.1, ← wraps_iff _ hb.2.1, ← wraps_iff _ hb.2.2, ← not_disjoint_iff, regionBad,
    Bool.or_eq_true, Bool.not_eq_true', Bool.or_eq_false_iff, or_assoc]

/-! ### A command that runs passes its checks -/

theorem KdfRuns.check {ksz : BitVec 2} {s : State} (h : KdfRuns ksz s) : kdfCheck ksz s.operands = none := by
  refine kdfCheck_eq_none_iff.mpr ⟨(kszLegal_iff _).mpr h.legalKsz, h.iter, ?_⟩
  rw [← Bool.not_eq_true, regionBad_iff]
  have := h.pw
  simp only [regionError, regionsOf, emptyRegion, Bool.true_eq_false, and_false, or_false]
  omega

theorem EncRuns.check {ksz : BitVec 2} {s : State} (h : EncRuns ksz s) : encCheck ksz s.operands = none := by
  refine encCheck_eq_none_iff.mpr ⟨(kszLegal_iff _).mpr h.legalKsz, ?_⟩
  rw [← Bool.not_eq_true, regionBad_iff]
  have h1 := h.inp
  have h2 := h.out
  have h3 := h.legal
  simp only [PassLegal] at h3
  simp only [regionError, regionsOf, emptyRegion, paddedLength, decide_eq_false_iff_not]
  rintro (h | h | h | ⟨⟨a, ha⟩, h⟩) <;> omega

theorem DecRuns.check {ksz : BitVec 2} {s : State} (h : DecRuns ksz s) : decCheck ksz s.operands = none := by
  refine decCheck_eq_none_iff.mpr ⟨(kszLegal_iff _).mpr h.legalKsz, ?_, ?_⟩
  · simp [cipherLengthBad, h.blocks, h.nonzero]
  rw [← Bool.not_eq_true, regionBad_iff]
  have h1 := h.inp
  have h2 := h.out
  have h3 := h.legal
  have h4 := h.nonzero
  simp only [PassLegal] at h3
  simp only [regionError, regionsOf, emptyRegion, decide_eq_false_iff_not]
  rintro (h | h | h | ⟨⟨a, ha⟩, h⟩) <;> omega

theorem SealRuns.check {ksz : BitVec 2} {s : State} (h : SealRuns ksz s) (gen : Bool) :
    sealCheck ksz gen s.operands = none := by
  refine sealCheck_eq_none_iff.mpr ⟨(kszLegal_iff _).mpr h.legalKsz, h.iter, h.pwNonempty, ?_⟩
  rw [← Bool.not_eq_true, regionBad_iff]
  have h0 := h.pw
  have h1 := h.inp
  have h2 := h.out
  have h3 := h.legal
  simp only [regionError, regionsOf, paddedLength, decide_eq_false_iff_not]
  rintro (h | h | h | ⟨⟨a, ha⟩, h⟩) <;> omega

theorem OpenRuns.check {ksz : BitVec 2} {s : State} (h : OpenRuns ksz s) : openCheck ksz s.operands = none := by
  refine openCheck_eq_none_iff.mpr ⟨(kszLegal_iff _).mpr h.legalKsz, h.iter, h.pwNonempty, ?_, ?_⟩
  · have h1 := h.long
    have h2 := h.blocks
    simp only [containerLengthBad, Bool.or_eq_false_iff, decide_eq_false_iff_not, beq_eq_false_iff_ne,
      bne_eq_false_iff_eq]
    omega
  rw [← Bool.not_eq_true, regionBad_iff]
  have h0 := h.pw
  have h1 := h.inp
  have h2 := h.out
  have h3 := h.legal
  have h4 := h.long
  simp only [regionError, regionsOf, decide_eq_false_iff_not]
  rintro (h | h | h | ⟨⟨a, ha⟩, h⟩) <;> omega

/-! ### The first refused access -/

/-- KDF with a refused access. -/
theorem kdfResult_of_refused {ksz : BitVec 2} {s : State} {a : Nat} (hc : kdfCheck ksz s.operands = none)
    (h : refusedAddress (.kdf ksz) s = some a) : kdfResult ksz s = s.raiseAbort (.bus a) emptyRegion s.drawCount := by
  unfold kdfResult readPassword
  simp only [refusedAddress, accessOrder] at h
  simp only [hc, dmaRead_eq, h]

theorem kdf_admitted {ksz : BitVec 2} {s : State} (h : refusedAddress (.kdf ksz) s = none) :
    ReadAdmitted s.platform s.operands.pwAddr.toNat s.operands.pwLen.toNat := readAdmitted_of_none h

/-- ENC with a refused access. -/
theorem encResult_of_refused {ksz : BitVec 2} {s : State} {a : Nat} (hc : encCheck ksz s.operands = none)
    (h : refusedAddress (.enc ksz) s = some a) :
    encResult ksz s = s.raiseAbort (.bus a) (regionsOf (.enc ksz) s.operands).out s.drawCount := by
  unfold encResult cbcEncryptPass
  simp only [refusedAddress, accessOrder] at h
  simp only [hc, (cbcEncryptFrom_eq_error_iff _ _ _ _ _ _ _ _ _).mpr ⟨a, rfl, h⟩]

theorem enc_admitted {ksz : BitVec 2} {s : State} (h : refusedAddress (.enc ksz) s = none) :
    ReadAdmitted s.platform s.operands.srcAddr.toNat s.operands.srcLen.toNat ∧
      WriteAdmitted s.platform s.operands.dstAddr.toNat (paddedLength s.operands.srcLen.toNat) := by
  have := encOrder_admitted h
  rwa [Nat.div_add_mod] at this

/-- The last block of a padded plaintext of `len` bytes, as the passes index it. -/
theorem lastBlock_decryptPadded (key iv c : List Byte) (h0 : 0 < c.length) (h16 : c.length % 16 = 0) :
    lastBlock (decryptPadded key iv c) =
      (bytesOf (cbcDecryptBlocks (expandKey key) (Block.ofBytes iv) (blocksOf (c.length / 16 - 1 + 1) c))).drop
        (16 * (c.length / 16 - 1)) := by
  rw [lastBlock, length_decryptPadded, decryptPadded, show c.length / 16 - 1 + 1 = c.length / 16 by omega,
    show 16 * (c.length / 16) - 16 = 16 * (c.length / 16 - 1) by omega]

/-- `CbcDecryptPass` with a refused access. -/
theorem cbcDecryptPass_of_refused {p : Platform} {m : Memory} {key iv : List Byte} {inA len outA a : Nat}
    (h0 : 0 < len) (h16 : len % 16 = 0) (hlegal : PassLegal inA len outA len)
    (h : firstRefusedAccess p (decOrder (keptBytes (lastBlock (decryptPadded key iv (Memory.readBytes m inA len))))
      (len / 16 - 1) inA outA) = some a) :
    cbcDecryptPass p m key iv inA len outA = .error (.bus a) := by
  have e : 16 * (len / 16 - 1 + 1) = len := by omega
  rw [lastBlock_decryptPadded _ _ _ (by simpa using h0) (by simpa using h16), Memory.length_readBytes] at h
  rw [cbcDecryptPass, cbcDecryptFrom_eq_bus_iff _ _ _ _ _ _ _ _ (by rwa [e]), e]
  exact h

/-- DEC with a refused access. -/
theorem decResult_of_refused {ksz : BitVec 2} {s : State} {a : Nat} (hc : decCheck ksz s.operands = none)
    (h : refusedAddress (.dec ksz) s = some a) :
    decResult ksz s = s.raiseAbort (.bus a) (regionsOf (.dec ksz) s.operands).out s.drawCount := by
  have hcc := decCheck_eq_none_iff.mp hc
  have hb := ((regionBad_eq_false_iff _).mp hcc.2.2).2.2.2
  rw [disjoint_iff] at hb
  simp only [regionsOf, decide_eq_true_eq] at hb
  have hlen : 0 < s.operands.srcLen.toNat ∧ s.operands.srcLen.toNat % 16 = 0 := by
    have := hcc.2.1
    simp only [cipherLengthBad, Bool.or_eq_false_iff, beq_eq_false_iff_ne, bne_eq_false_iff_eq] at this
    omega
  unfold decResult
  simp only [refusedAddress, accessOrder, heldBlock, State.keyOperand, State.inputBytes] at h
  simp only [hc]
  rw [cbcDecryptPass_of_refused hlen.1 hlen.2 (by simp only [PassLegal]; omega) h]

theorem dec_admitted {ksz : BitVec 2} {s : State} (hc : decCheck ksz s.operands = none)
    (h : refusedAddress (.dec ksz) s = none) :
    ReadAdmitted s.platform s.operands.srcAddr.toNat s.operands.srcLen.toNat ∧
      WriteAdmitted s.platform s.operands.dstAddr.toNat
        (s.operands.srcLen.toNat - 16 + keptBytes (heldBlock (.dec ksz) s)) := by
  have hlen : 0 < s.operands.srcLen.toNat ∧ s.operands.srcLen.toNat % 16 = 0 := by
    have := (decCheck_eq_none_iff.mp hc).2.1
    simp only [cipherLengthBad, Bool.or_eq_false_iff, beq_eq_false_iff_ne, bne_eq_false_iff_eq] at this
    omega
  have := decOrder_admitted h
  rwa [show 16 * (s.operands.srcLen.toNat / 16 - 1 + 1) = s.operands.srcLen.toNat by omega,
    show 16 * (s.operands.srcLen.toNat / 16 - 1) = s.operands.srcLen.toNat - 16 by omega] at this

/-- SEAL with a refused access. -/
theorem sealResult_of_refused {ksz : BitVec 2} {gen : Bool} {s : State} {a : Nat}
    (hc : sealCheck ksz gen s.operands = none) (h : refusedAddress (.sealC ksz gen) s = some a) :
    sealResult ksz gen s =
      s.raiseAbort (.bus a) (regionsOf (.sealC ksz gen) s.operands).out (sealDraws gen s.drawCount) := by
  have hh := length_sealHeader gen s.operands s.drawCount
  have hp : sealPass s.platform s.mem ksz s.operands (sealHeader gen s.operands s.drawCount).1
      (sealHeader gen s.operands s.drawCount).2 = .error (.bus a) := by
    simp only [refusedAddress, accessOrder, firstRefusedAccess_append, Option.or_assoc] at h
    unfold sealPass
    simp only [dmaRead_eq, dmaWrite_eq, hh.1, hh.2]
    cases h1 : firstRefusedAccess s.platform (readsAt s.operands.pwAddr.toNat s.operands.pwLen.toNat) with
    | some x => rw [h1] at h; simp_all
    | none =>
      cases h2 : firstRefusedAccess s.platform (writesAt s.operands.dstAddr.toNat 16) with
      | some x => rw [h1, h2] at h; simp_all
      | none =>
        cases h3 : firstRefusedAccess s.platform (writesAt (s.operands.dstAddr.toNat + 16) 16) with
        | some x => rw [h1, h2, h3] at h; simp_all
        | none =>
          rw [h1, h2, h3] at h
          exact (cbcEncryptFrom_eq_error_iff _ _ _ _ _ _ _ _ _).mpr ⟨a, rfl, by simpa using h⟩
  unfold sealResult
  simp only [hc, hp]

theorem seal_admitted {ksz : BitVec 2} {gen : Bool} {s : State} (h : refusedAddress (.sealC ksz gen) s = none) :
    ReadAdmitted s.platform s.operands.pwAddr.toNat s.operands.pwLen.toNat ∧
      ReadAdmitted s.platform s.operands.srcAddr.toNat s.operands.srcLen.toNat ∧
      WriteAdmitted s.platform s.operands.dstAddr.toNat (32 + paddedLength s.operands.srcLen.toNat) := by
  simp only [refusedAddress, accessOrder, firstRefusedAccess_append, Option.or_eq_none_iff] at h
  obtain ⟨⟨⟨h1, h2⟩, h3⟩, h4⟩ := h
  have i1 := readAdmitted_of_none h1
  have i2 := writeAdmitted_of_none h2
  have i3 := writeAdmitted_of_none h3
  obtain ⟨i4, i5⟩ := encOrder_admitted h4
  rw [Nat.div_add_mod] at i4
  refine ⟨i1, i4, fun i hi => ?_⟩
  by_cases c1 : i < 16
  · exact i2 i c1
  by_cases c2 : i < 32
  · have := i3 (i - 16) (by omega)
    rwa [show s.operands.dstAddr.toNat + 16 + (i - 16) = s.operands.dstAddr.toNat + i by omega] at this
  · have := i5 (i - 32) (by simp only [paddedLength] at hi; omega)
    rwa [show s.operands.dstAddr.toNat + 32 + (i - 32) = s.operands.dstAddr.toNat + i by omega] at this

/-- What the length and region checks of OPEN let through. -/
theorem openCheck_facts {ksz : BitVec 2} {s : State} (hc : openCheck ksz s.operands = none) :
    48 ≤ s.operands.srcLen.toNat ∧ (s.operands.srcLen.toNat - 32) % 16 = 0 ∧
      PassLegal (s.operands.srcAddr.toNat + 32) (s.operands.srcLen.toNat - 32) s.operands.dstAddr.toNat
        (s.operands.srcLen.toNat - 32) := by
  have hcc := openCheck_eq_none_iff.mp hc
  have hd := ((regionBad_eq_false_iff _).mp hcc.2.2.2.2).2.2.2
  rw [disjoint_iff] at hd
  simp only [regionsOf, decide_eq_true_eq] at hd
  have := hcc.2.2.2.1
  simp only [containerLengthBad, Bool.or_eq_false_iff, decide_eq_false_iff_not, beq_eq_false_iff_ne,
    bne_eq_false_iff_eq] at this
  refine ⟨by omega, by omega, ?_⟩
  simp only [PassLegal]
  omega

/-- OPEN with a refused access. -/
theorem openResult_of_refused {ksz : BitVec 2} {s : State} {a : Nat} (hc : openCheck ksz s.operands = none)
    (h : refusedAddress (.openC ksz) s = some a) :
    openResult ksz s = s.raiseAbort (.bus a) (regionsOf (.openC ksz) s.operands).out s.drawCount := by
  obtain ⟨h48, h16, hl⟩ := openCheck_facts hc
  obtain ⟨e1, e2, e3⟩ := openParts s (by omega)
  have hp : openPass s.platform s.mem ksz s.operands = .error (.bus a) := by
    simp only [refusedAddress, accessOrder, firstRefusedAccess_append, Option.or_assoc, heldBlock, e3] at h
    unfold openPass
    simp only [dmaRead_eq]
    cases h1 : firstRefusedAccess s.platform (readsAt s.operands.pwAddr.toNat s.operands.pwLen.toNat) with
    | some x => rw [h1] at h; simp_all
    | none =>
      cases h2 : firstRefusedAccess s.platform (readsAt s.operands.srcAddr.toNat 16) with
      | some x => rw [h1, h2] at h; simp_all
      | none =>
        cases h3 : firstRefusedAccess s.platform (readsAt (s.operands.srcAddr.toNat + 16) 16) with
        | some x => rw [h1, h2, h3] at h; simp_all
        | none =>
          rw [h1, h2, h3] at h
          simp only [Option.none_or] at h
          simp only
          rw [← e2, ← e1, show pbkdf2 (Memory.readBytes s.mem s.operands.pwAddr.toNat s.operands.pwLen.toNat)
            (s.inputBytes.take 16) s.operands.iter.toNat (klen ksz) = s.openKey ksz from rfl]
          exact cbcDecryptPass_of_refused (by omega) h16 hl h
  unfold openResult
  simp only [hc, hp]

theorem open_admitted {ksz : BitVec 2} {s : State} (hc : openCheck ksz s.operands = none)
    (h : refusedAddress (.openC ksz) s = none) :
    ReadAdmitted s.platform s.operands.pwAddr.toNat s.operands.pwLen.toNat ∧
      ReadAdmitted s.platform s.operands.srcAddr.toNat s.operands.srcLen.toNat ∧
      WriteAdmitted s.platform s.operands.dstAddr.toNat
        (s.operands.srcLen.toNat - 48 + keptBytes (heldBlock (.openC ksz) s)) := by
  obtain ⟨h48, h16, -⟩ := openCheck_facts hc
  simp only [refusedAddress, accessOrder, firstRefusedAccess_append, Option.or_eq_none_iff] at h
  obtain ⟨⟨⟨h1, h2⟩, h3⟩, h4⟩ := h
  have i1 := readAdmitted_of_none h1
  have i2 := readAdmitted_of_none h2
  have i3 := readAdmitted_of_none h3
  obtain ⟨i4, i5⟩ := decOrder_admitted h4
  rw [show 16 * ((s.operands.srcLen.toNat - 32) / 16 - 1) = s.operands.srcLen.toNat - 48 by omega] at i5
  refine ⟨i1, fun i hi => ?_, i5⟩
  by_cases c1 : i < 16
  · exact i2 i c1
  by_cases c2 : i < 32
  · have := i3 (i - 16) (by omega)
    rwa [show s.operands.srcAddr.toNat + 16 + (i - 16) = s.operands.srcAddr.toNat + i by omega] at this
  · have := i4 (i - 32) (by omega)
    rwa [show s.operands.srcAddr.toNat + 32 + (i - 32) = s.operands.srcAddr.toNat + i by omega] at this

/-- Decryption fails exactly on a bad padding of the last block (42_cipher.md R251). -/
theorem decrypt_eq_none_iff (key iv c : List Byte) :
    decrypt key iv c = none ↔ padOK (lastBlock (decryptPadded key iv c)) = false := by
  simp only [decrypt, lastBlock]
  split <;> simp_all

end Sys2Proof.Machine
end

