-- ==== Sys2Proof/Laws/Step.lean ====
section
/-! SUPPORT. The register window and the step: what each can do, said once, and which relations each keeps. -/

namespace Sys2Proof.Machine

/-! ### The register map -/

/-- A register is found at its own offset. -/
@[simp] theorem regAt_regOffset (r : Reg) : regAt (regOffset r) = some r := by
  cases r with
  | key j => revert j; decide
  | iv j => revert j; decide
  | salt j => revert j; decide
  | _ => rfl

/-- Only a register's own offset finds it. -/
theorem regOffset_of_regAt {off : Nat} {r : Reg} (h : regAt off = some r) : regOffset r = off := by
  have hm : (off, r) ∈ regMap := by
    rw [regAt] at h
    generalize regMap = l at h
    induction l with
    | nil => simp at h
    | cons c l ih =>
      obtain ⟨k, v⟩ := c
      rw [List.lookup_cons] at h
      split at h
      · rename_i hk
        simp_all
      · exact List.mem_cons_of_mem _ (ih h)
  have hall : ∀ c ∈ regMap, regOffset c.2 = c.1 := by decide
  exact hall _ hm

theorem regOffset_le (r : Reg) : regOffset r ≤ 0xFC ∧ regOffset r % 4 = 0 := by
  cases r with
  | key j => revert j; decide
  | iv j => revert j; decide
  | salt j => revert j; decide
  | _ => decide

/-- The aligned 32-bit access to a register reaches its offset. -/
@[simp] theorem windowOffset_reg (p : Platform) (r : Reg) :
    windowOffset p (windowBase p + regOffset r) 4 = some (regOffset r) := by
  have h := regOffset_le r
  rw [windowOffset, Nat.add_sub_cancel_left]
  exact if_pos ⟨rfl, by omega, h.1, h.2⟩

theorem windowOffset_eq_some_iff {p : Platform} {addr size off : Nat} :
    windowOffset p addr size = some off ↔ size = 4 ∧ addr = windowBase p + off ∧ off ≤ 0xFC ∧ off % 4 = 0 := by
  simp only [windowOffset]
  constructor
  · intro h
    split at h
    · rename_i hc
      obtain rfl := Option.some.inj h
      exact ⟨hc.1, by omega, hc.2.2.1, hc.2.2.2⟩
    · cases h
  · rintro ⟨rfl, rfl, h1, h2⟩
    rw [Nat.add_sub_cancel_left, if_pos ⟨rfl, by omega, h1, h2⟩]

@[simp] theorem windowRead_reg (s : State) (r : Reg) : s.windowRead (regOffset r) = s.readReg r := by
  simp [State.windowRead]

@[simp] theorem windowWrite_reg (s : State) (r : Reg) (d : Word) : s.windowWrite (regOffset r) d = s.writeReg r d := by
  simp [State.windowWrite]

/-! ### What a host write can do -/

theorem whenIdle_of_busy {s t : State} (h : s.status.busy = true) :
    s.whenIdle t = { s with status := s.status.overrun } := if_pos h

theorem whenIdle_of_idle {s t : State} (h : s.status.busy = false) : s.whenIdle t = t := by
  simp [State.whenIdle, h]

/-- Everything a host write of the window can do. -/
inductive WindowWrite (s : State) : State → Prop where
  | ignored : WindowWrite s s
  | reset : WindowWrite s s.resetEngine
  | enable (b : Bool) : WindowWrite s { s with ie := b }
  | clear (d : Word) : WindowWrite s { s with status := s.status.writeOneToClear d }
  | dropped : s.status.busy = true → WindowWrite s { s with status := s.status.overrun }
  | accepted (w : Word) : s.status.busy = false → WindowWrite s (s.accept w)
  | stored (r : Reg) (d : Word) : s.status.busy = false → WindowWrite s { s with regs := s.regs.write d r }

theorem windowWrite_whenIdle {s t : State} (h : s.status.busy = false → WindowWrite s t) :
    WindowWrite s (s.whenIdle t) := by
  cases hb : s.status.busy with
  | true => rw [whenIdle_of_busy hb]; exact .dropped hb
  | false => rw [whenIdle_of_idle hb]; exact h hb

theorem windowWrite_writeReg (s : State) (r : Reg) (d : Word) : WindowWrite s (s.writeReg r d) := by
  have hop : ∀ r, WindowWrite s (s.writeOperand r d) := fun r => windowWrite_whenIdle fun h => .stored r d h
  cases r with
  | ctrl =>
    simp only [State.writeReg, State.writeCtrl]
    split
    · exact .reset
    · exact .enable _
  | status => exact .clear d
  | cmd => exact windowWrite_whenIdle fun h => .accepted d h
  | outLen => exact .ignored
  | errAddr => exact .ignored
  | iter => exact hop _
  | pwAddr => exact hop _
  | pwLen => exact hop _
  | srcAddr => exact hop _
  | srcLen => exact hop _
  | dstAddr => exact hop _
  | key j => exact hop _
  | iv j => exact hop _
  | salt j => exact hop _

/-! ### One step, by what comes first -/

/-- A host write to a register. -/
theorem step_busWrite_reg {s : State} {rest : List Event} {r : Reg} {d : Word}
    (h : s.inputs = .busWrite (windowBase s.platform + regOffset r) 4 d :: rest) :
    step s = .next (State.writeReg { s with inputs := rest } r d) := by
  unfold step
  rw [h]
  simp only [takeEvent, hostWrite, windowOffset_reg, windowWrite_reg]

/-- A host read of a register. -/
theorem step_busRead_reg {s : State} {rest : List Event} {r : Reg}
    (h : s.inputs = .busRead (windowBase s.platform + regOffset r) 4 :: rest) :
    step s = .next { s with inputs := rest, results := .word (s.readReg r) :: s.results } := by
  unfold step
  rw [h]
  simp only [takeEvent, hostRead, windowOffset_reg, windowRead_reg]
  rfl

/-- The engine's turn when nothing is listed. -/
theorem step_of_nil {s : State} (h : s.inputs = []) : step s = engineTurn s := by
  unfold step
  rw [h]

/-- The engine's turn when it is listed first. -/
theorem step_engine {s : State} {rest : List Event} (h : s.inputs = .engine :: rest) :
    step s = engineTurn { s with inputs := rest } := by
  unfold step
  rw [h]
  rfl

/-- A WAIT. -/
theorem step_wait {s : State} {rest : List Event} (h : s.inputs = .wait :: rest) :
    step s = if s.status.done then .next { s with inputs := rest } else engineTurn s := by
  unfold step
  rw [h]
  rfl

/-- The reset input. -/
theorem step_powerOnReset {s : State} {rest : List Event} (h : s.inputs = .powerOnReset :: rest) :
    step s = .next (State.resetEngine { s with inputs := rest }) := by
  unfold step
  rw [h]
  rfl

/-- A running command word that decodes. -/
theorem engineTurn_of_decode {s : State} {w : Word} {i : Instr} (hs : s.sequencer = .running w) (hd : decode w = .ok i) :
    engineTurn s = exec i s := by
  unfold engineTurn
  rw [hs]
  simp only [complete, hd]

/-- A running Illegal word. -/
theorem engineTurn_of_illegal {s : State} {w : Word} {e : DecodeError} (hs : s.sequencer = .running w)
    (hd : decode w = .error e) : engineTurn s = .next (completeIllegal s) := by
  unfold engineTurn
  rw [hs]
  simp only [complete, hd]

/-- An idle engine. -/
theorem engineTurn_of_idle {s : State} (hs : s.sequencer = .idle) : engineTurn s = .next s := by
  unfold engineTurn
  rw [hs]

/-! ### What a step can do -/

theorem hostSideAccess_eq_next {s made t : State} {a n : Nat} (h : s.hostSideAccess a n made = .next t) :
    a + n ≤ dmaSize ∧ reachesDevice s.platform a n = false ∧ s.races a n = false ∧ t = made := by
  unfold State.hostSideAccess at h
  split at h
  · cases h
  split at h
  · cases h
  split at h
  · cases h
  rename_i h1 h2 h3
  exact ⟨by omega, by simpa using h2, by simpa using h3, (Host.Outcome.next.inj h).symm⟩

/-- Everything a step that answers a next state can do: `l` is what is listed after it. -/
inductive StepBy (s : State) : State → Prop where
  /-- the running command completes -/
  | completed (l : List Event) (i : Instr) (w : Word) : s.sequencer = .running w → decode w = .ok i →
      StepBy s (State.commit { s with inputs := l } (resultOf i { s with inputs := l }))
  /-- the running Illegal word completes -/
  | illegal (l : List Event) (w : Word) (e : DecodeError) : s.sequencer = .running w → decode w = .error e →
      StepBy s (completeIllegal { s with inputs := l })
  /-- nothing changes but the two lists of host traffic -/
  | kept (l : List Event) (rs : List HostResult) : StepBy s { s with inputs := l, results := rs }
  /-- the reset input -/
  | reset (l : List Event) : s.inputs = .powerOnReset :: l → StepBy s (State.resetEngine { s with inputs := l })
  /-- a host-side store -/
  | stored (l : List Event) (a : Nat) (b : List Byte) : s.inputs = .memStore a b :: l → a + b.length ≤ dmaSize →
      s.races a b.length = false → StepBy s { s with inputs := l, mem := Memory.writeBytes s.mem a b }
  /-- a host write of a register -/
  | wrote (l : List Event) (r : Reg) (d : Word) :
      s.inputs = .busWrite (windowBase s.platform + regOffset r) 4 d :: l →
      StepBy s (State.writeReg { s with inputs := l } r d)

/-- The engine's turn, whatever is listed after it. -/
theorem stepBy_of_engineTurn {s t : State} (l : List Event) (h : engineTurn { s with inputs := l } = .next t) :
    StepBy s t := by
  cases hs : s.sequencer with
  | idle =>
    rw [engineTurn_of_idle (s := { s with inputs := l }) hs] at h
    obtain rfl := Host.Outcome.next.inj h
    exact .kept l s.results
  | running w =>
    cases hd : decode w with
    | ok i =>
      rw [engineTurn_of_decode (s := { s with inputs := l }) hs hd, exec_eq_commit] at h
      obtain rfl := Host.Outcome.next.inj h
      exact .completed l i w hs hd
    | error e =>
      rw [engineTurn_of_illegal (s := { s with inputs := l }) hs hd] at h
      obtain rfl := Host.Outcome.next.inj h
      exact .illegal l w e hs hd

/-- The step, once for all its cases. -/
theorem step_cases {s t : State} (h : step s = .next t) : StepBy s t := by
  cases hin : s.inputs with
  | nil => exact stepBy_of_engineTurn s.inputs (by rwa [step_of_nil hin] at h)
  | cons e rest =>
    cases e with
    | engine => exact stepBy_of_engineTurn rest (by rwa [step_engine hin] at h)
    | wait =>
      rw [step_wait hin] at h
      split at h
      · obtain rfl := Host.Outcome.next.inj h
        exact .kept rest s.results
      · exact stepBy_of_engineTurn s.inputs h
    | powerOnReset =>
      rw [step_powerOnReset hin] at h
      obtain rfl := Host.Outcome.next.inj h
      exact .reset rest hin
    | busRead addr size =>
      unfold step at h
      rw [hin] at h
      simp only [takeEvent, hostRead] at h
      split at h
      · cases h
      · obtain rfl := Host.Outcome.next.inj h
        exact .kept rest _
    | memLoad a n =>
      unfold step at h
      rw [hin] at h
      obtain ⟨-, -, -, rfl⟩ := hostSideAccess_eq_next h
      exact .kept rest _
    | memStore a b =>
      unfold step at h
      rw [hin] at h
      obtain ⟨h1, -, h2, rfl⟩ := hostSideAccess_eq_next h
      exact .stored rest a b hin h1 h2
    | busWrite addr size d =>
      unfold step at h
      rw [hin] at h
      simp only [takeEvent, hostWrite] at h
      split at h
      · cases h
      rename_i off ho
      obtain rfl := Host.Outcome.next.inj h
      obtain ⟨rfl, rfl, -, -⟩ := windowOffset_eq_some_iff.mp ho
      unfold State.windowWrite
      cases hr : regAt off with
      | none => exact .kept rest s.results
      | some r =>
        obtain rfl := regOffset_of_regAt hr
        exact .wrote rest r d hin

/-! ### Host programs -/

/-- What a host program lists when the engine has no turn between its lines. -/
@[simp] theorem inputs_withProgram (s : State) (lines : List HostLine) :
    (s.withProgram lines).inputs = s.inputs ++ lines.map (HostLine.event s.platform) := by
  simp only [State.withProgram, State.withInterleaving, HostLine.events, List.flatMap_map]
  rw [List.map_eq_flatMap]
  rfl

/-! ### The invariant, action by action -/

theorem Inv.of_inputs {s : State} (h : Inv s) (l : List Event) : Inv { s with inputs := l } :=
  ⟨h.memCanonical, h.busyIffRunning, h.pendingIsSnapshot, h.cmdIsRunning, h.notBusyAndDone, h.busyHasNoError,
    h.errorHasNoOutput, h.errAddrOnlyOnBusError, h.hiddenZero⟩

theorem Inv.of_results {s : State} (h : Inv s) (l : List HostResult) : Inv { s with results := l } :=
  ⟨h.memCanonical, h.busyIffRunning, h.pendingIsSnapshot, h.cmdIsRunning, h.notBusyAndDone, h.busyHasNoError,
    h.errorHasNoOutput, h.errAddrOnlyOnBusError, h.hiddenZero⟩

/-- A commit of a result as every command gives it. -/
theorem Inv.of_commit {s : State} (h : Inv s) {out : Region} {r : Result} (hr : ResultWithin s out r) :
    Inv (s.commit r) where
  memCanonical := hr.wf h.memCanonical
  busyIffRunning := by simp
  pendingIsSnapshot := rfl
  cmdIsRunning := by simp
  notBusyAndDone := by simp
  busyHasNoError := by simp
  errorHasNoOutput he := by simp [hr.outLen he]
  errAddrOnlyOnBusError _ he := by simp [hr.errAddr he]
  hiddenZero _ := rfl

theorem Inv.of_accept {s : State} (h : Inv s) (w : Word) : Inv (s.accept w) where
  memCanonical := h.memCanonical
  busyIffRunning := by simp
  pendingIsSnapshot := rfl
  cmdIsRunning := by simp
  notBusyAndDone := by simp
  busyHasNoError := by simp
  errorHasNoOutput := by simp
  errAddrOnlyOnBusError := by simp
  hiddenZero := by simp

theorem Inv.of_reset {s : State} (h : Inv s) : Inv s.resetEngine where
  memCanonical := Memory.wf_unspecify h.memCanonical _ _
  busyIffRunning := by simp
  pendingIsSnapshot := rfl
  cmdIsRunning := by simp
  notBusyAndDone := by simp
  busyHasNoError := by simp
  errorHasNoOutput := by simp
  errAddrOnlyOnBusError := by simp
  hiddenZero _ := rfl

theorem Inv.of_store {s : State} (h : Inv s) (a : Nat) (b : List Byte) (hb : a + b.length ≤ dmaSize) :
    Inv { s with mem := Memory.writeBytes s.mem a b } :=
  ⟨Memory.wf_writeBytes h.memCanonical b (.inr hb), h.busyIffRunning, h.pendingIsSnapshot, h.cmdIsRunning,
    h.notBusyAndDone, h.busyHasNoError, h.errorHasNoOutput, h.errAddrOnlyOnBusError, h.hiddenZero⟩

theorem Inv.of_windowWrite {s t : State} (h : Inv s) (hw : WindowWrite s t) : Inv t := by
  cases hw with
  | ignored => exact h
  | reset => exact h.of_reset
  | enable b =>
    exact ⟨h.memCanonical, h.busyIffRunning, h.pendingIsSnapshot, h.cmdIsRunning, h.notBusyAndDone, h.busyHasNoError,
      h.errorHasNoOutput, h.errAddrOnlyOnBusError, h.hiddenZero⟩
  | clear d =>
    exact ⟨h.memCanonical, h.busyIffRunning, h.pendingIsSnapshot, h.cmdIsRunning,
      fun hb => by simp [h.notBusyAndDone hb], h.busyHasNoError, h.errorHasNoOutput, h.errAddrOnlyOnBusError,
      h.hiddenZero⟩
  | dropped hb =>
    exact ⟨h.memCanonical, h.busyIffRunning, h.pendingIsSnapshot, h.cmdIsRunning, h.notBusyAndDone, h.busyHasNoError,
      h.errorHasNoOutput, h.errAddrOnlyOnBusError, h.hiddenZero⟩
  | accepted w hb => exact h.of_accept w
  | stored r d hb =>
    refine ⟨h.memCanonical, h.busyIffRunning, ?_, h.cmdIsRunning, h.notBusyAndDone, h.busyHasNoError,
      h.errorHasNoOutput, h.errAddrOnlyOnBusError, h.hiddenZero⟩
    have hidle : s.sequencer = .idle := by
      by_contra hne
      rw [h.busyIffRunning.mpr hne] at hb
      cases hb
    have := h.pendingIsSnapshot
    rw [hidle] at this
    simp [this, hidle]

/-- In a state of a run the snapshot is the live registers (40_command_model.md R140). -/
theorem Inv.operands_eq_regs {s : State} (h : Inv s) : s.operands = s.regs := by
  have := h.pendingIsSnapshot
  cases hs : s.sequencer with
  | idle => rw [hs] at this; exact State.operands_of_none this
  | running w => rw [hs] at this; rw [State.operands_of_pending this]

end Sys2Proof.Machine
end

