-- ==== Sys2Proof/Tests/Slice0.lean ====
section
/-! SUPPORT. Tests of the model. Expected values come from spec/, whose section each test names; a witness shows that the
hypotheses of a statement can be met together. -/

namespace Sys2Proof.Tests

open Sys2Proof Sys2Proof.Machine

/-! ### WellFormed refuses a reserved KSZ (30_encoding.md R122) -/

theorem test_wellFormed_refuses_kdf : (Instr.kdf 0b01).wellFormed = false := by decide

theorem test_wellFormed_refuses_enc : (Instr.enc 0b11).wellFormed = false := by decide

theorem test_wellFormed_refuses_dec : (Instr.dec 0b01).wellFormed = false := by decide

theorem test_wellFormed_refuses_seal : (Instr.sealC 0b11 true).wellFormed = false := by decide

theorem test_wellFormed_refuses_open : (Instr.openC 0b01).wellFormed = false := by decide

theorem test_wellFormed_accepts : (Instr.sealC 0b10 true).wellFormed = true ∧ Instr.zeroize.wellFormed = true := by
  decide

/-! ### Decoding: RSV, GEN, KSZ and OP written out bit by bit (30_encoding.md R120, R121) -/

theorem test_decode_nop : decode (0b000000000000000000000_0_00_00000000) = .ok .nop := by decide

theorem test_decode_kdf : decode (0b000000000000000000000_0_10_00000001) = .ok (.kdf 0b10) := by decide

theorem test_decode_enc : decode (0b000000000000000000000_0_00_00000010) = .ok (.enc 0b00) := by decide

theorem test_decode_dec : decode (0b000000000000000000000_0_01_00000011) = .ok (.dec 0b01) := by decide

theorem test_decode_seal : decode (0b000000000000000000000_1_10_00000100) = .ok (.sealC 0b10 true) := by decide

theorem test_decode_open : decode (0b000000000000000000000_0_11_00000101) = .ok (.openC 0b11) := by decide

theorem test_decode_zeroize : decode (0b000000000000000000000_0_00_00000110) = .ok .zeroize := by decide

/-- 95_test_vectors.md V5, V7 to V11. -/
theorem test_decode_illegal : decode 0x00000007 = .error .illegalCommand ∧ decode 0x00000100 = .error .illegalCommand ∧
    decode 0x00000402 = .error .illegalCommand ∧ decode 0x00000800 = .error .illegalCommand ∧
    decode 0x80000201 = .error .illegalCommand ∧ decode 0x00000406 = .error .illegalCommand := by decide

/-! ### States for the tests (the conventions of 95_test_vectors.md) -/

/-- An idle machine with these operand registers and memory. -/
def idle (o : OperandRegs) (m : Memory) : State := { State.reset with regs := o, mem := m }

/-- The next state, where there is one. -/
def after (o : Host.Outcome State Fault Refusal) : Option State :=
  match o with
  | .next t => some t
  | .fault _ => none
  | .refused _ => none

/-- The bits of the opcode table and the fetched word agree, and the step runs them as the first command after reset. -/
theorem test_fetched_word_runs : decodeTableWord 32 0x604 = some (.sealC 0b10 true) ∧
    (after (step (State.reset.withFetchWord 32 0x6))).map (fun t => (t.cmd, t.status.word)) = some (6, 2) ∧
    (after (step (State.reset.withFetchWord 32 0x3))).map (fun t => (t.cmd, t.status.word)) = some (3, 0x202) := by
  decide +kernel

/-- Memory with these byte strings. -/
def memOf (l : List (Nat × List Byte)) : Memory := l.foldl (fun m x => Memory.writeBytes m x.1 x.2) []

/-- KEY: the k16 key; with the upper half, the k32 key. -/
def key16 : Vector Word 8 := #v[0x03020100, 0x07060504, 0x0b0a0908, 0x0f0e0d0c, 0, 0, 0, 0]

def key32 : Vector Word 8 :=
  #v[0x03020100, 0x07060504, 0x0b0a0908, 0x0f0e0d0c, 0x13121110, 0x17161514, 0x1b1a1918, 0x1f1e1d1c]

/-- Salt S0 and IV V1. -/
def saltS0 : Vector Word 4 := #v[0x03020100, 0x07060504, 0x0b0a0908, 0x0f0e0d0c]
def ivV1 : Vector Word 4 := #v[0x13121110, 0x17161514, 0x1b1a1918, 0x1f1e1d1c]

/-- The password "password", and the plaintext "hello". -/
def password : List Byte := [0x70, 0x61, 0x73, 0x73, 0x77, 0x6f, 0x72, 0x64]
def hello : List Byte := [0x68, 0x65, 0x6c, 0x6c, 0x6f]

/-- The header of the containers (section SEAL), and the container of V40. -/
def headerBytes : List Byte :=
  [0x00, 0x01, 0x02, 0x03, 0x04, 0x05, 0x06, 0x07, 0x08, 0x09, 0x0a, 0x0b, 0x0c, 0x0d, 0x0e, 0x0f, 0x10, 0x11, 0x12,
   0x13, 0x14, 0x15, 0x16, 0x17, 0x18, 0x19, 0x1a, 0x1b, 0x1c, 0x1d, 0x1e, 0x1f]

def containerV40 : List Byte :=
  headerBytes ++ [0x2e, 0x5b, 0x58, 0xa8, 0x84, 0x61, 0x81, 0xfb, 0x8b, 0x3e, 0x52, 0x9e, 0xb8, 0xf5, 0xd4, 0x03]

/-- The operand registers of the vectors: password at 0x1000, ITER = 1, salt S0, IV V1. -/
def regsOf (src len dst : Word) : OperandRegs :=
  { OperandRegs.reset with
    iter := 1, pwAddr := 0x1000, pwLen := 8, srcAddr := src, srcLen := len, dstAddr := dst, salt := saltS0, iv := ivV1 }

/-- The start of V20. -/
def kdfStart : State := idle (regsOf 0 0 0) (memOf [(0x1000, password)])

/-- The start of the ENC vectors: the k16 key, IV V1, n bytes a0, a1, ... at 0x2000. -/
def encStart (len dst : Word) : State :=
  idle { regsOf 0x2000 len dst with key := key16 }
    (memOf [(0x2000, (List.range len.toNat).map (fun i => BitVec.ofNat 8 (0xa0 + i)))])

/-- The start of the DEC vectors: the k16 key, IV 0, the ciphertext at 0x2000, DST at 0x3000 filled with 0xEE. -/
def decStart (c : List Byte) : State :=
  idle { regsOf 0x2000 (BitVec.ofNat 32 c.length) 0x3000 with key := key16, iv := #v[0, 0, 0, 0] }
    (memOf [(0x2000, c), (0x3000, List.replicate c.length 0xEE)])

/-- The start of V40: "hello" at the source address. -/
def sealStart (src : Word) : State := idle (regsOf src 5 0x4000) (memOf [(0x1000, password), (src.toNat, hello)])

/-- The start of V50, with some password: the container of V40 at 0x4000. -/
def openStart (pw : List Byte) (dst : Word) : State :=
  idle (regsOf 0x4000 48 dst) (memOf [(0x1000, pw), (0x4000, containerV40)])

/-- The ciphertexts of V35 and V39b. -/
def cipherV35 : List Byte :=
  [0x49, 0x31, 0x03, 0x2b, 0xec, 0x1f, 0x31, 0x31, 0x8a, 0xd6, 0x8e, 0xdb, 0x07, 0x65, 0x40, 0x19]

def cipherV39b : List Byte :=
  [0xdd, 0x4b, 0x1a, 0x0b, 0x47, 0xda, 0xa7, 0x06, 0x7d, 0x0b, 0x59, 0xd9, 0x5d, 0x58, 0xa6, 0xae, 0x1f, 0x43, 0xe0,
   0x81, 0xa4, 0x8b, 0xdb, 0x7d, 0xf4, 0x5c, 0xa7, 0xd8, 0x6b, 0x81, 0xed, 0xad]

def wrongPassword : List Byte := [0x70, 0x61, 0x73, 0x73, 0x77, 0x6f, 0x72, 0x65]

/-! ### The commands -/

/-- 95_test_vectors.md V70. -/
theorem test_nop_keeps_ovr : (after (exec .nop { State.reset with
      status := { busy := false, done := false, ovr := true, err := .integrityOrPassword } })).map
    (fun t => (t.status.word, t.outLen, t.errAddr)) = some (0x00000006, 0, 0) := by decide +kernel

/-- 95_test_vectors.md V20. -/
theorem test_kdf_k32 : (after (exec (.kdf 0b10) kdfStart)).map (fun t => (t.status.word, t.outLen, t.regs.key)) =
    some (0x00000002, 0, #v[0x928fb0e1, 0xd97481be, 0x5dd942f4, 0xcd4caa89, 0x1a2311c3, 0xb8d0704d, 0x8d54d154,
      0xfdbdfae8]) := by decide +kernel

/-- 95_test_vectors.md V23 (ITER = 2), with KSZ = 0b00. -/
theorem test_kdf_k16_twice : (after (exec (.kdf 0b00) { kdfStart with regs := { kdfStart.regs with iter := 2 } })).map
    (fun t => (t.status.word, t.regs.key)) =
    some (0x00000002, #v[0x42d3ffa0, 0xd5e7e492, 0x250fee19, 0x5b0c4e12, 0, 0, 0, 0]) := by decide +kernel

/-- 95_test_vectors.md V33e: 17 bytes. -/
theorem test_enc_two_blocks : (after (exec (.enc 0b00) (encStart 17 0x3000))).map
    (fun t => (t.status.word, t.outLen, Memory.readBytes t.mem 0x3000 32)) = some (0x00000002, 32,
      [0x67, 0x89, 0x6c, 0x75, 0xba, 0x00, 0x59, 0x7b, 0xae, 0x47, 0x79, 0x27, 0x0e, 0xf2, 0xb1, 0x08, 0xf0, 0x03,
       0x32, 0x24, 0xd6, 0xd4, 0xa4, 0xa7, 0x27, 0xa6, 0x61, 0xec, 0xbe, 0x2e, 0xc1, 0x33]) := by
  decide +kernel

/-- 95_test_vectors.md V33d, in place as in V34b: 16 bytes. -/
theorem test_enc_in_place : (after (exec (.enc 0b00) (encStart 16 0x2000))).map
    (fun t => (t.status.word, t.outLen, Memory.readBytes t.mem 0x2000 32)) = some (0x00000002, 32,
      [0x67, 0x89, 0x6c, 0x75, 0xba, 0x00, 0x59, 0x7b, 0xae, 0x47, 0x79, 0x27, 0x0e, 0xf2, 0xb1, 0x08, 0x92, 0xd5,
       0xa9, 0xd9, 0x13, 0xeb, 0x56, 0x9e, 0xe8, 0x2b, 0x86, 0x2d, 0xdd, 0x1e, 0x28, 0x51]) := by
  decide +kernel

/-- 95_test_vectors.md V35: K = 1, and the byte past OUT_LEN keeps its 0xEE. -/
theorem test_dec_one_block : (after (exec (.dec 0b00) (decStart cipherV35))).map
    (fun t => (t.status.word, t.outLen, Memory.readBytes t.mem 0x3000 16)) = some (0x00000002, 15,
      [0x30, 0x31, 0x32, 0x33, 0x34, 0x35, 0x36, 0x37, 0x38, 0x39, 0x3a, 0x3b, 0x3c, 0x3d, 0x3e, 0xee]) := by
  decide +kernel

/-- 95_test_vectors.md V39b: the first block is written, the last is not. -/
theorem test_dec_bad_padding : (after (exec (.dec 0b00) (decStart cipherV39b))).map
    (fun t => (t.status.word, t.outLen, Memory.readBytes t.mem 0x3000 32)) = some (0x00000302, 0,
      List.replicate 16 0x41 ++ List.replicate 16 0xEE) := by decide +kernel

/-- 95_test_vectors.md V40. -/
theorem test_seal : (after (exec (.sealC 0b10 false) (sealStart 0x2000))).map
    (fun t => (t.status.word, t.outLen, t.regs.key, Memory.readBytes t.mem 0x4000 48)) =
    some (0x00000002, 48, OperandRegs.reset.key, containerV40) := by decide +kernel

/-- 95_test_vectors.md V45b: in place. -/
theorem test_seal_in_place : (after (exec (.sealC 0b10 false) (sealStart 0x4020))).map
    (fun t => (t.status.word, t.outLen, Memory.readBytes t.mem 0x4000 48)) =
    some (0x00000002, 48, containerV40) := by decide +kernel

/-- 95_test_vectors.md V50. -/
theorem test_open : (after (exec (.openC 0b10) (openStart password 0x5000))).map
    (fun t => (t.status.word, t.outLen, Memory.readBytes t.mem 0x5000 6)) =
    some (0x00000002, 5, hello ++ [0x00]) := by decide +kernel

/-- 95_test_vectors.md V52: a wrong password. -/
theorem test_open_wrong_password : (after (exec (.openC 0b10) (openStart wrongPassword 0x5000))).map
    (fun t => (t.status.word, t.outLen, Memory.readBytes t.mem 0x5000 16)) =
    some (0x00000302, 0, List.replicate 16 0x00) := by decide +kernel

/-- 95_test_vectors.md V71. -/
theorem test_zeroize : (after (exec .zeroize { encStart 0 0 with
      regs := { (encStart 0 0).regs with iter := 7 } })).map
    (fun t => (t.status.word, t.regs)) =
    some (0x00000002, { regsOf 0x2000 0 0 with iter := 7, salt := #v[0, 0, 0, 0], iv := #v[0, 0, 0, 0] }) := by
  decide +kernel

/-- 95_test_vectors.md V34e: a read that is not admitted. -/
theorem witness_BusErrorAtFirstRefusal_address : (after (exec (.enc 0b00) { encStart 16 0x3000 with
      platform := { Config.resetPlatform with readable := [⟨0, 0x2005⟩, ⟨0x2006, 0x1000⟩] } })).map
    (fun t => (t.status.word, t.outLen, t.errAddr)) = some (0x00000702, 0, 0x00002005) := by decide +kernel

/-- The error a command completes with. -/
def errorOf (i : Instr) (s : State) : Option ErrorCode := (after (exec i s)).map (fun t => t.status.err)

/-- The OPEN of V60 to V66 with some SRC_LEN, password length and KSZ. -/
def openError (ksz : BitVec 2) (len pwLen : Word) : Option ErrorCode :=
  errorOf (.openC ksz) { openStart password 0x5000 with
    regs := { (openStart password 0x5000).regs with srcLen := len, pwLen := pwLen } }

/-- 95_test_vectors.md V61, V61a, V62, V63, V65, V66. -/
theorem witness_PasswordAndLengthChecks_open : openError 0b10 31 8 = some .malformedContainer ∧
    openError 0b10 32 8 = some .malformedContainer ∧ openError 0b10 33 8 = some .malformedContainer ∧
    openError 0b10 47 8 = some .malformedContainer ∧ openError 0b01 31 0 = some .preconditionViolation ∧
    openError 0b10 31 0 = some .emptyPassword := by decide +kernel

/-- 95_test_vectors.md V39c to V39g. -/
theorem witness_PasswordAndLengthChecks_dec : errorOf (.dec 0b00) (encStart 0 0x3000) = some .malformedContainer ∧
    errorOf (.dec 0b00) (encStart 17 0x3000) = some .malformedContainer ∧
    errorOf (.dec 0b00) (encStart 32 0x2010) = some .regionError ∧
    errorOf (.dec 0b11) (encStart 0 0x3000) = some .preconditionViolation := by decide +kernel

/-- 95_test_vectors.md V34a, V34c, V34d, V34f: Out past 2^32 by 16 bytes, and Out ending at 2^32. -/
theorem witness_RegionCheckRule_enc : errorOf (.enc 0b00) (encStart 16 0x2008) = some .regionError ∧
    errorOf (.enc 0b00) (encStart 16 0xFFFFFFF0) = some .regionError ∧
    errorOf (.enc 0b00) (encStart 0 0xFFFFFFF0) = some .ok ∧
    errorOf (.enc 0b01) (encStart 16 0x3000) = some .preconditionViolation := by decide +kernel

/-! ### The functions (95_test_vectors.md V20a to V20d, V30) -/

theorem test_sha256_abc : sha256 [0x61, 0x62, 0x63] =
    [0xba, 0x78, 0x16, 0xbf, 0x8f, 0x01, 0xcf, 0xea, 0x41, 0x41, 0x40, 0xde, 0x5d, 0xae, 0x22, 0x23, 0xb0, 0x03,
     0x61, 0xa3, 0x96, 0x17, 0x7a, 0x9c, 0xb4, 0x10, 0xff, 0x61, 0xf2, 0x00, 0x15, 0xad] := by
  decide +kernel

theorem test_hmac : hmac [0x4a, 0x65, 0x66, 0x65]
    [0x77, 0x68, 0x61, 0x74, 0x20, 0x64, 0x6f, 0x20, 0x79, 0x61, 0x20, 0x77, 0x61, 0x6e, 0x74, 0x20, 0x66, 0x6f,
     0x72, 0x20, 0x6e, 0x6f, 0x74, 0x68, 0x69, 0x6e, 0x67, 0x3f] =
    [0x5b, 0xdc, 0xc1, 0x46, 0xbf, 0x60, 0x75, 0x4e, 0x6a, 0x04, 0x24, 0x26, 0x08, 0x95, 0x75, 0xc7, 0x5a, 0x00,
     0x3f, 0x08, 0x9d, 0x27, 0x39, 0x83, 0x9d, 0xec, 0x58, 0xb9, 0x64, 0xec, 0x38, 0x43] := by
  decide +kernel

/-! ### The host (95_test_vectors.md V13, V17, V19b, V82) -/

/-- The machine after reset, with one host action to come. -/
def host (e : Event) : State := { State.reset with inputs := [e] }

/-- The machine after reset that has accepted word `w`, with the listed actions to come. -/
def running (w : Word) (l : List Event) : State := { State.reset.accept w with inputs := l }

theorem test_read_iter : (after (step (host (.busRead 0x4000000C 4)))).map State.results = some [.word 0x000186A0] := by
  decide +kernel

theorem test_write_status : (after (step { host (.busWrite 0x40000004 4 0x00000002) with
      status := { busy := false, done := true, ovr := true, err := .integrityOrPassword } })).map
    (fun t => t.status.word) = some 0x00000304 := by decide +kernel

theorem test_bad_access : step (host (.busRead 0x40000004 2)) = .fault .mmioBadAccess ∧
    step (host (.busRead 0x40000006 4)) = .fault .mmioBadAccess := ⟨rfl, rfl⟩

theorem test_interrupt_at_ctrl_write : (after (step { host (.busWrite 0x40000000 4 0x00000001) with
      status := { busy := false, done := true, ovr := false, err := .ok } })).map State.irq = some true := by
  decide +kernel

/-! ### Witnesses: the hypotheses of each statement can be met -/

theorem witness_IllegalEncodings : ∃ (s : State) (rest : List Event) (w : Word),
    s.inputs = .busWrite (windowBase s.platform + 0x08) 4 w :: rest ∧ s.status.busy = false :=
  ⟨host (.busWrite 0x40000008 4 7), [], 7, rfl, rfl⟩

theorem witness_IllegalCommandCompletes : ∃ (s : State) (w : Word),
    s.sequencer = .running w ∧ s.cmd = w ∧ decode w = .error .illegalCommand :=
  ⟨running 7 [], 7, rfl, rfl, by decide⟩

theorem witness_KszSelectsKeyLength : (∃ k : BitVec 2, k = 0b00 ∨ k = 0b10) ∧ (∃ key : List Byte, key.length = 16) ∧
    (∃ key : List Byte, key.length = 32) ∧ ∃ (ksz : BitVec 2) (gen : Bool) (i : Instr), (ksz = 0b01 ∨ ksz = 0b11) ∧
      (i = .kdf ksz ∨ i = .enc ksz ∨ i = .dec ksz ∨ i = .sealC ksz gen ∨ i = .openC ksz) :=
  ⟨⟨0, .inl rfl⟩, ⟨List.replicate 16 0, rfl⟩, ⟨List.replicate 32 0, rfl⟩, ⟨1, true, _, .inl rfl, .inl rfl⟩⟩

theorem witness_HostReadReturnsRegister :
    (∃ (s : State) (rest : List Event) (r : Reg), s.inputs = .busRead (windowBase s.platform + regOffset r) 4 :: rest) ∧
    (∃ (s : State) (rest : List Event) (off : Nat), off % 4 = 0 ∧ off ≤ 0xFC ∧ (∀ r, regOffset r ≠ off) ∧
      s.inputs = .busRead (windowBase s.platform + off) 4 :: rest) :=
  ⟨⟨host (.busRead 0x4000007C 4), [], .salt 3, rfl⟩,
    ⟨host (.busRead 0x400000FC 4), [], 0xFC, rfl, le_refl _, by
      intro r; cases r <;> simp only [regOffset] <;> omega, rfl⟩⟩

theorem witness_MmioBadAccessExactly : (∃ (s : State) (rest : List Event) (addr : Nat) (size : Nat) (d : Word),
    (s.inputs = .busRead addr size :: rest ∨ s.inputs = .busWrite addr size d :: rest) ∧ size = 4 ∧
      ∃ off, addr = windowBase s.platform + off ∧ off % 4 = 0 ∧ off ≤ 0xFC) ∧
    ∃ (s : State) (rest : List Event) (addr : Nat) (size : Nat) (d : Word),
    (s.inputs = .busRead addr size :: rest ∨ s.inputs = .busWrite addr size d :: rest) ∧
      ¬(size = 4 ∧ ∃ off, addr = windowBase s.platform + off ∧ off % 4 = 0 ∧ off ≤ 0xFC) :=
  ⟨⟨host (.busRead 0x400000FC 4), [], 0x400000FC, 4, 0, .inl rfl, rfl, 0xFC, rfl, rfl, le_refl _⟩,
    ⟨host (.busWrite 0x40000100 4 0), [], 0x40000100, 4, 0, .inr rfl, by
      rintro ⟨-, off, h, -, hle⟩
      have : windowBase (host (.busWrite 0x40000100 4 0)).platform = 0x40000000 := rfl
      omega⟩⟩

theorem witness_CtrlWrite : (∃ (s : State) (rest : List Event) (d : Word),
    s.inputs = .busWrite (windowBase s.platform + 0x00) 4 d :: rest ∧ d.getLsbD 1 = true) ∧
    ∃ (s : State) (rest : List Event) (d : Word), s.inputs = .busWrite (windowBase s.platform + 0x00) 4 d :: rest ∧
    d.getLsbD 1 = false :=
  ⟨⟨host (.busWrite 0x40000000 4 2), [], 2, rfl, rfl⟩, ⟨host (.busWrite 0x40000000 4 1), [], 1, rfl, rfl⟩⟩

theorem witness_StatusWriteOneToClear : ∃ (s : State) (rest : List Event) (d : Word), s.inputs = .busWrite
    (windowBase s.platform + 0x04) 4 d :: rest :=
  ⟨host (.busWrite 0x40000004 4 6), [], 6, rfl⟩

theorem witness_CmdWriteAccepts : (∃ (s : State) (rest : List Event) (w : Word),
    s.inputs = .busWrite (windowBase s.platform + 0x08) 4 w :: rest ∧ s.status.busy = false) ∧
    ∃ (s : State) (rest : List Event) (w : Word), s.inputs = .busWrite (windowBase s.platform + 0x08) 4 w :: rest ∧
    s.status.busy = true :=
  ⟨⟨host (.busWrite 0x40000008 4 6), [], 6, rfl, rfl⟩, ⟨running 0 [.busWrite 0x40000008 4 6], [], 6, rfl, rfl⟩⟩

theorem witness_WriteWhileBusyDropped : ∃ (s : State) (rest : List Event) (r : Reg) (d : Word),
    r ≠ .ctrl ∧ r ≠ .status ∧ r ≠ .outLen ∧ r ≠ .errAddr ∧ s.status.busy = true ∧
      s.inputs = .busWrite (windowBase s.platform + regOffset r) 4 d :: rest :=
  ⟨running 0 [.busWrite 0x4000007C 4 6], [], .salt 3, 6, by decide, by decide, by decide, by decide, rfl, rfl⟩

theorem witness_WriteWhileIdleStored : ∃ (s : State) (rest : List Event) (r : Reg) (d : Word),
    r ≠ .ctrl ∧ r ≠ .status ∧ r ≠ .cmd ∧ r ≠ .outLen ∧ r ≠ .errAddr ∧ s.status.busy = false ∧
      s.inputs = .busWrite (windowBase s.platform + regOffset r) 4 d :: rest :=
  ⟨host (.busWrite 0x4000000C 4 6), [], .iter, 6, by decide, by decide, by decide, by decide, by decide, rfl, rfl⟩

theorem witness_ReadOnlyWriteIgnored : ∀ off ∈ [0x24, 0x28, 0x2C, 0x3C, 0x80, 0xFC],
    ∃ (s : State) (rest : List Event) (d : Word),
    (off = 0x24 ∨ off = 0x28 ∨ (off % 4 = 0 ∧ ((0x2C ≤ off ∧ off ≤ 0x3C) ∨ (0x80 ≤ off ∧ off ≤ 0xFC)))) ∧
      s.inputs = .busWrite (windowBase s.platform + off) 4 d :: rest := by
  intro off h
  refine ⟨host (.busWrite (windowBase State.reset.platform + off) 4 1), [], 1, ?_, rfl⟩
  revert off
  decide

theorem witness_RegisterByteViews : (∃ j : Nat, j / 4 < 8 ∧ j < 32) ∧ (∃ j : Nat, j / 4 < 4) ∧ ∃ o : OperandRegs,
    o.key[0] = 0x03020100 ∧ o.key[1] = 0x07060504 ∧ o.key[2] = 0x0B0A0908 ∧ o.key[3] = 0x0F0E0D0C :=
  ⟨⟨31, by decide⟩, ⟨15, by decide⟩, ⟨(encStart 0 0).regs, rfl, rfl, rfl, rfl⟩⟩

/-- The interrupt rises at a completion with IE = 1, and at a write that sets IE while DONE = 1. -/
theorem witness_InterruptRises : (∃ (s : State) (t : State), step s = .next t ∧ s.irq = false ∧ t.irq = true ∧
    s.ie = true) ∧
    ∃ (s : State) (t : State), step s = .next t ∧ s.irq = false ∧ t.irq = true ∧ s.ie = false :=
  ⟨⟨{ running 0 [] with ie := true }, _, rfl, rfl, rfl, rfl⟩,
    ⟨{ host (.busWrite 0x40000000 4 1) with status := { busy := false, done := true, ovr := false, err := .ok } }, _,
      rfl, rfl, rfl, rfl⟩⟩

theorem witness_EveryResetGivesResetValues : (∃ (s : State) (rest : List Event), s.inputs = .powerOnReset :: rest) ∧
    ∃ (s : State) (rest : List Event) (d : Word),
    d.getLsbD 1 = true ∧ s.inputs = .busWrite (windowBase s.platform + 0x00) 4 d :: rest :=
  ⟨⟨host .powerOnReset, [], rfl⟩, ⟨host (.busWrite 0x40000000 4 2), [], 2, rfl, rfl⟩⟩

/-- A soft reset while an ENC runs, with an Out of 16 bytes. -/
theorem witness_SoftResetAbandonsCommand : ∃ (s : State) (rest : List Event) (d : Word),
    s.inputs = .busWrite (windowBase s.platform + 0x00) 4 d :: rest ∧ d.getLsbD 1 = true ∧
      0 < (runningOut s).size ∧ (runningOut s).base < 2 ^ 32 :=
  ⟨running 2 [.busWrite 0x40000000 4 2], [], 2, rfl, rfl, by decide, by decide⟩

theorem witness_KdfDerivesKey : KdfRuns 0b10 kdfStart ∧ klen 0b00 = 16 :=
  ⟨⟨.inr rfl, by decide, by decide, by unfold ReadAdmitted; decide +kernel⟩, rfl⟩

theorem encStart_runs : EncRuns 0b00 (encStart 17 0x3000) :=
  ⟨.inl rfl, by decide, by decide, by unfold PassLegal; decide, by unfold ReadAdmitted; decide +kernel,
    by unfold WriteAdmitted; decide +kernel⟩

theorem witness_EncEncryptsBuffer : ∃ (ksz : BitVec 2) (s : State), EncRuns ksz s ∧ 16 *
    (s.operands.srcLen.toNat / 16 + 1) < 2 ^ 32 :=
  ⟨_, _, encStart_runs, by decide⟩

theorem decStart_runs (c : List Byte) (h0 : 0 < c.length) (h1 : c.length ≤ 32) (h2 : c.length % 16 = 0) :
    DecRuns 0b00 (decStart c) := by
  have hl : (decStart c).operands.srcLen.toNat = c.length := by
    rw [show (decStart c).operands.srcLen = BitVec.ofNat 32 c.length from rfl, BitVec.toNat_ofNat]; omega
  have hs : (decStart c).operands.srcAddr.toNat = 0x2000 := rfl
  have hd : (decStart c).operands.dstAddr.toNat = 0x3000 := rfl
  have hk : keptBytes (heldBlock (.dec 0b00) (decStart c)) ≤ 16 := by unfold keptBytes; split <;> omega
  have admits : ∀ a, a < 0x4000 →
      dmaReadOK (decStart c).platform a = true ∧ dmaWriteOK (decStart c).platform a = true := by
    intro a ha
    have e : (decStart c).platform = Config.resetPlatform := rfl
    rw [e]
    simp only [dmaReadOK, dmaWriteOK, isDevice, anyHas, Config.resetPlatform, regionHas, List.any_cons, List.any_nil,
      Bool.or_false, Bool.not_false, Bool.and_true, Bool.and_eq_true, decide_eq_true_eq]
    omega
  constructor
  · exact .inl rfl
  · omega
  · omega
  · omega
  · omega
  · rw [hl, hs, hd]; unfold PassLegal; omega
  · rw [hl, hs]; exact fun i hi => (admits _ (by omega)).1
  · rw [hl, hd]; exact fun i hi => (admits _ (by omega)).2

/-- The plaintext of V35. -/
def plainV35 : List Byte :=
  [0x30, 0x31, 0x32, 0x33, 0x34, 0x35, 0x36, 0x37, 0x38, 0x39, 0x3a, 0x3b, 0x3c, 0x3d, 0x3e]

theorem witness_DecDecryptsBuffer : ∃ (ksz : BitVec 2) (s : State) (x : List Byte), DecRuns ksz s ∧
    decrypt (s.keyOperand ksz) s.operands.ivBytes s.inputBytes = some x :=
  ⟨_, decStart cipherV35, plainV35, decStart_runs _ (by decide) (by decide) (by decide), by decide +kernel⟩

theorem witness_DecBadPadding : ∃ (ksz : BitVec 2) (s : State), DecRuns ksz s ∧
    decrypt (s.keyOperand ksz) s.operands.ivBytes s.inputBytes = none :=
  ⟨_, decStart cipherV39b, decStart_runs _ (by decide) (by decide) (by decide), by decide +kernel⟩

theorem sealStart_runs : SealRuns 0b10 (sealStart 0x2000) :=
  ⟨.inr rfl, by decide, by decide, by decide, by decide, by decide, by decide, by unfold ReadAdmitted; decide +kernel,
    by unfold ReadAdmitted; decide +kernel, by unfold WriteAdmitted; decide +kernel⟩

theorem witness_SealWritesContainer : ∃ (ksz : BitVec 2) (s : State), SealRuns ksz s ∧ 32 + 16 *
    (s.operands.srcLen.toNat / 16 + 1) < 2 ^ 32 :=
  ⟨_, _, sealStart_runs, by decide⟩

theorem openStart_runs : OpenRuns 0b10 (openStart password 0x5000) ∧ OpenRuns 0b10 (openStart wrongPassword 0x5000) :=
  ⟨⟨.inr rfl, by decide, by decide, by decide, by decide, by decide, by decide, by decide, by decide,
      by unfold ReadAdmitted; decide +kernel, by unfold ReadAdmitted; decide +kernel,
      by unfold WriteAdmitted; decide +kernel⟩,
    ⟨.inr rfl, by decide, by decide, by decide, by decide, by decide, by decide, by decide, by decide,
      by unfold ReadAdmitted; decide +kernel, by unfold ReadAdmitted; decide +kernel,
      by unfold WriteAdmitted; decide +kernel⟩⟩

theorem witness_OpenDecryptsContainer : ∃ (ksz : BitVec 2) (s : State), OpenRuns ksz s ∧
    decrypt (derive s.passwordBytes (s.inputBytes.take 16) s.operands.iter.toNat (klen ksz))
      ((s.inputBytes.drop 16).take 16) (s.inputBytes.drop 32) = some hello :=
  ⟨0b10, openStart password 0x5000, openStart_runs.1, by decide +kernel⟩

theorem witness_OpenBadPadding : ∃ (ksz : BitVec 2) (s : State), OpenRuns ksz s ∧
    decrypt (derive s.passwordBytes (s.inputBytes.take 16) s.operands.iter.toNat (klen ksz))
      ((s.inputBytes.drop 16).take 16) (s.inputBytes.drop 32) = none :=
  ⟨0b10, openStart wrongPassword 0x5000, openStart_runs.2, by decide +kernel⟩

/-- The ciphertext of V41. -/
def cipherV41 : List Byte :=
  [0xc0, 0x0e, 0x26, 0xa7, 0x5a, 0x6f, 0x85, 0x0e, 0x65, 0x44, 0x72, 0xe6, 0x87, 0x63, 0xf9, 0x54]

/-- Each executing command of the table of 30_encoding.md R127 runs normally in some state: for KSZ = 0b00 too. -/
theorem witness_TwentySixCommandWords_runs :
    (after (exec (.kdf 0b00) kdfStart)).map (fun t => t.status.err) = some .ok ∧
    (after (exec (.enc 0b10) (encStart 1 0x3000))).map (fun t => t.status.err) = some .ok ∧
    (after (exec (.openC 0b00) { openStart password 0x5000 with
      mem := memOf [(0x1000, password), (0x4000, headerBytes ++ cipherV41)] })).map
      (fun t => (t.status.err, t.outLen)) = some (.ok, 5) := by decide +kernel

theorem witness_DecodeEncodeAgree : ∃ (w : Word) (i : Instr), decode w = .ok i := ⟨0x604, .sealC 0b10 true, by decide⟩

theorem witness_TwentySixCommandWords : (∃ w : Word, ∀ i b, (w, i, b) ∉ commandTable) ∧
    (0x00000604, .sealC 0b10 true, true) ∈ commandTable ∧ (0x00000305, .openC 0b11, false) ∈ commandTable := by
  refine ⟨⟨7, fun i b h => ?_⟩, by decide, by decide⟩
  have : ∀ r ∈ commandTable, r.1 ≠ 7 := by decide
  exact this _ h rfl

theorem witness_EveryCommandCompletes : ∃ i : Instr, (∀ ksz, i ≠ .kdf ksz) ∧ i ≠ .zeroize :=
  ⟨.nop, by simp, by simp⟩

theorem witness_SealAndOpenKeepKeysHidden : ∃ (ksz : BitVec 2) (gen : Bool) (i : Instr),
    i = .sealC ksz gen ∨ i = .openC ksz := ⟨0b10, true, _, .inl rfl⟩

theorem witness_ErrorsPerCommand : ∃ (s : State) (w : Word), s.sequencer = .running w ∧
    decode w = .error .illegalCommand := ⟨running 0x100 [], 0x100, rfl, by decide⟩

theorem witness_FirstErrorIsReported : (∃ (s : State) (w : Word), s.sequencer = .running w ∧
    decode w = .error .illegalCommand) ∧ ∃ (i : Instr) (s t : State), exec i s = .next t ∧
    t.status.err = .preconditionViolation :=
  ⟨⟨running 7 [], 7, rfl, by decide⟩, ⟨.kdf 0b01, State.reset, _, rfl, by decide⟩⟩

theorem witness_ErrorResult : ∃ (i : Instr) (s : State) (t : State), exec i s = .next t ∧ t.status.err ≠ .ok :=
  ⟨.dec 0b00, State.reset, _, rfl, by decide⟩

theorem witness_BusErrorAtFirstRefusal : ∃ (i : Instr) (s : State), FirstError i s .busError := by
  refine ⟨.kdf 0b10, { kdfStart with platform := { Config.resetPlatform with readable := [] } }, ⟨?_, ?_, id⟩, ?_, ?_⟩
  · rintro (⟨k, hk, h⟩ | ⟨-, h⟩)
    · obtain rfl := Option.some.inj hk
      revert h; decide
    · revert h; decide
  · rintro ⟨h, -⟩; cases h
  · rintro (h | h | h | ⟨⟨a, ⟨h1, h2⟩, -⟩, -⟩)
    · revert h; decide
    · revert h; decide
    · revert h; decide
    · simp [regionsOf, emptyRegion] at h2
  · decide +kernel

theorem witness_PasswordAndLengthChecks : ∃ (ksz : BitVec 2) (gen : Bool) (i : Instr) (s : State),
    (i = .sealC ksz gen ∨ i = .openC ksz) ∧ (ksz = 0b00 ∨ ksz = 0b10) ∧ s.operands.iter ≠ 0 ∧ s.operands.pwLen ≠ 0 :=
  ⟨0b00, false, _, sealStart 0x2000, .inl rfl, .inl rfl, by decide, by decide⟩

theorem witness_RegionsOfCommands : ∃ o : OperandRegs, 48 ≤ o.srcLen.toNat :=
  ⟨(openStart password 0x5000).regs, by decide⟩

/-- A command that passes the register checks and fails the region check: Out passes 2^32 (V34c). -/
theorem witness_RegionCheckRule : ∃ (i : Instr) (s : State), passesRegisterChecks i (s.operands) ∧
    0 < (regionsOf i s.operands).out.size ∧
    2 ^ 32 < (regionsOf i s.operands).out.base + (regionsOf i s.operands).out.size := by
  refine ⟨.enc 0b00, encStart 16 0xFFFFFFF0, ⟨?_, ?_, id⟩, by decide, by decide⟩
  · rintro (⟨k, hk, h⟩ | ⟨h, -⟩)
    · obtain rfl := Option.some.inj hk
      revert h; decide
    · cases h
  · rintro ⟨h, -⟩; cases h

/-- The working variables of a compression after each round, and the chaining values of a message after each block. -/
def roundStates (h : ShaState) (block : List Byte) : Nat → ShaState
  | 0 => h
  | t + 1 => shaRound (roundStates h block t) (shaConstants.getD t 0, (shaSchedule block).getD t 0)

def chainStates (m : List Byte) : Nat → ShaState
  | 0 => shaInit
  | i + 1 => shaCompress (chainStates m i) (((m ++ shaPadding m.length).drop (64 * i)).take 64)

theorem witness_ShaPaddingAndSchedule : (∃ (h : ShaState) (block : List Byte) (v : Nat → ShaState),
    block.length = 64 ∧ v 0 = h ∧ ∀ t, t < 64 →
      let t1 := (v t).h + shaSum1 (v t).e + shaCh (v t).e (v t).f (v t).g + shaConstants.getD t 0 +
        (shaSchedule block).getD t 0
      let t2 := shaSum0 (v t).a + shaMaj (v t).a (v t).b (v t).c
      v (t + 1) = ⟨t1 + t2, (v t).a, (v t).b, (v t).c, (v t).d + t1, (v t).e, (v t).f, (v t).g⟩) ∧
    ∃ (m : List Byte) (x : Nat → ShaState), x 0 = shaInit ∧
      ∀ i, x (i + 1) = shaCompress (x i) (((m ++ shaPadding m.length).drop (64 * i)).take 64) :=
  ⟨⟨shaInit, List.replicate 64 0, roundStates shaInit (List.replicate 64 0), rfl, rfl, fun _ _ => rfl⟩,
    ⟨hello, chainStates hello, rfl, fun _ => rfl⟩⟩

/-- The PRF outputs and the accumulators of PBKDF2, from index 1 on. -/
def prfOutputs (p salt : List Byte) : Nat → List Byte
  | 0 => []
  | 1 => hmac p (salt ++ [0x00, 0x00, 0x00, 0x01])
  | j + 2 => hmac p (prfOutputs p salt (j + 1))

def accumulators (p salt : List Byte) : Nat → List Byte
  | 0 => []
  | 1 => prfOutputs p salt 1
  | j + 2 => xorBytes (accumulators p salt (j + 1)) (prfOutputs p salt (j + 2))

theorem witness_Pbkdf2Iterates_key : (∃ k : List Byte, 64 < k.length) ∧ ∃ k : List Byte, k.length ≤ 64 :=
  ⟨⟨List.replicate 65 0, by decide⟩, ⟨List.replicate 64 0, by decide⟩⟩

theorem witness_Pbkdf2Iterates : ∃ (p salt : List Byte) (dkLen : Nat) (u t : Nat → List Byte) (c : Nat),
    (dkLen = 16 ∨ dkLen = 32) ∧ u 1 = hmac p (salt ++ [0x00, 0x00, 0x00, 0x01]) ∧ t 1 = u 1 ∧
      (∀ j, 1 ≤ j → u (j + 1) = hmac p (u j)) ∧
      (∀ j, 1 ≤ j → t (j + 1) = List.zipWith (fun a b => a ^^^ b) (t j) (u (j + 1))) ∧ 1 ≤ c := by
  refine ⟨password, headerBytes.take 16, 16, prfOutputs password (headerBytes.take 16),
    accumulators password (headerBytes.take 16), 2, .inl rfl, rfl, rfl, ?_, ?_, by decide⟩ <;>
  · intro j hj
    obtain ⟨k, rfl⟩ : ∃ k, j = k + 1 := ⟨j - 1, by omega⟩
    rfl

theorem witness_KeyScheduleRecurrence : ∃ (key : List Byte) (nk nr : Nat),
    ((nk = 4 ∧ nr = 10) ∨ (nk = 8 ∧ nr = 14)) ∧ key.length = 4 * nk :=
  ⟨List.replicate 32 0, 8, 14, .inr ⟨rfl, rfl⟩, rfl⟩

/-- The states of the forward cipher after each round, and of the inverse cipher before it (with 10 rounds). -/
def forwardStates (key inp : List Byte) : Nat → Block
  | 0 => (Block.ofBytes inp).xor (roundKeyOf (keySchedule key) 0)
  | r + 1 => (mixColumns (shiftRows (subBytes (forwardStates key inp r)))).xor (roundKeyOf (keySchedule key) (r + 1))

def inverseStates (key inp : List Byte) : Nat → Block
  | 0 => (Block.ofBytes inp).xor (roundKeyOf (keySchedule key) 10)
  | r + 1 =>
    invMixColumns ((invSubBytes (invShiftRows (inverseStates key inp r))).xor (roundKeyOf (keySchedule key) (9 - r)))

theorem witness_AesForwardCipher : ∃ (key inp : List Byte) (nr : Nat) (f : Nat → Block),
    ((key.length = 16 ∧ nr = 10) ∨ (key.length = 32 ∧ nr = 14)) ∧
      f 0 = (Block.ofBytes inp).xor (roundKeyOf (keySchedule key) 0) ∧
      ∀ r, 1 ≤ r → r ≤ nr - 1 →
        f r = (mixColumns (shiftRows (subBytes (f (r - 1))))).xor (roundKeyOf (keySchedule key) r) := by
  refine ⟨List.replicate 16 0, hello, 10, forwardStates (List.replicate 16 0) hello, .inl ⟨rfl, rfl⟩, rfl, ?_⟩
  intro r h _
  obtain ⟨k, rfl⟩ : ∃ k, r = k + 1 := ⟨r - 1, by omega⟩
  rfl

theorem witness_AesInverseCipher : (∃ (key inp : List Byte) (nr : Nat) (g : Nat → Block),
    ((key.length = 16 ∧ nr = 10) ∨ (key.length = 32 ∧ nr = 14)) ∧
      g nr = (Block.ofBytes inp).xor (roundKeyOf (keySchedule key) nr) ∧
      ∀ r, 1 ≤ r → r ≤ nr - 1 →
        g r = invMixColumns ((invSubBytes (invShiftRows (g (r + 1)))).xor (roundKeyOf (keySchedule key) r))) ∧
    ∃ x : List Byte, x.length = 16 := by
  refine ⟨⟨List.replicate 16 0, hello, 10, fun r => inverseStates (List.replicate 16 0) hello (10 - r),
    .inl ⟨rfl, rfl⟩, rfl, ?_⟩, ⟨headerBytes.take 16, rfl⟩⟩
  intro r h1 h2
  obtain ⟨k, hk⟩ : ∃ k, r = 9 - k ∧ k ≤ 8 := ⟨9 - r, by omega⟩
  obtain ⟨rfl, hk⟩ := hk
  simp only [show 10 - (9 - k) = k + 1 by omega, show 10 - (9 - k + 1) = k by omega, inverseStates]

theorem witness_CbcLaws : (∃ key iv : List Byte, (key.length = 16 ∨ key.length = 32) ∧ iv.length = 16) ∧
    (∃ (c : List Byte) (i : Nat), c.length % 16 = 0 ∧ i < c.length / 16) ∧
    ∃ p iv : List Byte, iv.length = 16 ∧ iv = List.replicate 16 0 ∧ 16 ≤ p.length :=
  ⟨⟨List.replicate 16 0, List.replicate 16 1, .inl rfl, rfl⟩, ⟨cipherV39b, 1, by decide, by decide⟩,
    ⟨cipherV39b, _, rfl, rfl, by decide⟩⟩

theorem witness_PaddingRules : (∃ h : List Byte, h.length = 16) ∧ ∃ key iv c x : List Byte,
    c.length % 16 = 0 ∧ 16 ≤ c.length ∧ decrypt key iv c = some x :=
  ⟨⟨cipherV35, rfl⟩, ⟨_, _, cipherV35, _, by decide, by decide, show decrypt ((decStart cipherV35).keyOperand 0b00)
    (List.replicate 16 0) cipherV35 = some (plainV35) by decide +kernel⟩⟩

/-- The machine with a device register row at addresses 8 to 15, and an ENC running, its Out the 16 bytes from 0 on. -/
def withDevice (l : List Event) : State :=
  { running 2 l with platform := { Config.resetPlatform with devices := [⟨8, 8⟩] } }

/-- A host-side access touches a device row of some platform. -/
def hitsDevice (p : Platform) (a n : Nat) : Prop :=
  ∃ r x, r ∈ p.devices ∧ (r.base ≤ x ∧ x < r.base + r.size) ∧ a ≤ x ∧ x < a + n

/-- A host-side access touches Out of the running ENC. -/
def hitsOut (s : State) (a n : Nat) : Prop :=
  ∃ w i r x, s.sequencer = .running w ∧ decode w = .ok i ∧
    (r = (regionsOf i s.operands).pw ∨ r = (regionsOf i s.operands).inp ∨ r = (regionsOf i s.operands).out) ∧
    (r.base ≤ x ∧ x < r.base + r.size) ∧ a ≤ x ∧ x < a + n

/-- A device register; an access past the last address; one that ends with the first byte of a device; one that ends right
before it and touches Out; one right after both, which is made. -/
theorem witness_HostSideAccess :
    (∃ (p : Platform) (r : Region) (a : Nat), r ∈ p.devices ∧ r.base ≤ a ∧ a < r.base + r.size) ∧
    (∃ (s : State) (rest : List Event) (a n : Nat), s.inputs = .memLoad a n :: rest ∧ 2 ^ 32 < a + n) ∧
    (∃ (s : State) (rest : List Event) (a n : Nat), s.inputs = .memLoad a n :: rest ∧ a + n ≤ 2 ^ 32 ∧
      hitsDevice s.platform a n) ∧
    (∃ (s : State) (rest : List Event) (a n : Nat), s.inputs = .memLoad a n :: rest ∧ a + n ≤ 2 ^ 32 ∧
      ¬ hitsDevice s.platform a n ∧ hitsOut s a n) ∧
    ∃ (s : State) (rest : List Event) (a : Nat) (bytes : List Byte), s.inputs = .memStore a bytes :: rest ∧
      a + bytes.length ≤ 2 ^ 32 ∧ ¬ hitsDevice s.platform a bytes.length ∧ ¬ hitsOut s a bytes.length := by
  refine ⟨⟨(withDevice []).platform, ⟨8, 8⟩, 15, by decide, by decide, by decide⟩,
    ⟨host (.memLoad 0xFFFFFFFF 2), [], _, _, rfl, by decide⟩,
    ⟨withDevice [.memLoad 7 2], [], _, _, rfl, by decide, ⟨8, 8⟩, 8, by decide, by decide, by decide, by decide⟩,
    ⟨withDevice [.memLoad 6 2], [], _, _, rfl, by decide, ?_, 2, .enc 0b00, _, 7, rfl, by decide, .inr (.inr rfl),
      by decide, by decide, by decide⟩,
    ⟨withDevice [.memStore 16 hello], [], _, _, rfl, by decide, ?_, ?_⟩⟩
  · rintro ⟨r, x, hr, hx, h1, h2⟩
    obtain rfl : r = ⟨8, 8⟩ := List.mem_singleton.mp hr
    simp only at hx
    omega
  · rintro ⟨r, x, hr, hx, h1, h2⟩
    obtain rfl : r = ⟨8, 8⟩ := List.mem_singleton.mp hr
    simp only at hx
    omega
  · rintro ⟨w, i, r, x, hw, hd, hr, hx, h1, h2⟩
    obtain rfl : (2 : Word) = w := by cases hw; rfl
    obtain rfl : Instr.enc 0b00 = i := by
      have h2 : decode 2 = .ok (.enc 0b00) := by decide
      rw [h2] at hd
      cases hd; rfl
    have ho : (regionsOf (.enc 0b00) (withDevice [.memStore 16 hello]).operands) =
      ⟨emptyRegion, ⟨0, 0⟩, ⟨0, 16⟩, true⟩ := by decide
    rw [ho] at hr
    rcases hr with rfl | rfl | rfl <;> simp only [emptyRegion] at hx <;> omega

/-- The boundaries of the host-side accesses: the fault of a device row, the race beside it, the store after both. -/
theorem test_host_side : step (withDevice [.memLoad 7 2]) = .fault .deviceAccess ∧
    step (withDevice [.memLoad 6 2]) = .fault .regionRace ∧
    (after (step (withDevice [.memStore 16 hello]))).map (fun t => Memory.read t.mem 16) = some 0x68 :=
  ⟨rfl, rfl, by decide +kernel⟩

/-- 20_memory.md R87: a command whose input reaches a device register ends with BUS_ERROR at its first byte. -/
theorem test_device_refused : (after (exec (.enc 0b00) { encStart 16 0x3000 with
      platform := { Config.resetPlatform with devices := [⟨0x2005, 4⟩] } })).map
    (fun t => (t.status.word, t.outLen, t.errAddr)) = some (0x00000702, 0, 0x00002005) := by decide +kernel

/-- 60_exceptions.md R347: both orders of a host write and a completion, here those of P5 of 95_test_vectors.md with a NOP
in place of the KDF: the write is dropped, or it is stored. -/
theorem test_interleavings :
    (State.reset.withProgram [.issue .nop, .wr .iter 1]).inputs =
      [.busWrite 0x40000008 4 0, .busWrite 0x4000000C 4 1] ∧
    (State.reset.withInterleaving [(false, .issue .nop), (true, .wr .iter 1)]).inputs =
      [.busWrite 0x40000008 4 0, .engine, .busWrite 0x4000000C 4 1] := by decide +kernel

theorem witness_MemoryLaws : ∃ (m m' : Memory) (a : Nat) (b : List Byte),
    Memory.wf m ∧ Memory.wf m' ∧ (∀ x, Memory.read m x = Memory.read m' x) ∧ a + b.length ≤ 2 ^ 32 :=
  ⟨memOf [(0x1000, hello)], memOf [(0x1000, hello)], 0xFFFFFFFB, hello, by decide, by decide, fun _ => rfl, by decide⟩

/-- A store changes memory, and so does the completion of an ENC. -/
theorem witness_MemoryChangesOnlyBy :
    (∃ (s : State) (t : State) (a : Nat), step s = .next t ∧ Memory.read t.mem a ≠ Memory.read s.mem a ∧
    s.sequencer = .idle) ∧
    ∃ (s : State) (t : State) (a : Nat), step s = .next t ∧ Memory.read t.mem a ≠ Memory.read s.mem a ∧ s.inputs = [] :=
  ⟨⟨host (.memStore 0x1000 hello), _, 0x1000, rfl, by decide +kernel, rfl⟩,
    ⟨{ (encStart 1 0x3000).accept 2 with inputs := [] }, _, 0x3000, rfl, by decide +kernel, rfl⟩⟩

/-- KEY is changed by ZEROIZE and by a write; IV and SALT too. -/
theorem witness_KeysChangeOnlyBy :
    (∃ (s : State) (t : State), step s = .next t ∧ t.regs.key ≠ s.regs.key ∧ s.sequencer = .running 6) ∧
    (∃ (s : State) (t : State), step s = .next t ∧ t.regs.key ≠ s.regs.key ∧ s.sequencer = .idle) ∧
    ∃ (s : State) (t : State), step s = .next t ∧ t.regs.iv ≠ s.regs.iv ∧ t.regs.salt ≠ s.regs.salt :=
  ⟨⟨(encStart 1 0x3000).accept 6, _, rfl, by decide, rfl⟩,
    ⟨host (.busWrite 0x40000040 4 1), _, rfl, by decide, rfl⟩, ⟨(encStart 1 0x3000).accept 6, _, rfl, by decide,
    by decide⟩⟩

theorem witness_OvrIsSticky : (∃ (s : State) (t : State), step s = .next t ∧ s.status.ovr = false ∧
    t.status.ovr = true) ∧
    ∃ (s : State) (t : State), step s = .next t ∧ s.status.ovr = true ∧ t.status.ovr = false :=
  ⟨⟨running 0 [.busWrite 0x4000000C 4 1], _, rfl, rfl, rfl⟩,
    ⟨{ host (.busWrite 0x40000004 4 4) with status := { busy := false, done := false, ovr := true, err := .ok } }, _,
      rfl, rfl, rfl⟩⟩

theorem witness_RegistersFrozenWhileBusy : ∃ (s : State) (t : State), step s = .next t ∧ s.status.busy = true ∧
    t.status.busy = true :=
  ⟨running 0 [.busWrite 0x4000000C 4 1], _, rfl, rfl, rfl⟩

theorem witness_StepRunsDecodedCommand :
    (∃ (s : State) (w : Word) (i : Instr), s.sequencer = .running w ∧ decode w = .ok i ∧ s.inputs = []) ∧
    (∃ (s : State) (w : Word) (i : Instr) (rest : List Event), s.sequencer = .running w ∧ decode w = .ok i ∧
    s.inputs = .engine :: rest) ∧
    (∃ (s : State) (w : Word) (i : Instr) (rest : List Event), s.sequencer = .running w ∧ decode w = .ok i ∧
    s.inputs = .wait :: rest ∧
      s.status.done = false) ∧
    (∃ (s : State) (rest : List Event), s.sequencer = .idle ∧ s.inputs = .wait :: rest ∧ s.status.done = false) ∧
    (∃ (s : State) (rest : List Event), s.inputs = .wait :: rest ∧ s.status.done = true) ∧
    ∃ nbits w i, decode (BitVec.ofNat 32 (w % 2 ^ nbits)) = .ok i :=
  ⟨⟨running 6 [], 6, .zeroize, rfl, by decide, rfl⟩, ⟨running 6 [.engine], 6, .zeroize, [], rfl, by decide, rfl⟩,
    ⟨running 6 [.wait], 6, .zeroize, [], rfl, by decide, rfl, rfl⟩, ⟨host .wait, [], rfl, rfl, rfl⟩,
    ⟨{ host .wait with status := { busy := false, done := true, ovr := false, err := .ok } }, [], rfl, rfl⟩,
    ⟨32, 6, .zeroize, by decide⟩⟩

theorem witness_WaitEnds : ∃ (s : State) (rest : List Event) (w : Word), s.inputs = .wait :: rest ∧
    s.sequencer = .running w ∧ s.status.done = false :=
  ⟨running 0x201 [.wait], [], 0x201, rfl, rfl, rfl⟩

/-- Two states that agree on the snapshot and differ in the live registers. -/
theorem witness_CommandReadsSnapshotOnly : ∃ s s' : State, s'.operands = s.operands ∧ s'.mem = s.mem ∧
    s'.platform = s.platform ∧ s'.drawCount = s.drawCount ∧ s'.regs ≠ s.regs :=
  ⟨kdfStart.accept 0x201, { kdfStart.accept 0x201 with regs := (encStart 1 0).regs }, rfl, rfl, rfl, rfl, by decide⟩

/-- A state with a command running meets the invariant. -/
theorem running_inv : Machine.Inv (running 0x201 []) :=
  ⟨by decide, by decide, rfl, fun w h => by cases h; rfl, fun _ => rfl, fun _ => rfl, fun h => absurd rfl h,
    fun _ _ => rfl, fun _ => rfl⟩

theorem witness_InvKept : ∃ (s : State) (t : State), Machine.Inv s ∧ step s = .next t ∧ s.sequencer = .running 0x201 :=
  ⟨_, _, running_inv, rfl, rfl⟩

theorem witness_SealOpenRoundTrip : ∃ (ksz : BitVec 2) (gen : Bool) (s : State) (t : State) (u : State), exec
    (.sealC ksz gen) s = .next t ∧ t.status.err = .ok ∧
    u.operands.srcLen.toNat = 32 + 16 * (s.operands.srcLen.toNat / 16 + 1) ∧
    u.inputBytes = Memory.readBytes t.mem s.operands.dstAddr.toNat u.operands.srcLen.toNat ∧
    u.passwordBytes = s.passwordBytes ∧ u.operands.iter = s.operands.iter ∧ OpenRuns ksz u :=
  ⟨0b10, false, sealStart 0x2000, _, openStart password 0x5000, exec_eq_commit _ _, by decide +kernel, by decide,
    by decide +kernel, by decide +kernel, rfl, openStart_runs.1⟩

theorem witness_SealIsKdfThenEnc : ∃ (ksz : BitVec 2) (s : State), SealRuns ksz s ∧ s.operands = s.regs := ⟨_, _,
    sealStart_runs, rfl⟩

theorem witness_OpenIsKdfThenDec : ∃ (ksz : BitVec 2) (s : State) (salt : Vector Word 4) (iv : Vector Word 4),
    OpenRuns ksz s ∧ s.pending = none ∧
    ({ s.regs with salt := salt, iv := iv } : OperandRegs).saltBytes = s.inputBytes.take 16 ∧
    ({ s.regs with salt := salt, iv := iv } : OperandRegs).ivBytes = (s.inputBytes.drop 16).take 16 :=
  ⟨0b10, openStart password 0x5000, saltS0, ivV1, openStart_runs.1, rfl, by decide +kernel, by decide +kernel⟩
end Sys2Proof.Tests
end

section
/-! PROOFS. The register file: the byte strings that KEY, IV and SALT stand for (10_state.md R42). -/

namespace Sys2Proof.Machine

theorem getElem?_wordBytes (w : Word) {k : Nat} (h : k < 4) :
    (wordBytes w)[k]? = some (w.extractLsb' (8 * k) 8) := by
  interval_cases k <;> rfl

/-- In a row of words, byte j lies in word j div 4. -/
theorem getElem?_flatMap_wordBytes (l : List Word) {j : Nat} (h : j / 4 < l.length) :
    (l.flatMap wordBytes)[j]? = some ((l[j / 4]).extractLsb' (8 * (j % 4)) 8) := by
  induction l generalizing j with
  | nil => simp at h
  | cons w l ih =>
    have hlen : (wordBytes w).length = 4 := rfl
    rw [List.flatMap_cons]
    rcases Nat.lt_or_ge j 4 with hj | hj
    · rw [List.getElem?_append_left (by omega), getElem?_wordBytes w hj]
      simp [Nat.div_eq_of_lt hj, Nat.mod_eq_of_lt hj]
    · obtain ⟨i, rfl⟩ := Nat.exists_eq_add_of_le' hj
      have hdiv : (i + 4) / 4 = i / 4 + 1 := by omega
      have hi : i / 4 < l.length := by simpa [hdiv] using h
      rw [List.getElem?_append_right (by omega), hlen, Nat.add_sub_cancel, ih hi]
      simp [hdiv]

theorem getElem?_regBytes {n : Nat} (v : Vector Word n) {j : Nat} (h : j / 4 < n) :
    (regBytes v)[j]? = some ((v[j / 4]).extractLsb' (8 * (j % 4)) 8) :=
  getElem?_flatMap_wordBytes v.toList (by simpa using h)

theorem length_keyBytes (o : OperandRegs) {n : Nat} (h : n ≤ 32) : (o.keyBytes n).length = n := by
  rw [OperandRegs.keyBytes, List.length_take, length_regBytes]
  omega

theorem getElem?_keyBytes (o : OperandRegs) {n j : Nat} (h : j / 4 < 8) (hj : j < n) :
    (o.keyBytes n)[j]? = some ((o.key[j / 4]).extractLsb' (8 * (j % 4)) 8) := by
  rw [OperandRegs.keyBytes, List.getElem?_take_of_lt hj, getElem?_regBytes o.key h]

/-- KeyBytes(16) is KEY0 to KEY3, least significant byte first. -/
theorem keyBytes_sixteen (o : OperandRegs) :
    o.keyBytes 16 = wordBytes o.key[0] ++ wordBytes o.key[1] ++ wordBytes o.key[2] ++ wordBytes o.key[3] := by
  have hlen := length_keyBytes o (n := 16) (by decide)
  refine List.ext_getElem? fun j => ?_
  rcases Nat.lt_or_ge j 16 with hj | hj
  · rw [getElem?_keyBytes o (by omega) hj]
    interval_cases j <;> rfl
  · rw [List.getElem?_eq_none (by omega), List.getElem?_eq_none hj]

/-- Settles O17: byte j of a row of registers is byte j mod 4 of register j div 4, and KEY is the row cut to n bytes. -/
theorem registerByteViews : Obligations.RegisterByteViews := by
  unfold Obligations.RegisterByteViews
  refine ⟨fun o n hn => ⟨length_keyBytes o (by omega), fun j h hj => getElem?_keyBytes o h hj⟩,
    fun o => ⟨length_ivBytes o, fun j h => getElem?_regBytes o.iv h⟩,
    fun o => ⟨length_saltBytes o, fun j h => getElem?_regBytes o.salt h⟩, fun o h0 h1 h2 h3 => ?_⟩
  rw [keyBytes_sixteen, h0, h1, h2, h3]
  decide

end Sys2Proof.Machine
end

section
/-! PROOFS. Reset: what every reset gives, and the memory it leaves (10_state.md R48, 70_reset_and_hazards.md). -/

namespace Sys2Proof.Machine

theorem statusWord_reset : State.reset.status.word = 0 := by decide

theorem key_reset : ∀ j : Fin 8, OperandRegs.reset.key[j] = 0 := by decide

theorem iv_reset : ∀ j : Fin 4, OperandRegs.reset.iv[j] = 0 := by decide

theorem salt_reset : ∀ j : Fin 4, OperandRegs.reset.salt[j] = 0 := by decide

/-- The state of ACE is at its reset values whatever stands in what is no state of ACE. -/
theorem aceReset_reset_with (m : Memory) (p : Platform) (c : Nat) (l : List Event) (rs : List HostResult) :
    AceReset { State.reset with mem := m, platform := p, drawCount := c, inputs := l, results := rs } where
  ctrl := rfl
  status := statusWord_reset
  cmd := rfl
  iter := rfl
  pwAddr := rfl
  pwLen := rfl
  srcAddr := rfl
  srcLen := rfl
  dstAddr := rfl
  outLen := rfl
  errAddr := rfl
  key := key_reset
  iv := iv_reset
  salt := salt_reset
  sequencer := rfl
  pending := rfl
  hidden := rfl
  interrupt := rfl

theorem aceReset_reset : AceReset State.reset := aceReset_reset_with _ _ _ _ _

theorem aceReset_resetEngine (s : State) : AceReset s.resetEngine := aceReset_reset_with _ _ _ _ _

theorem sameOutside_unspecify (m : Memory) (r : Region) (c : Nat) :
    SameOutside m (unspecify m r c) r.base r.size := by
  intro x hx
  have hout : ¬ regionHas r x = true := by rw [regionHas_iff]; omega
  exact read_unspecify_of_outside m r c x (Bool.eq_false_of_not_eq_true hout)

/-- The Out region that the machine's reset abandons is the one the statements speak of. -/
theorem abandonedOut_eq_runningOut (s : State) : s.abandonedOut = runningOut s := by
  unfold State.abandonedOut runningOut
  cases s.sequencer with
  | idle => rfl
  | running w =>
    unfold regionsOfWord
    cases hd : decode w <;> simp only [hd, emptyRegion]

theorem runningOut_of_idle {s : State} (h : s.sequencer = .idle) : runningOut s = emptyRegion := by
  rw [runningOut, h]
  rfl

theorem resetEngine_mem_eq (s : State) : s.resetEngine.mem = unspecify s.mem (runningOut s) s.drawCount := by
  rw [State.resetEngine_mem, abandonedOut_eq_runningOut]

/-- A reset of an idle engine changes no memory (10_state.md R48). -/
theorem resetEngine_mem_of_idle {s : State} (h : s.sequencer = .idle) : s.resetEngine.mem = s.mem := by
  rw [resetEngine_mem_eq, runningOut_of_idle h, unspecify_empty]

/-- A reset changes memory only in the Out region of the command it cuts short. -/
theorem sameOutside_resetEngine (s : State) :
    SameOutside s.mem s.resetEngine.mem (runningOut s).base (runningOut s).size := by
  rw [resetEngine_mem_eq]
  exact sameOutside_unspecify _ _ _

/-- A host write of CTRL with bit 1 set is the soft reset (40_command_model.md R151). -/
theorem step_softReset {s : State} {rest : List Event} {d : Word} (hd : d.getLsbD 1 = true)
    (h : s.inputs = .busWrite (windowBase s.platform + 0x00) 4 d :: rest) :
    step s = .next (State.resetEngine { s with inputs := rest }) := by
  rw [step_busWrite_reg (r := .ctrl) h, State.writeReg, State.writeCtrl, if_pos hd]

/-- Settles O19: both resets are `State.resetEngine`, which is `State.reset` but for memory, the platform, the counter
of draws and the lists of host traffic. -/
theorem everyResetGivesResetValues : Obligations.EveryResetGivesResetValues := by
  unfold Obligations.EveryResetGivesResetValues
  refine ⟨aceReset_reset, fun s rest hin => ?_⟩
  have hstep : step s = .next (State.resetEngine { s with inputs := rest }) := by
    rcases hin with h | ⟨d, hd, h⟩
    · exact step_powerOnReset h
    · exact step_softReset hd h
  exact ⟨_, hstep, aceReset_resetEngine _, resetEngine_mem_of_idle, sameOutside_resetEngine _, rfl, rfl, rfl⟩

end Sys2Proof.Machine
end

section
/-! PROOFS. The region check (20_memory.md R90 to R93): when a command raises REGION_ERROR, and that it then makes no
memory access. -/

namespace Sys2Proof.Machine

/-- The lengths that the check of DEC refuses are those of 42_cipher.md R271. -/
theorem cipherLengthBad_iff (ksz : BitVec 2) (len : Nat) :
    cipherLengthBad len = true ↔ malformedLength (.dec ksz) len := by
  simp [cipherLengthBad, malformedLength]

/-- The lengths that the check of OPEN refuses are those of 43_container.md R301. -/
theorem containerLengthBad_iff (ksz : BitVec 2) (len : Nat) :
    containerLengthBad len = true ↔ malformedLength (.openC ksz) len := by
  simp only [containerLengthBad, malformedLength, Bool.or_eq_true, decide_eq_true_eq, beq_iff_eq, bne_iff_ne]
  omega

/-- Without a precondition error KSZ is not reserved. -/
theorem kszLegal_of_not_preconditionError {i : Instr} {o : OperandRegs} {ksz : BitVec 2}
    (h : ¬ preconditionError i o) (hk : kszOf i = some ksz) : kszLegal ksz = true := by
  rw [← Bool.not_eq_false, kszIllegal_iff]
  exact fun hbad => h (.inl ⟨ksz, hk, hbad⟩)

/-- Without a precondition error ITER is not 0 where it is used. -/
theorem iter_ne_zero_of_not_preconditionError {i : Instr} {o : OperandRegs}
    (h : ¬ preconditionError i o) (hi : usesIter i = true) : o.iter ≠ 0#32 :=
  fun h0 => h (.inr ⟨hi, h0⟩)

/-- Once no error up to MALFORMED_CONTAINER applies, only the region check is left. -/
theorem checkOf_of_passesRegisterChecks {i : Instr} {o : OperandRegs} (h : passesRegisterChecks i o) :
    checkOf i o = if regionBad (regionsOf i o) then some .regionError else none := by
  obtain ⟨hpre, hpw, hlen⟩ := h
  have hksz {ksz : BitVec 2} (hk : kszOf i = some ksz) := kszLegal_of_not_preconditionError hpre hk
  have hiter (hi : usesIter i = true) := iter_ne_zero_of_not_preconditionError hpre hi
  have hpwLen (hn : needsPassword i = true) : o.pwLen ≠ 0#32 := fun h0 => hpw ⟨hn, h0⟩
  cases i with
  | nop => rfl
  | zeroize => rfl
  | kdf ksz => simp [checkOf, kdfCheck, firstError, hksz rfl, hiter rfl]
  | enc ksz => simp [checkOf, encCheck, firstError, hksz rfl]
  | dec ksz => simp [checkOf, decCheck, firstError, hksz rfl, (cipherLengthBad_iff ksz _).not.mpr hlen]
  | sealC ksz gen => simp [checkOf, sealCheck, firstError, hksz rfl, hiter rfl, hpwLen rfl]
  | openC ksz =>
    simp [checkOf, openCheck, firstError, hksz rfl, hiter rfl, hpwLen rfl, (containerLengthBad_iff ksz _).not.mpr hlen]

/-- Once no error up to MALFORMED_CONTAINER applies, the code is REGION_ERROR exactly when the region check fails: an
access or the padding ends a command with another code. -/
theorem resultOf_err_eq_regionError_iff {i : Instr} {s : State} (h : passesRegisterChecks i s.operands) :
    (resultOf i s).err = .regionError ↔ regionBad (regionsOf i s.operands) = true := by
  have hc := checkOf_of_passesRegisterChecks h
  cases hbad : regionBad (regionsOf i s.operands) <;> rw [hbad] at hc
  case false => rcases resultOf_err_of_check_none hc with he | he | he <;> simp [he]
  case true => simp [resultOf_of_check hc]

theorem wraps_eq_true_iff (r : Region) : wraps r = true ↔ 0 < r.size ∧ 2 ^ 32 < r.base + r.size := by
  rw [wraps, Bool.and_eq_true, decide_eq_true_iff, decide_eq_true_iff, dmaSize]

/-- The region check fails when one of the three regions passes 2^32, or when In and Out share an address other than
in the in-place form (20_memory.md R93). -/
theorem regionBad_eq_true_iff (rs : Regions) :
    regionBad rs = true ↔
      (∃ r, (r = rs.pw ∨ r = rs.inp ∨ r = rs.out) ∧ 0 < r.size ∧ 2 ^ 32 < r.base + r.size) ∨
      ((∃ a, rs.inp.base ≤ a ∧ a < rs.inp.base + rs.inp.size ∧ rs.out.base ≤ a ∧ a < rs.out.base + rs.out.size) ∧
        rs.inPlace = false) := by
  have hshare := not_disjoint_iff rs.inp rs.out
  simp only [and_assoc] at hshare
  simp only [← hshare, ← wraps_eq_true_iff, or_and_right, exists_or, exists_eq_left, regionBad, Bool.or_eq_true,
    Bool.not_eq_true', Bool.or_eq_false_iff, or_assoc]

/-- Settles O38: after the register checks the region check alone decides on REGION_ERROR, and it is made before every
access. -/
theorem regionCheckRule : Obligations.RegionCheckRule := by
  unfold Obligations.RegionCheckRule
  intro i s hpass
  refine ⟨_, exec_eq_commit i s, ?_, fun herr => ?_⟩
  · rw [← regionBad_eq_true_iff, ← resultOf_err_eq_regionError_iff hpass]
    rfl
  · have hcode : (resultOf i s).err = .regionError := herr
    exact exec_noMemoryAccess (by simp [hcode]) (by simp [hcode]) (by simp [hcode])

end Sys2Proof.Machine
end

section
/-! PROOFS. The encoding (30_encoding.md R120 to R127, R131): a word decodes to a command exactly when it is the word of
that command, and the table of R127 lists the commands with their words. -/

namespace Sys2Proof

theorem decode_encode (i : Instr) : decode (encode i) = .ok i := by
  cases i with
  | nop => decide
  | kdf ksz => revert ksz; decide
  | enc ksz => revert ksz; decide
  | dec ksz => revert ksz; decide
  | sealC ksz gen => revert ksz gen; decide
  | openC ksz => revert ksz; decide
  | zeroize => decide

/-- The four fields are the whole of a command word. -/
theorem packFields_fields {w : Word} (h : rsvField w = 0) :
    packFields (opField w) (kszField w) (genField w) = w := by
  have hgen : BitVec.ofBool (genField w) = w.extractLsb' 10 1 := by
    rw [genField, BitVec.getLsbD_eq_extractLsb']
    generalize w.extractLsb' 10 1 = bit
    revert bit
    decide
  have hrsv : 0#21 = w.extractLsb' 11 21 := h.symm
  rw [packFields, hgen, hrsv, opField, kszField,
    BitVec.extractLsb'_append_extractLsb'_eq_extractLsb' (start₂ := 11) (len₁ := 1) (by decide),
    BitVec.extractLsb'_append_extractLsb'_eq_extractLsb' (start₂ := 10) (len₁ := 2) (by decide),
    BitVec.extractLsb'_append_extractLsb'_eq_extractLsb' (start₂ := 8) (len₁ := 8) (by decide)]
  exact BitVec.extractLsb'_eq_self

/-- Nothing of a word is dropped: in every branch of `decode` that answers a command, its fields are the word's and
the fields it does not use are zero. -/
theorem eq_encode_of_decode {w : Word} {i : Instr} (h : decode w = .ok i) : w = encode i := by
  have hrsv : rsvField w = 0 := by
    by_contra hne
    rw [decode, if_pos hne] at h
    cases h
  rw [← packFields_fields hrsv]
  rw [decode, if_neg (not_not.mpr hrsv)] at h
  split_ifs at h
  all_goals
    cases h
    simp_all [encode]

theorem decode_eq_ok_iff {w : Word} {i : Instr} : decode w = .ok i ↔ w = encode i :=
  ⟨eq_encode_of_decode, fun h => h ▸ decode_encode i⟩

theorem decode_eq_error_iff {w : Word} : decode w = .error .illegalCommand ↔ ∀ i, decode w ≠ .ok i := by
  cases decode w <;> simp

/-- The table of R127 has a row for every command: its word, and whether it executes. -/
theorem mem_commandTable_iff {w : Word} {i : Instr} {b : Bool} :
    (w, i, b) ∈ Machine.commandTable ↔ w = encode i ∧ b = i.wellFormed := by
  constructor
  · have hrows : ∀ row ∈ Machine.commandTable, row.1 = encode row.2.1 ∧ row.2.2 = row.2.1.wellFormed := by
      decide
    exact hrows _
  · rintro ⟨rfl, rfl⟩
    cases i with
    | nop => decide
    | kdf ksz => revert ksz; decide
    | enc ksz => revert ksz; decide
    | dec ksz => revert ksz; decide
    | sealC ksz gen => revert ksz gen; decide
    | openC ksz => revert ksz; decide
    | zeroize => decide

/-- Settles O6: a pseudo-instruction is its expansion, whose word is the encoder's. -/
theorem pseudoInstructionWords : Obligations.PseudoInstructionWords := by
  unfold Obligations.PseudoInstructionWords
  exact ⟨⟨rfl, by decide⟩, ⟨rfl, by decide⟩, ⟨rfl, by decide⟩, ⟨rfl, by decide⟩, ⟨rfl, by decide⟩⟩

end Sys2Proof
end

section
/-! PROOFS. Which commands execute: a reserved KSZ fails in every state (30_encoding.md R122), every other command of
the table of R127 ends with ERR = 0 in some state. And the number of rounds, by the key length. -/

namespace Sys2Proof.Machine

/-! ### A reserved KSZ -/

/-- KSZ is checked before anything else. -/
theorem checkOf_of_not_wellFormed {i : Instr} (h : i.wellFormed = false) (o : OperandRegs) :
    checkOf i o = some .preconditionViolation := by
  cases i with
  | nop => cases h
  | kdf ksz => simp [checkOf, kdfCheck, firstError, show kszLegal ksz = false from h]
  | enc ksz => simp [checkOf, encCheck, firstError, show kszLegal ksz = false from h]
  | dec ksz => simp [checkOf, decCheck, firstError, show kszLegal ksz = false from h]
  | sealC ksz gen => simp [checkOf, sealCheck, firstError, show kszLegal ksz = false from h]
  | openC ksz => simp [checkOf, openCheck, firstError, show kszLegal ksz = false from h]
  | zeroize => cases h

theorem exec_ends_with_resultOf_err (i : Instr) (s : State) :
    ∃ t, exec i s = .next t ∧ t.status.err = (resultOf i s).err :=
  ⟨_, exec_eq_commit i s, rfl⟩

theorem exec_preconditionViolation_of_not_wellFormed {i : Instr} (h : i.wellFormed = false) (s : State) :
    ∃ t, exec i s = .next t ∧ t.status.err = .preconditionViolation := by
  obtain ⟨t, hexec, herr⟩ := exec_ends_with_resultOf_err i s
  rw [resultOf_of_check (checkOf_of_not_wellFormed h s.operands)] at herr
  exact ⟨t, hexec, herr⟩

/-! ### A command that runs ends with ERR = 0 -/

theorem KdfRuns.err_eq_ok {ksz : BitVec 2} {s : State} (h : KdfRuns ksz s) : (kdfResult ksz s).err = .ok := by
  rw [kdfResult_eq h.check h.pwRead]
  rfl

theorem EncRuns.err_eq_ok {ksz : BitVec 2} {s : State} (h : EncRuns ksz s) : (encResult ksz s).err = .ok := by
  rw [encResult_eq h.check h.inRead h.outWrite]
  rfl

theorem SealRuns.err_eq_ok {ksz : BitVec 2} {s : State} (h : SealRuns ksz s) (gen : Bool) :
    (sealResult ksz gen s).err = .ok := by
  rw [sealResult_eq (h.check gen) h.pwRead h.inRead h.outWrite]
  rfl

theorem DecRuns.err_eq_ok {ksz : BitVec 2} {s : State} {x : List Byte} (h : DecRuns ksz s)
    (hx : decrypt (s.keyOperand ksz) s.operands.ivBytes s.inputBytes = some x) : (decResult ksz s).err = .ok := by
  rw [decResult_eq h.check h.inRead h.outWrite, hx]
  rfl

theorem OpenRuns.err_eq_ok {ksz : BitVec 2} {s : State} {x : List Byte} (h : OpenRuns ksz s)
    (hx : decrypt (s.openKey ksz) s.openIv s.openCiphertext = some x) : (openResult ksz s).err = .ok := by
  rw [openResult_eq h.check h.pwRead h.inRead h.outWrite, hx]
  rfl

/-! ### A state in which each command runs -/

/-- The platform after reset admits every address (log entry 2). -/
theorem resetPlatform_admits {a : Nat} (h : a < 2 ^ 32) :
    dmaReadOK Config.resetPlatform a = true ∧ dmaWriteOK Config.resetPlatform a = true := by
  simpa [dmaReadOK, dmaWriteOK, isDevice, anyHas, regionHas, Config.resetPlatform] using h

theorem readAdmitted_resetPlatform {a n : Nat} (h : a + n ≤ 2 ^ 32) : ReadAdmitted Config.resetPlatform a n :=
  fun _ _ => (resetPlatform_admits (by omega)).1

theorem writeAdmitted_resetPlatform {a n : Nat} (h : a + n ≤ 2 ^ 32) : WriteAdmitted Config.resetPlatform a n :=
  fun _ _ => (resetPlatform_admits (by omega)).2

/-- ITER is 1, the password has one byte, and the input of `len` bytes and the output lie apart. -/
def startOperands (len : Word) : OperandRegs :=
  { OperandRegs.reset with iter := 1, pwAddr := 0, pwLen := 1, srcAddr := 0x1000, srcLen := len, dstAddr := 0x2000 }

/-- After reset a host has set these operands and stored an input. -/
def startWith (len : Word) (input : List Byte) : State :=
  { State.reset with regs := startOperands len, mem := Memory.writeBytes [] 0x1000 input }

@[simp] theorem startWith_operands (len : Word) (input : List Byte) :
    (startWith len input).operands = startOperands len := rfl

theorem startWith_inputBytes {len : Word} {input : List Byte} (h : input.length = len.toNat) :
    (startWith len input).inputBytes = input :=
  Memory.readBytes_writeBytes_of_length [] 0x1000 len.toNat input h

/-- The password is a byte that nothing has written. -/
theorem startWith_passwordBytes (len : Word) (input : List Byte) : (startWith len input).passwordBytes = [0] :=
  Memory.readBytes_writeBytes_of_disjoint [] 0x1000 0 1 input (.inl (by decide))

theorem keptBytes_le (last : List Byte) : keptBytes last ≤ 16 := by
  unfold keptBytes
  split <;> omega

theorem kdfRuns_startWith {ksz : BitVec 2} (hk : ksz = 0b00 ∨ ksz = 0b10) : KdfRuns ksz (startWith 0 []) where
  legalKsz := hk
  iter := by decide
  pw := by decide
  pwRead := readAdmitted_resetPlatform (by decide)

theorem encRuns_startWith {ksz : BitVec 2} (hk : ksz = 0b00 ∨ ksz = 0b10) : EncRuns ksz (startWith 0 []) where
  legalKsz := hk
  inp := by decide
  out := by decide
  legal := .inl rfl
  inRead := readAdmitted_resetPlatform (by decide)
  outWrite := writeAdmitted_resetPlatform (by decide)

theorem sealRuns_startWith {ksz : BitVec 2} (hk : ksz = 0b00 ∨ ksz = 0b10) : SealRuns ksz (startWith 0 []) where
  legalKsz := hk
  iter := by decide
  pwNonempty := by decide
  pw := by decide
  inp := by decide
  out := by decide
  legal := .inl rfl
  pwRead := readAdmitted_resetPlatform (by decide)
  inRead := readAdmitted_resetPlatform (by decide)
  outWrite := writeAdmitted_resetPlatform (by decide)

theorem decRuns_startWith {ksz : BitVec 2} (hk : ksz = 0b00 ∨ ksz = 0b10) (c : List Byte) :
    DecRuns ksz (startWith 16 c) where
  legalKsz := hk
  nonzero := by simp [startOperands]
  blocks := by simp [startOperands]
  inp := by simp [startOperands]
  out := by simp [startOperands]
  legal := by simp [startOperands, PassLegal]
  inRead := readAdmitted_resetPlatform (by simp [startOperands])
  outWrite := writeAdmitted_resetPlatform (by grw [keptBytes_le]; simp [startOperands])

theorem openRuns_startWith {ksz : BitVec 2} (hk : ksz = 0b00 ∨ ksz = 0b10) (c : List Byte) :
    OpenRuns ksz (startWith 48 c) where
  legalKsz := hk
  iter := by simp [startOperands]
  pwNonempty := by simp [startOperands]
  long := by simp [startOperands]
  blocks := by simp [startOperands]
  pw := by simp [startOperands]
  inp := by simp [startOperands]
  out := by simp [startOperands]
  legal := by simp [startOperands]
  pwRead := readAdmitted_resetPlatform (by simp [startOperands])
  inRead := readAdmitted_resetPlatform (by simp [startOperands])
  outWrite := writeAdmitted_resetPlatform (by grw [keptBytes_le]; simp [startOperands])

/-- DEC ends with ERR = 0 on the encryption of the empty plaintext under its own key and IV. -/
theorem dec_ends_ok {ksz : BitVec 2} (hk : ksz = 0b00 ∨ ksz = 0b10) : ∃ s, (decResult ksz s).err = .ok := by
  refine ⟨startWith 16 (encrypt ((startOperands 16).keyBytes (klen ksz)) (startOperands 16).ivBytes []),
    (decRuns_startWith hk _).err_eq_ok (x := []) ?_⟩
  rw [startWith_inputBytes (by rw [length_encrypt]; rfl)]
  exact decrypt_encrypt _ _ []

/-- Sixteen zero bytes, used as a salt and as an IV. -/
def zeroBlockBytes : List Byte := List.replicate 16 0

/-- The container of the empty plaintext, for the password and ITER of `startWith`. -/
def emptyContainer (ksz : BitVec 2) : List Byte :=
  container zeroBlockBytes zeroBlockBytes (encrypt (derive [0] zeroBlockBytes 1 (klen ksz)) zeroBlockBytes [])

theorem length_emptyContainer (ksz : BitVec 2) : (emptyContainer ksz).length = 48 := by
  simp [emptyContainer, container, length_encrypt, paddedLength, zeroBlockBytes]

/-- OPEN ends with ERR = 0 on that container. -/
theorem open_ends_ok {ksz : BitVec 2} (hk : ksz = 0b00 ∨ ksz = 0b10) : ∃ s, (openResult ksz s).err = .ok := by
  refine ⟨startWith 48 (emptyContainer ksz), (openRuns_startWith hk _).err_eq_ok (x := []) ?_⟩
  rw [State.openKey, State.openIv, State.openCiphertext, startWith_passwordBytes,
    startWith_inputBytes (length_emptyContainer ksz)]
  exact decrypt_encrypt (derive [0] zeroBlockBytes 1 (klen ksz)) zeroBlockBytes []

/-- A command with a legal KSZ, or with none, ends with ERR = 0 in some state. -/
theorem ends_ok_of_wellFormed {i : Instr} (h : i.wellFormed = true) : ∃ s, (resultOf i s).err = .ok := by
  cases i with
  | nop => exact ⟨State.reset, rfl⟩
  | kdf ksz => exact ⟨_, (kdfRuns_startWith ((kszLegal_iff ksz).mp h)).err_eq_ok⟩
  | enc ksz => exact ⟨_, (encRuns_startWith ((kszLegal_iff ksz).mp h)).err_eq_ok⟩
  | dec ksz => exact dec_ends_ok ((kszLegal_iff ksz).mp h)
  | sealC ksz gen => exact ⟨_, (sealRuns_startWith ((kszLegal_iff ksz).mp h)).err_eq_ok gen⟩
  | openC ksz => exact open_ends_ok ((kszLegal_iff ksz).mp h)
  | zeroize => exact ⟨State.reset, rfl⟩

/-- Settles O3: the table's rows are the commands with their words, those with a legal KSZ run, and the others fail
their first check. -/
theorem twentySixCommandWords : Obligations.TwentySixCommandWords := by
  unfold Obligations.TwentySixCommandWords
  simp only [mem_commandTable_iff, decode_eq_ok_iff]
  refine ⟨fun w i => by simp, fun w hw => ?_, by decide, by decide, by decide, ?_, ?_⟩
  · exact decode_eq_error_iff.mpr fun i hi => hw i i.wellFormed ⟨eq_encode_of_decode hi, rfl⟩
  · rintro w i ⟨-, hi⟩
    obtain ⟨s, hs⟩ := ends_ok_of_wellFormed hi.symm
    obtain ⟨t, hexec, herr⟩ := exec_ends_with_resultOf_err i s
    exact ⟨s, t, hexec, herr.trans hs⟩
  · rintro w i ⟨-, hi⟩
    exact exec_preconditionViolation_of_not_wellFormed hi.symm

/-! ### The key length and the rounds -/

/-- The last round uses the round key after the middle ones (42_cipher.md R237). -/
theorem length_middle_expandKey (key : List Byte) : (expandKey key).middle.length + 1 = roundCount key := by
  simp [expandKey, roundCount]

/-- Settles O7: the round keys are counted by the key length, and a reserved KSZ is encoded like any other and fails the
first check. -/
theorem kszSelectsKeyLength : Obligations.KszSelectsKeyLength := by
  unfold Obligations.KszSelectsKeyLength
  simp only [length_middle_expandKey, roundCount]
  refine ⟨by decide, by decide, by decide, fun key h => by rw [h], fun key h => by rw [h], ?_⟩
  intro ksz gen i hksz hi
  refine ⟨decode_encode i, exec_preconditionViolation_of_not_wellFormed ?_⟩
  rcases hi with rfl | rfl | rfl | rfl | rfl <;> exact (kszIllegal_iff ksz).mpr hksz

end Sys2Proof.Machine
end

section
/-! PROOFS. The host's writes of the register window (40_command_model.md R141, R151 to R156). -/

namespace Sys2Proof.Machine

/-! ### Operand registers -/

/-- The registers that an idle host write stores to (40_command_model.md R155). -/
def isOperandReg : Reg → Bool
  | .ctrl | .status | .cmd | .outLen | .errAddr => false
  | _ => true

theorem isOperandReg_of_ne {r : Reg} (hctrl : r ≠ .ctrl) (hstatus : r ≠ .status) (hcmd : r ≠ .cmd)
    (hout : r ≠ .outLen) (haddr : r ≠ .errAddr) : isOperandReg r = true := by
  cases r with
  | ctrl => exact absurd rfl hctrl
  | status => exact absurd rfl hstatus
  | cmd => exact absurd rfl hcmd
  | outLen => exact absurd rfl hout
  | errAddr => exact absurd rfl haddr
  | _ => rfl

theorem writeReg_of_isOperandReg {r : Reg} (h : isOperandReg r = true) (s : State) (d : Word) :
    s.writeReg r d = s.writeOperand r d := by
  cases r with
  | ctrl | status | cmd | outLen | errAddr => cases h
  | _ => rfl

/-- The value written to an operand register reads back. -/
theorem registerValue_write_same {r : Reg} (h : isOperandReg r = true) (s : State) (d : Word) :
    State.registerValue { s with regs := s.regs.write d r } r = d.toNat := by
  cases r with
  | ctrl | status | cmd | outLen | errAddr => cases h
  | key j | iv j | salt j => simp [State.registerValue, OperandRegs.write]
  | _ => rfl

theorem toNat_getElem_set_of_ne {n : Nat} (v : Vector Word n) (d : Word) {j k : Fin n} (h : k ≠ j) :
    ((v.set j d)[k]).toNat = (v[k]).toNat := by
  have hval : j.val ≠ k.val := fun he => h (Fin.ext he.symm)
  simp [hval]

/-- A write to an operand register leaves what every other register reads. -/
theorem registerValue_write_of_ne {q r : Reg} (h : q ≠ r) (s : State) (d : Word) :
    State.registerValue { s with regs := s.regs.write d r } q = s.registerValue q := by
  cases r with
  | key j =>
    cases q with
    | key k => exact toNat_getElem_set_of_ne _ _ fun he => h (congrArg _ he)
    | _ => rfl
  | iv j =>
    cases q with
    | iv k => exact toNat_getElem_set_of_ne _ _ fun he => h (congrArg _ he)
    | _ => rfl
  | salt j =>
    cases q with
    | salt k => exact toNat_getElem_set_of_ne _ _ fun he => h (congrArg _ he)
    | _ => rfl
  | _ => cases q <;> trivial

/-! ### Reserved offsets -/

/-- The offsets that registers have lie outside the two reserved ranges (10_state.md R30). -/
theorem regOffset_ranges (r : Reg) : regOffset r ≤ 0x28 ∨ 0x40 ≤ regOffset r ∧ regOffset r ≤ 0x7C := by
  cases r with
  | key j | iv j | salt j => simp only [regOffset]; omega
  | _ => decide

theorem regAt_eq_none {off : Nat} (h : ∀ r, regOffset r ≠ off) : regAt off = none :=
  Option.eq_none_iff_forall_ne_some.mpr fun r hr => h r (regOffset_of_regAt hr)

/-- A host write to an offset without a register is ignored. -/
theorem step_busWrite_reserved {s : State} {rest : List Event} {off : Nat} {d : Word} (hle : off ≤ 0xFC)
    (halign : off % 4 = 0) (hnone : ∀ r, regOffset r ≠ off)
    (h : s.inputs = .busWrite (windowBase s.platform + off) 4 d :: rest) :
    step s = .next { s with inputs := rest } := by
  have hoff : windowOffset s.platform (windowBase s.platform + off) 4 = some off :=
    windowOffset_eq_some_iff.mpr ⟨rfl, rfl, hle, halign⟩
  unfold step
  rw [h]
  simp only [takeEvent, hostWrite, hoff, State.windowWrite, regAt_eq_none hnone]

/-- Settles O16: OUT_LEN and ERR_ADDR are not written, and in the reserved ranges there is no register. -/
theorem readOnlyWriteIgnored : Obligations.ReadOnlyWriteIgnored := by
  unfold Obligations.ReadOnlyWriteIgnored
  rintro s rest off d (rfl | rfl | ⟨halign, hrange⟩) hin
  · exact step_busWrite_reg (r := .outLen) hin
  · exact step_busWrite_reg (r := .errAddr) hin
  · have hnone : ∀ r, regOffset r ≠ off := fun r => by have := regOffset_ranges r; omega
    exact step_busWrite_reserved (by omega) halign hnone hin

/-! ### CMD and the operand registers -/

/-- While BUSY = 1 a host write to CMD or to an operand register is dropped (40_command_model.md R153, R154). -/
theorem writeReg_of_busy {s : State} {r : Reg} (hr : r = .cmd ∨ isOperandReg r = true) (hbusy : s.status.busy = true)
    (d : Word) : s.writeReg r d = { s with status := s.status.overrun } := by
  rcases hr with rfl | hop
  · exact whenIdle_of_busy hbusy
  · rw [writeReg_of_isOperandReg hop]
    exact whenIdle_of_busy hbusy

theorem step_busWrite_of_busy {s : State} {rest : List Event} {r : Reg} {d : Word}
    (hr : r = .cmd ∨ isOperandReg r = true) (hbusy : s.status.busy = true)
    (h : s.inputs = .busWrite (windowBase s.platform + regOffset r) 4 d :: rest) :
    step s = .next { s with inputs := rest, status := s.status.overrun } := by
  rw [step_busWrite_reg h, writeReg_of_busy (s := { s with inputs := rest }) hr hbusy]

/-- While BUSY = 0 a host write to CMD is the accept (40_command_model.md R141). -/
theorem step_busWrite_cmd_of_idle {s : State} {rest : List Event} {w : Word} (hidle : s.status.busy = false)
    (h : s.inputs = .busWrite (windowBase s.platform + 0x08) 4 w :: rest) :
    step s = .next (State.accept { s with inputs := rest } w) := by
  rw [step_busWrite_reg (r := .cmd) h, State.writeReg, whenIdle_of_idle (s := { s with inputs := rest }) hidle]

/-- While BUSY = 0 a host write to an operand register stores the word (40_command_model.md R155). -/
theorem step_busWrite_operand_of_idle {s : State} {rest : List Event} {r : Reg} {d : Word}
    (hop : isOperandReg r = true) (hidle : s.status.busy = false)
    (h : s.inputs = .busWrite (windowBase s.platform + regOffset r) 4 d :: rest) :
    step s = .next { s with inputs := rest, regs := s.regs.write d r } := by
  rw [step_busWrite_reg h, writeReg_of_isOperandReg hop, State.writeOperand,
    whenIdle_of_idle (s := { s with inputs := rest }) hidle]

/-- An accept clears DONE, so the interrupt output falls (40_command_model.md R141). -/
theorem irq_accept (s : State) (w : Word) : (s.accept w).irq = false := by
  simp [State.irq]

/-- Settles O13: the write is the accept, or is dropped, by BUSY. -/
theorem cmdWriteAccepts : Obligations.CmdWriteAccepts := by
  unfold Obligations.CmdWriteAccepts
  exact fun s rest w hin => ⟨fun hidle => ⟨_, step_busWrite_cmd_of_idle hidle hin, irq_accept _ w, rfl⟩,
    fun hbusy => step_busWrite_of_busy (r := .cmd) (.inl rfl) hbusy hin⟩

/-- Settles O14: the registers it names are CMD and the operand registers, whose writes wait for BUSY = 0. -/
theorem writeWhileBusyDropped : Obligations.WriteWhileBusyDropped := by
  unfold Obligations.WriteWhileBusyDropped
  intro s rest r d hctrl hstatus hout haddr hbusy hin
  have hr : r = .cmd ∨ isOperandReg r = true :=
    (em (r = .cmd)).imp_right fun hcmd => isOperandReg_of_ne hctrl hstatus hcmd hout haddr
  exact step_busWrite_of_busy hr hbusy hin

/-- Settles O15: the step is `OperandRegs.write`, which reads back at its register and at no other. -/
theorem writeWhileIdleStored : Obligations.WriteWhileIdleStored := by
  unfold Obligations.WriteWhileIdleStored
  intro s rest r d hctrl hstatus hcmd hout haddr hidle hin
  have hop := isOperandReg_of_ne hctrl hstatus hcmd hout haddr
  exact ⟨_, step_busWrite_operand_of_idle hop hidle hin,
    registerValue_write_same hop { s with inputs := rest } d,
    fun q hq => registerValue_write_of_ne hq { s with inputs := rest } d, rfl⟩

/-! ### CTRL and STATUS -/

/-- Settles O11: with bit 1 set the write is the soft reset, and bit 0 has no part in it. -/
theorem ctrlWrite : Obligations.CtrlWrite := by
  unfold Obligations.CtrlWrite
  intro s rest d hin
  refine ⟨fun hset => ⟨_, step_softReset hset hin, rfl, aceReset_resetEngine _⟩, fun hclear => ?_⟩
  rw [step_busWrite_reg (r := .ctrl) hin, State.writeReg, State.writeCtrl, if_neg (Bool.eq_false_iff.mp hclear)]

/-- STATUS after a host write, flag by flag (40_command_model.md R152). -/
theorem writeOneToClear_eq (st : Status) (d : Word) :
    st.writeOneToClear d =
      { st with
        done := if d.getLsbD 1 = true then false else st.done
        ovr := if d.getLsbD 2 = true then false else st.ovr } := by
  simp [Status.writeOneToClear, Bool.and_comm]

/-- Settles O12: the step is `Status.writeOneToClear`, whatever BUSY is. -/
theorem statusWriteOneToClear : Obligations.StatusWriteOneToClear := by
  unfold Obligations.StatusWriteOneToClear
  intro s rest d hin
  rw [step_busWrite_reg (r := .status) hin, State.writeReg, writeOneToClear_eq]

end Sys2Proof.Machine
end

section
/-! PROOFS. SHA-256 (41_kdf.md section 1): the bytes of words, the padding, the blocks, the message schedule, the six
functions, and the two folds: Compress over the rounds and the hash over the blocks. -/

namespace Sys2Proof.Machine

/-! ### Bytes of a word -/

theorem getElem?_be32 (w : Word) {k : Nat} (h : k < 4) :
    (be32 w)[k]? = some (BitVec.ofNat 8 (w.toNat / 2 ^ (8 * (3 - k)))) := by
  have hbyte : (be32 w)[k]? = some (w.extractLsb' (8 * (3 - k)) 8) := by interval_cases k <;> rfl
  rw [hbyte, BitVec.extractLsb', Nat.shiftRight_eq_div_pow]

theorem getElem?_flatMap_be32 (l : List Word) {j k : Nat} (hj : j < l.length) (hk : k < 4) :
    (l.flatMap be32)[4 * j + k]? = (be32 (l.getD j 0))[k]? := by
  induction l generalizing j with
  | nil => simp at hj
  | cons w l ih =>
    rw [List.flatMap_cons]
    cases j with
    | zero =>
      rw [List.getElem?_append_left (by simpa using hk)]
      simp
    | succ j =>
      have hpos : 4 * (j + 1) + k - (be32 w).length = 4 * j + k := by rw [length_be32]; omega
      rw [List.getElem?_append_right (by rw [length_be32]; omega), hpos, ih (by simpa using hj),
        List.getD_cons_succ]

/-- A byte of the low word of a number is that byte of the number. -/
theorem ofNat_div_low_word (n : Nat) {k : Nat} (h : k < 4) :
    BitVec.ofNat 8 (n % 2 ^ 32 / 2 ^ (8 * (3 - k))) = BitVec.ofNat 8 (n / 2 ^ (8 * (3 - k))) := by
  apply BitVec.eq_of_toNat_eq
  simp only [BitVec.toNat_ofNat]
  interval_cases k <;> omega

theorem getElem?_be64 (n : Nat) {k : Nat} (h : k < 8) :
    (be64 n)[k]? = some (BitVec.ofNat 8 (n / 2 ^ (8 * (7 - k)))) := by
  rcases Nat.lt_or_ge k 4 with hk | hk
  · have hexp : 32 + 8 * (3 - k) = 8 * (7 - k) := by omega
    rw [be64, List.getElem?_append_left (by simpa using hk), getElem?_be32 _ hk, BitVec.toNat_ofNat,
      ofNat_div_low_word _ hk, Nat.div_div_eq_div_mul, ← Nat.pow_add, hexp]
  · have hk4 : k - 4 < 4 := by omega
    have hexp : 3 - (k - 4) = 7 - k := by omega
    rw [be64, List.getElem?_append_right (by simpa using hk), length_be32, getElem?_be32 _ hk4, BitVec.toNat_ofNat,
      ofNat_div_low_word _ hk4, hexp]

/-- The digest, byte by byte (41_kdf.md R182). -/
theorem getElem?_shaDigest (x : ShaState) {j k : Nat} (hj : j < 8) (hk : k < 4) :
    (shaDigest x)[4 * j + k]? = some (BitVec.ofNat 8
      (([x.a, x.b, x.c, x.d, x.e, x.f, x.g, x.h].getD j 0).toNat / 2 ^ (8 * (3 - k)))) := by
  have hflat : shaDigest x = [x.a, x.b, x.c, x.d, x.e, x.f, x.g, x.h].flatMap be32 := rfl
  rw [hflat, getElem?_flatMap_be32 _ (by simpa using hj) hk, getElem?_be32 _ hk]

/-! ### Padding and blocks -/

/-- The number of zero bytes in the padding of a message of `len` bytes. -/
def shaZeros (len : Nat) : Nat := (119 - len % 64) % 64

theorem shaZeros_fills (len : Nat) : (len + 1 + shaZeros len) % 64 = 56 := by
  rw [shaZeros]
  omega

theorem shaZeros_least {len y : Nat} (h : (len + 1 + y) % 64 = 56) : shaZeros len ≤ y := by
  rw [shaZeros]
  omega

theorem append_shaPadding (m : List Byte) :
    m ++ shaPadding m.length = m ++ [0x80] ++ List.replicate (shaZeros m.length) 0x00 ++ be64 (8 * m.length) := by
  simp [shaPadding, shaZeros]

/-- A padded message is whole blocks of 64 bytes. -/
theorem length_append_shaPadding_mod (m : List Byte) : (m ++ shaPadding m.length).length % 64 = 0 := by
  rw [List.length_append, length_padded_mod]

/-- Block i is the 64 bytes from 64 i on. -/
theorem shaBlocks_eq_map (n : Nat) (b : List Byte) :
    shaBlocks n b = (List.range n).map fun i => (b.drop (64 * i)).take 64 := by
  induction n generalizing b with
  | zero => rfl
  | succ n ih =>
    rw [shaBlocks, ih, List.range_succ_eq_map, List.map_cons, List.map_map]
    simp [Function.comp_def, Nat.mul_add, Nat.add_comm]

theorem length_of_mem_shaBlocks {n : Nat} {b x : List Byte} (h : 64 * n ≤ b.length) (hx : x ∈ shaBlocks n b) :
    x.length = 64 := by
  rw [shaBlocks_eq_map, List.mem_map] at hx
  obtain ⟨i, hi, rfl⟩ := hx
  have hlt : i < n := List.mem_range.mp hi
  simp
  omega

/-- The blocks of a byte string of whole blocks make it up. -/
theorem flatten_shaBlocks {n : Nat} {b : List Byte} (h : b.length = 64 * n) : (shaBlocks n b).flatten = b := by
  induction n generalizing b with
  | zero => exact (List.length_eq_zero_iff.mp h).symm
  | succ n ih =>
    have hrest : (b.drop 64).length = 64 * n := by simp; omega
    rw [shaBlocks, List.flatten_cons, ih hrest, List.take_append_drop]

/-! ### The message schedule -/

/-- Word t of a byte string is its bytes 4 t to 4 t + 3, the first the most significant (41_kdf.md R182). -/
theorem getElem?_shaWords {b : List Byte} {t : Nat} (h : 4 * t + 3 < b.length) :
    (shaWords b)[t]? = some (b.getD (4 * t) 0 ++ b.getD (4 * t + 1) 0 ++ b.getD (4 * t + 2) 0 ++
      b.getD (4 * t + 3) 0 : BitVec 32) := by
  induction b using shaWords.induct generalizing t with
  | case1 b0 b1 b2 b3 rest ih =>
    cases t with
    | zero => rfl
    | succ t => exact ih (by simp at h; omega)
  | case2 => simp at h
  | case3 => simp at h
  | case4 => simp at h
  | case5 => simp at h

theorem length_shaWords (b : List Byte) : (shaWords b).length = b.length / 4 := by
  induction b using shaWords.induct with
  | case1 b0 b1 b2 b3 rest ih =>
    rw [shaWords, List.length_cons, ih]
    simp only [List.length_cons]
    omega
  | case2 => rfl
  | case3 => simp [shaWords]
  | case4 => simp [shaWords]
  | case5 => simp [shaWords]

theorem length_shaExtend (n : Nat) (w : List Word) : (shaExtend n w).length = n + w.length := by
  induction n generalizing w with
  | zero => simp [shaExtend]
  | succ n ih => rw [shaExtend, ih, List.length_cons]; omega

/-- The words so far stay, behind the new ones. -/
theorem drop_shaExtend (n : Nat) (w : List Word) : (shaExtend n w).drop n = w := by
  induction n generalizing w with
  | zero => rfl
  | succ n ih => rw [shaExtend, ← List.drop_drop, ih]; rfl

/-- Each new word is given by R186 from the words behind it: the last word comes first, so the word of index t - 2 is
two places on. -/
theorem getD_shaExtend {n : Nat} (w : List Word) {i : Nat} (h : i < n) :
    (shaExtend n w).getD i 0 = shaSigma1 ((shaExtend n w).getD (i + 2) 0) + (shaExtend n w).getD (i + 7) 0 +
      shaSigma0 ((shaExtend n w).getD (i + 15) 0) + (shaExtend n w).getD (i + 16) 0 := by
  induction n generalizing w with
  | zero => simp at h
  | succ n ih =>
    rw [shaExtend]
    rcases Nat.lt_succ_iff_lt_or_eq.mp h with hlt | rfl
    · exact ih _ hlt
    · generalize hx : shaSigma1 (w.getD 1 0) + w.getD 6 0 + shaSigma0 (w.getD 14 0) + w.getD 15 0 = x
      have hbehind : ∀ j, (shaExtend i (x :: w)).getD (i + j) 0 = (x :: w).getD j 0 := by
        intro j
        rw [List.getD_eq_getElem?_getD, ← List.getElem?_drop, drop_shaExtend, List.getD_eq_getElem?_getD]
      rw [hbehind 2, hbehind 7, hbehind 15, hbehind 16]
      exact (hbehind 0).trans hx.symm

section Schedule

variable {block : List Byte} (hblock : block.length = 64)
include hblock

theorem length_shaSchedule : (shaSchedule block).length = 64 := by
  rw [shaSchedule, List.length_reverse, length_shaExtend, List.length_reverse, length_shaWords, hblock]

/-- The schedule begins with the words of the block. -/
theorem take_shaSchedule : (shaSchedule block).take 16 = shaWords block := by
  have hlen : (shaExtend 48 (shaWords block).reverse).length - 16 = 48 := by
    rw [length_shaExtend, List.length_reverse, length_shaWords, hblock]
  rw [shaSchedule, List.take_reverse, hlen, drop_shaExtend, List.reverse_reverse]

theorem getElem?_shaSchedule_of_lt {t : Nat} (h : t < 16) :
    (shaSchedule block)[t]? = some (block.getD (4 * t) 0 ++ block.getD (4 * t + 1) 0 ++
      block.getD (4 * t + 2) 0 ++ block.getD (4 * t + 3) 0 : BitVec 32) := by
  rw [← List.getElem?_take_of_lt h, take_shaSchedule hblock, getElem?_shaWords (by omega)]

theorem getElem?_shaSchedule_of_ge {t : Nat} (h16 : 16 ≤ t) (h64 : t < 64) :
    (shaSchedule block)[t]? = some (shaSigma1 ((shaSchedule block).getD (t - 2) 0) +
      (shaSchedule block).getD (t - 7) 0 + shaSigma0 ((shaSchedule block).getD (t - 15) 0) +
      (shaSchedule block).getD (t - 16) 0) := by
  have hlen : (shaExtend 48 (shaWords block).reverse).length = 64 := by
    rw [length_shaExtend, List.length_reverse, length_shaWords, hblock]
  have hrev : ∀ s, s < 64 →
      (shaSchedule block).getD s 0 = (shaExtend 48 (shaWords block).reverse).getD (63 - s) 0 := by
    intro s hs
    rw [shaSchedule, List.getD_reverse _ (by omega), hlen]
  have hword : (shaSchedule block)[t]? = some ((shaSchedule block).getD t 0) := by
    have ht : t < (shaSchedule block).length := by rw [length_shaSchedule hblock]; exact h64
    rw [List.getD_eq_getElem _ _ ht, List.getElem?_eq_getElem ht]
  rw [hword, hrev t h64, hrev (t - 2) (by omega), hrev (t - 7) (by omega), hrev (t - 15) (by omega),
    hrev (t - 16) (by omega), getD_shaExtend _ (by omega : 63 - t < 48),
    show 63 - (t - 2) = 63 - t + 2 by omega, show 63 - (t - 7) = 63 - t + 7 by omega,
    show 63 - (t - 15) = 63 - t + 15 by omega, show 63 - (t - 16) = 63 - t + 16 by omega]

end Schedule

/-! ### The functions and the constants -/

/-- A rotation of a word to the right, bit by bit. -/
theorem getLsbD_rotateRight_word (x : Word) {r i : Nat} (hr : r < 32) (hi : i < 32) :
    (x.rotateRight r).getLsbD i = x.getLsbD ((i + r) % 32) := by
  rw [BitVec.getLsbD_rotateRight_of_lt hr]
  rcases Nat.lt_or_ge i (32 - r) with h | h
  · rw [decide_eq_true h, cond_true, Nat.mod_eq_of_lt (by omega), Nat.add_comm]
  · rw [decide_eq_false (by omega), cond_false, decide_eq_true hi, Bool.true_and,
      show (i + r) % 32 = i - (32 - r) by omega]

/-- A shift of a word to the right, bit by bit. -/
theorem getLsbD_shiftRight_word (x : Word) (r i : Nat) :
    (x >>> r).getLsbD i = (decide (i + r < 32) && x.getLsbD (i + r)) := by
  rw [BitVec.getLsbD_ushiftRight, Nat.add_comm]
  rcases Nat.lt_or_ge (i + r) 32 with h | h
  · simp [h]
  · simp [BitVec.getLsbD_of_ge x _ h]

theorem getLsbD_shaCh (x y z : Word) {i : Nat} (hi : i < 32) :
    (shaCh x y z).getLsbD i = ((x.getLsbD i && y.getLsbD i) ^^ (!x.getLsbD i && z.getLsbD i)) := by
  simp [shaCh, hi]

theorem getLsbD_shaMaj (x y z : Word) (i : Nat) : (shaMaj x y z).getLsbD i =
    ((x.getLsbD i && y.getLsbD i) ^^ (x.getLsbD i && z.getLsbD i) ^^ (y.getLsbD i && z.getLsbD i)) := by
  simp [shaMaj]

theorem getLsbD_shaSum0 (x : Word) {i : Nat} (hi : i < 32) : (shaSum0 x).getLsbD i =
    (x.getLsbD ((i + 2) % 32) ^^ x.getLsbD ((i + 13) % 32) ^^ x.getLsbD ((i + 22) % 32)) := by
  simp only [shaSum0, BitVec.getLsbD_xor, getLsbD_rotateRight_word, hi, Nat.reduceLT]

theorem getLsbD_shaSum1 (x : Word) {i : Nat} (hi : i < 32) : (shaSum1 x).getLsbD i =
    (x.getLsbD ((i + 6) % 32) ^^ x.getLsbD ((i + 11) % 32) ^^ x.getLsbD ((i + 25) % 32)) := by
  simp only [shaSum1, BitVec.getLsbD_xor, getLsbD_rotateRight_word, hi, Nat.reduceLT]

theorem getLsbD_shaSigma0 (x : Word) {i : Nat} (hi : i < 32) : (shaSigma0 x).getLsbD i =
    (x.getLsbD ((i + 7) % 32) ^^ x.getLsbD ((i + 18) % 32) ^^ (decide (i + 3 < 32) && x.getLsbD (i + 3))) := by
  simp only [shaSigma0, BitVec.getLsbD_xor, getLsbD_rotateRight_word, getLsbD_shiftRight_word, hi, Nat.reduceLT]

theorem getLsbD_shaSigma1 (x : Word) {i : Nat} (hi : i < 32) : (shaSigma1 x).getLsbD i =
    (x.getLsbD ((i + 17) % 32) ^^ x.getLsbD ((i + 19) % 32) ^^ (decide (i + 10 < 32) && x.getLsbD (i + 10))) := by
  simp only [shaSigma1, BitVec.getLsbD_xor, getLsbD_rotateRight_word, getLsbD_shiftRight_word, hi, Nat.reduceLT]

/-- The integer parts of the cube roots of the first 64 primes, as the round constants are the fractions that go with
them (41_kdf.md R184). -/
def cubeRootParts : { n : Nat → Nat // ∀ t, t < 64 →
    (n t * 2 ^ 32 + (shaConstants.getD t 0).toNat) ^ 3 ≤ firstPrimes.getD t 0 * 2 ^ 96 ∧
      firstPrimes.getD t 0 * 2 ^ 96 < (n t * 2 ^ 32 + (shaConstants.getD t 0).toNat + 1) ^ 3 } :=
  ⟨fun t => Nat.findGreatest (fun n => n ^ 3 ≤ firstPrimes.getD t 0) 6, by decide +kernel⟩

/-- The integer parts of the square roots of the first 8 primes, as H(0) is the fractions that go with them
(41_kdf.md R185). -/
def squareRootParts : { n : Nat → Nat // ∀ j, j < 8 →
    (n j * 2 ^ 32 + ([shaInit.a, shaInit.b, shaInit.c, shaInit.d, shaInit.e, shaInit.f, shaInit.g,
        shaInit.h].getD j 0).toNat) ^ 2 ≤ firstPrimes.getD j 0 * 2 ^ 64 ∧
      firstPrimes.getD j 0 * 2 ^ 64 < (n j * 2 ^ 32 + ([shaInit.a, shaInit.b, shaInit.c, shaInit.d, shaInit.e,
        shaInit.f, shaInit.g, shaInit.h].getD j 0).toNat + 1) ^ 2 } :=
  ⟨fun j => Nat.findGreatest (fun n => n ^ 2 ≤ firstPrimes.getD j 0) 4, by decide +kernel⟩

theorem length_firstPrimes : firstPrimes.length = 64 := by decide +kernel

theorem length_shaConstants : shaConstants.length = 64 := by decide

/-! ### Compress and the hash -/

/-- A fold over a list is the last of the states that its steps give. -/
theorem foldl_eq_of_steps {α β : Type} (f : β → α → β) (l : List α) (v : Nat → β)
    (h : ∀ (t : Nat) (ht : t < l.length), v (t + 1) = f (v t) l[t]) : l.foldl f (v 0) = v l.length := by
  induction l generalizing v with
  | nil => rfl
  | cons a l ih =>
    have hfirst : v 1 = f (v 0) a := h 0 (by simp)
    rw [List.foldl_cons, ← hfirst]
    exact ih (fun t => v (t + 1)) fun t ht => h (t + 1) (by simpa using ht)

/-- Compress is 64 rounds from the chaining value and the sum with it (41_kdf.md R187). -/
theorem shaCompress_eq_of_rounds {block : List Byte} (hblock : block.length = 64) (v : Nat → ShaState)
    (hround : ∀ t, t < 64 → v (t + 1) = shaRound (v t) (shaConstants.getD t 0, (shaSchedule block).getD t 0)) :
    shaCompress (v 0) block = (v 0).add (v 64) := by
  have hlen : (shaConstants.zip (shaSchedule block)).length = 64 := by
    rw [List.length_zip, length_shaConstants, length_shaSchedule hblock, Nat.min_self]
  rw [shaCompress, foldl_eq_of_steps shaRound _ v, hlen]
  intro t ht
  have hconst : t < shaConstants.length := by rw [length_shaConstants]; omega
  have hword : t < (shaSchedule block).length := by rw [length_shaSchedule hblock]; omega
  rw [hround t (by omega), List.getElem_zip, List.getD_eq_getElem _ _ hconst, List.getD_eq_getElem _ _ hword]

/-- SHA256 is Compress block by block from H(0), then the digest (41_kdf.md R187). -/
theorem sha256_eq_of_chain (m : List Byte) (x : Nat → ShaState) (hinit : x 0 = shaInit)
    (hstep : ∀ i, x (i + 1) = shaCompress (x i) (((m ++ shaPadding m.length).drop (64 * i)).take 64)) :
    sha256 m = shaDigest (x ((m ++ shaPadding m.length).length / 64)) := by
  rw [sha256, shaFold, shaBlocks_eq_map, ← hinit, foldl_eq_of_steps shaCompress _ x, List.length_map,
    List.length_range]
  intro i hi
  rw [hstep i, List.getElem_map, List.getElem_range]

/-- Settles O39, rule by rule. The schedule is built with the last word first, so its recurrence is read from the back;
the rounds of Compress and the blocks of the hash are both folds, given by any sequence of states that follows their
steps; the constants and the example are evaluated. -/
theorem shaPaddingAndSchedule : Obligations.ShaPaddingAndSchedule := by
  unfold Obligations.ShaPaddingAndSchedule
  refine ⟨fun m => ?padding, fun block hblock => ⟨length_shaSchedule hblock,
      fun t ht => getElem?_shaSchedule_of_lt hblock ht,
      fun t h16 h64 => getElem?_shaSchedule_of_ge hblock h16 h64⟩,
    fun x => ⟨length_shaDigest x, fun j k hj hk => getElem?_shaDigest x hj hk⟩,
    fun x y z i hi => ⟨getLsbD_shaCh x y z hi, getLsbD_shaMaj x y z i, getLsbD_shaSum0 x hi, getLsbD_shaSum1 x hi,
      getLsbD_shaSigma0 x hi, getLsbD_shaSigma1 x hi⟩,
    ⟨length_firstPrimes, length_shaConstants, fun t ht => ⟨cubeRootParts.1 t, cubeRootParts.2 t ht⟩⟩, by decide,
    fun j hj => ⟨squareRootParts.1 j, _, rfl, squareRootParts.2 j hj⟩, ⟨rfl, rfl⟩,
    fun h block v hblock hinit hround => ?compress, sha256_eq_of_chain, by decide +kernel⟩
  case padding =>
    have hwhole := length_append_shaPadding_mod m
    exact ⟨shaZeros m.length, shaZeros_fills _, fun y hy => shaZeros_least hy, append_shaPadding m,
      fun k hk => getElem?_be64 _ hk, hwhole, fun b hb => length_of_mem_shaBlocks (Nat.mul_div_le _ _) hb,
      flatten_shaBlocks (Nat.mul_div_cancel' (Nat.dvd_of_mod_eq_zero hwhole)).symm⟩
  case compress =>
    subst hinit
    exact shaCompress_eq_of_rounds hblock v hround

end Sys2Proof.Machine
end

section
/-! PROOFS. HMAC-SHA-256 and PBKDF2 (41_kdf.md sections 2 and 3): the key block, the two pads, and the loop of PBKDF2
along any sequence of PRF outputs. -/

namespace Sys2Proof.Machine

/-! ### HMAC -/

/-- The key block of a long key (41_kdf.md R190). -/
theorem hmacKeyBlock_of_gt {k : List Byte} (h : 64 < k.length) :
    hmacKeyBlock k = sha256 k ++ List.replicate 32 0x00 := if_pos h

/-- The key block of a key of at most a block (41_kdf.md R190). -/
theorem hmacKeyBlock_of_le {k : List Byte} (h : k.length ≤ 64) :
    hmacKeyBlock k = k ++ List.replicate (64 - k.length) 0x00 := if_neg (Nat.not_lt.mpr h)

/-- The exclusive-or with a pad as long as the string is bytewise. -/
theorem xorBytes_replicate (x : List Byte) (b : Byte) :
    xorBytes x (List.replicate x.length b) = x.map fun a => a ^^^ b := by
  rw [← List.map_const', xorBytes, List.zipWith_map_right, List.zipWith_self]

/-- HMAC by its two pads (41_kdf.md R191). -/
theorem hmac_eq (k m : List Byte) : hmac k m = sha256 ((hmacKeyBlock k).map (fun b => b ^^^ 0x5c) ++
    sha256 ((hmacKeyBlock k).map (fun b => b ^^^ 0x36) ++ m)) := by
  rw [← xorBytes_replicate, ← xorBytes_replicate, length_hmacKeyBlock]
  rfl

/-! ### PBKDF2 -/

section Iterates

variable {p : List Byte} {u t : Nat → List Byte} (hu : ∀ j, 1 ≤ j → u (j + 1) = hmac p (u j))
  (ht : ∀ j, 1 ≤ j → t (j + 1) = xorBytes (t j) (u (j + 1)))
include hu ht

/-- The loop goes along the PRF outputs u and the accumulators t. -/
theorem pbkdf2Loop_eq (n : Nat) {j : Nat} (hj : 1 ≤ j) :
    pbkdf2Loop (hmacKeyBlock p) n (u j) (t j) = t (j + n) := by
  induction n generalizing j with
  | zero => rfl
  | succ n ih =>
    have hprf : hmacOfBlock (hmacKeyBlock p) (u j) = u (j + 1) := (hu j hj).symm
    rw [pbkdf2Loop_succ, hprf, ← ht j hj, ih (by omega), Nat.add_right_comm, Nat.add_assoc]

/-- PBKDF2 is the accumulator after c PRF outputs, cut to the length asked for (41_kdf.md R195). -/
theorem pbkdf2_eq_take {salt : List Byte} (hu1 : u 1 = hmac p (salt ++ [0x00, 0x00, 0x00, 0x01])) (ht1 : t 1 = u 1)
    {c : Nat} (hc : 1 ≤ c) (dkLen : Nat) : pbkdf2 p salt c dkLen = (t c).take dkLen := by
  have hloop := pbkdf2Loop_eq hu ht (c - 1) (Nat.le_refl 1)
  rw [ht1, hu1, Nat.add_sub_cancel' hc] at hloop
  rw [← hloop]
  rfl

end Iterates

/-- Settles O40: the key block by the length of the key, HMAC by its two pads, and PBKDF2 by its loop, which goes along
the PRF outputs and their exclusive-ors. -/
theorem pbkdf2Iterates : Obligations.Pbkdf2Iterates := by
  unfold Obligations.Pbkdf2Iterates
  refine ⟨fun k => ⟨length_hmacKeyBlock k, hmacKeyBlock_of_gt, hmacKeyBlock_of_le⟩,
    hmacKeyBlock_of_le (Nat.zero_le 64), fun k m => ⟨length_hmac k m, hmac_eq k m⟩, by decide +kernel,
    fun p salt dkLen u t hdk hu1 ht1 hu ht c hc => ?iterates, fun p salt c _ => pbkdf2_take p salt c⟩
  case iterates =>
    have hle : dkLen ≤ 32 := by omega
    exact ⟨pbkdf2_eq_take hu ht hu1 ht1 hc dkLen, length_pbkdf2 p salt c dkLen hle⟩

end Sys2Proof.Machine
end

section
/-! PROOFS. AES (42_cipher.md section 1): the S-box by its definition in GF(2^8), the recurrence of the key schedule, and
the two ciphers along any sequence of states that follows their rounds. -/

namespace Sys2Proof.Machine

/-! ### The S-box -/

/-- The inverse in GF(2^8), and 0 for 0, read off the S-box: the affine map of 42_cipher.md R233 inverted by three
rotations. -/
def gfInverse (b : Byte) : Byte :=
  (sbox b ^^^ 0x63).rotateLeft 1 ^^^ (sbox b ^^^ 0x63).rotateLeft 3 ^^^ (sbox b ^^^ 0x63).rotateLeft 6

/-- A(x) ⊕ 0x63 with the five terms of A as rotations of x (42_cipher.md R233). -/
def sboxAffine (x : Byte) : Byte :=
  x ^^^ x.rotateRight 4 ^^^ x.rotateRight 5 ^^^ x.rotateRight 6 ^^^ x.rotateRight 7 ^^^ 0x63

theorem gfInverse_spec (b : Byte) : b = 0 ∧ gfInverse b = 0 ∨ gfMul b (gfInverse b) = 0x01 :=
  forall_byte (P := fun b => b = 0 ∧ gfInverse b = 0 ∨ gfMul b (gfInverse b) = 0x01) (by decide +kernel) b

theorem sbox_eq_sboxAffine_gfInverse (b : Byte) : sbox b = sboxAffine (gfInverse b) :=
  forall_byte (P := fun b => sbox b = sboxAffine (gfInverse b)) (by decide +kernel) b

/-- A rotation to the right of a word of any width, bit by bit. -/
theorem getLsbD_rotateRight_mod {w : Nat} (x : BitVec w) {r i : Nat} (hr : r < w) (hi : i < w) :
    (x.rotateRight r).getLsbD i = x.getLsbD ((i + r) % w) := by
  rw [BitVec.getLsbD_rotateRight_of_lt hr]
  rcases Nat.lt_or_ge i (w - r) with h | h
  · rw [decide_eq_true h, cond_true, Nat.mod_eq_of_lt (by omega), Nat.add_comm]
  · have hwrap : (i + r) % w = i - (w - r) := by
      rw [Nat.mod_eq_sub_mod (by omega), Nat.mod_eq_of_lt (by omega)]
      omega
    rw [decide_eq_false (by omega), cond_false, decide_eq_true hi, Bool.true_and, hwrap]

theorem getLsbD_sboxAffine (x : Byte) {i : Nat} (hi : i < 8) : (sboxAffine x).getLsbD i =
    (x.getLsbD i ^^ x.getLsbD ((i + 4) % 8) ^^ x.getLsbD ((i + 5) % 8) ^^ x.getLsbD ((i + 6) % 8) ^^
      x.getLsbD ((i + 7) % 8) ^^ (0x63 : Byte).getLsbD i) := by
  simp only [sboxAffine, BitVec.getLsbD_xor, getLsbD_rotateRight_mod _ (by decide : 4 < 8) hi,
    getLsbD_rotateRight_mod _ (by decide : 5 < 8) hi, getLsbD_rotateRight_mod _ (by decide : 6 < 8) hi,
    getLsbD_rotateRight_mod _ (by decide : 7 < 8) hi]

/-- Settles O41: each byte's inverse is read off the table and checked by a product, and the affine map of it is read bit by
bit from its rotations. -/
theorem sboxDefinition : Obligations.SboxDefinition := by
  unfold Obligations.SboxDefinition
  refine ⟨fun b => ⟨gfInverse b, gfInverse_spec b, fun i hi => ?_⟩, by decide, by decide, by decide⟩
  rw [sbox_eq_sboxAffine_gfInverse, getLsbD_sboxAffine _ hi]

/-! ### The key schedule -/

theorem columnAt_drop_four (b : List Byte) (i : Nat) : columnAt (b.drop 4) i = columnAt b (i + 1) := by
  simp only [columnAt, List.getD_eq_getElem?_getD, List.getElem?_drop]
  congr 3 <;> omega

theorem length_columnsOf (b : List Byte) (n : Nat) : (columnsOf b n).length = n := by
  induction n generalizing b with
  | zero => rfl
  | succ n ih => rw [columnsOf, List.length_cons, ih]

theorem getElem?_columnsOf (b : List Byte) {n i : Nat} (h : i < n) : (columnsOf b n)[i]? = some (columnAt b i) := by
  induction n generalizing b i with
  | zero => simp at h
  | succ n ih =>
    cases i with
    | zero => rfl
    | succ i => rw [columnsOf, List.getElem?_cons_succ, ih _ (by omega), columnAt_drop_four]

theorem length_extendSchedule (nk n i : Nat) (w : List Column) :
    (extendSchedule nk n i w).length = n + w.length := by
  induction n generalizing i w with
  | zero => simp [extendSchedule]
  | succ n ih => rw [extendSchedule, ih, List.length_cons]; omega

/-- The words so far stay, behind the new ones. -/
theorem drop_extendSchedule (nk n i : Nat) (w : List Column) : (extendSchedule nk n i w).drop n = w := by
  induction n generalizing i w with
  | zero => rfl
  | succ n ih => rw [extendSchedule, ← List.drop_drop, ih]; rfl

/-- Each new word is given by R238 from the words behind it; the last word comes first. -/
theorem getD_extendSchedule (nk i : Nat) (w : List Column) {n k : Nat} (h : k < n) :
    (extendSchedule nk n i w).getD k zeroColumn =
      scheduleWord nk (i + n - (k + 1)) ((extendSchedule nk n i w).drop (k + 1)) := by
  induction n generalizing i w with
  | zero => simp at h
  | succ n ih =>
    rw [extendSchedule]
    rcases Nat.lt_succ_iff_lt_or_eq.mp h with hlt | rfl
    · rw [ih _ _ hlt, show i + 1 + n = i + (n + 1) by omega]
    · have hbehind := drop_extendSchedule nk k (i + 1) (scheduleWord nk i w :: w)
      have hhead : (extendSchedule nk k (i + 1) (scheduleWord nk i w :: w)).getD k zeroColumn =
          scheduleWord nk i w := by
        rw [List.getD_eq_getElem?_getD, ← List.head?_drop, hbehind]
        rfl
      rw [hhead, ← List.drop_drop, hbehind, Nat.add_sub_cancel]
      rfl

/-- A schedule word by the words of the whole schedule, of which it is word k from the last (42_cipher.md R238). -/
theorem scheduleWord_drop (nk i k : Nat) (hnk : 1 ≤ nk) (w : List Column) :
    scheduleWord nk i (w.drop (k + 1)) = (w.getD (k + nk) zeroColumn).xor
      (if i % nk = 0 then (subWord (rotWord (w.getD (k + 1) zeroColumn))).xor ⟨rcon (i / nk), 0x00, 0x00, 0x00⟩
       else if nk = 8 ∧ i % 8 = 4 then subWord (w.getD (k + 1) zeroColumn)
       else w.getD (k + 1) zeroColumn) := by
  have hback : ∀ j, (w.drop (k + 1)).getD j zeroColumn = w.getD (k + 1 + j) zeroColumn := by
    intro j
    rw [List.getD_eq_getElem?_getD, List.getElem?_drop, List.getD_eq_getElem?_getD]
  rw [scheduleWord, hback, hback, show k + 1 + (nk - 1) = k + nk by omega, Nat.add_zero]

section Schedule

variable {key : List Byte} {nk nr : Nat} (hnk : nk = 4 ∧ nr = 10 ∨ nk = 8 ∧ nr = 14) (hkey : key.length = 4 * nk)
include hnk hkey

theorem keySchedule_eq_reverse : keySchedule key =
    (extendSchedule nk (4 * (nr + 1) - nk) nk (columnsOf key nk).reverse).reverse := by
  have hdiv : key.length / 4 = nk := by omega
  have hround : roundCount key = nr := by rw [roundCount]; omega
  rw [keySchedule, hdiv, hround]

theorem length_keySchedule : (keySchedule key).length = 4 * (nr + 1) := by
  rw [keySchedule_eq_reverse hnk hkey, List.length_reverse, length_extendSchedule, List.length_reverse,
    length_columnsOf]
  omega

/-- The schedule begins with the words of the key. -/
theorem take_keySchedule : (keySchedule key).take nk = columnsOf key nk := by
  have hlen : (extendSchedule nk (4 * (nr + 1) - nk) nk (columnsOf key nk).reverse).length - nk =
      4 * (nr + 1) - nk := by
    rw [length_extendSchedule, List.length_reverse, length_columnsOf, Nat.add_sub_cancel]
  rw [keySchedule_eq_reverse hnk hkey, List.take_reverse, hlen, drop_extendSchedule, List.reverse_reverse]

theorem getElem?_keySchedule_of_lt {i : Nat} (h : i < nk) : (keySchedule key)[i]? = some (columnAt key i) := by
  rw [← List.getElem?_take_of_lt h, take_keySchedule hnk hkey, getElem?_columnsOf _ h]

/-- The recurrence, read from the back of the list that the schedule reverses. -/
theorem getElem?_keySchedule_of_ge {i : Nat} (hge : nk ≤ i) (hlt : i < 4 * (nr + 1)) :
    (keySchedule key)[i]? = some (((keySchedule key).getD (i - nk) zeroColumn).xor
      (if i % nk = 0 then
        (subWord (rotWord ((keySchedule key).getD (i - 1) zeroColumn))).xor ⟨rcon (i / nk), 0x00, 0x00, 0x00⟩
       else if nk = 8 ∧ i % 8 = 4 then subWord ((keySchedule key).getD (i - 1) zeroColumn)
       else (keySchedule key).getD (i - 1) zeroColumn)) := by
  have hword : (keySchedule key)[i]? = some ((keySchedule key).getD i zeroColumn) := by
    have hi : i < (keySchedule key).length := by rw [length_keySchedule hnk hkey]; exact hlt
    rw [List.getD_eq_getElem _ _ hi, List.getElem?_eq_getElem hi]
  have hrev : ∀ j, j < 4 * (nr + 1) → (keySchedule key).getD j zeroColumn =
      (extendSchedule nk (4 * (nr + 1) - nk) nk (columnsOf key nk).reverse).getD (4 * nr + 3 - j) zeroColumn := by
    intro j hj
    have hlen := length_keySchedule hnk hkey
    rw [keySchedule_eq_reverse hnk hkey, List.length_reverse] at hlen
    rw [keySchedule_eq_reverse hnk hkey, List.getD_reverse _ (by omega), hlen]
    rfl
  rw [hword, hrev i hlt, hrev (i - nk) (by omega), hrev (i - 1) (by omega), getD_extendSchedule _ _ _ (by omega),
    scheduleWord_drop _ _ _ (by omega), show nk + (4 * (nr + 1) - nk) - (4 * nr + 3 - i + 1) = i by omega,
    show 4 * nr + 3 - (i - nk) = 4 * nr + 3 - i + nk by omega,
    show 4 * nr + 3 - (i - 1) = 4 * nr + 3 - i + 1 by omega]

end Schedule

/-- Each entry of the Rcon table doubles the one before (42_cipher.md R238). -/
theorem rcon_succ {j : Nat} (h1 : 1 ≤ j) (h10 : j < 10) : rcon (j + 1) = xtime (rcon j) := by
  interval_cases j <;> decide

/-- Settles O42: the schedule is built with the last word first, so its recurrence is read from the back; the constants
and the listed words are evaluated. -/
theorem keyScheduleRecurrence : Obligations.KeyScheduleRecurrence := by
  unfold Obligations.KeyScheduleRecurrence
  exact ⟨fun key nk nr hnk hkey => ⟨length_keySchedule hnk hkey, fun i hi => getElem?_keySchedule_of_lt hnk hkey hi,
      fun i hge hlt => getElem?_keySchedule_of_ge hnk hkey hge hlt⟩,
    fun a b c d => ⟨rfl, rfl⟩, ⟨rfl, rfl, rfl, rfl, fun j h1 h10 => rcon_succ h1 h10⟩, by decide +kernel,
    by decide +kernel⟩

/-! ### The ciphers -/

/-- A fold from the right over a list is the first of the states that its steps give. -/
theorem foldr_eq_of_steps {α β : Type} (f : α → β → β) (l : List α) (v : Nat → β)
    (h : ∀ (t : Nat) (ht : t < l.length), v t = f l[t] (v (t + 1))) : l.foldr f (v l.length) = v 0 := by
  induction l generalizing v with
  | nil => rfl
  | cons a l ih =>
    have htail : l.foldr f (v (l.length + 1)) = v 1 :=
      ih (fun t => v (t + 1)) fun t ht => h (t + 1) (by simpa using ht)
    rw [List.foldr_cons, List.length_cons, htail]
    exact (h 0 (by simp)).symm

section Rounds

variable {key : List Byte} {nr : Nat} (hkey : key.length = 16 ∧ nr = 10 ∨ key.length = 32 ∧ nr = 14)
include hkey

theorem expandKey_eq : expandKey key = ⟨roundKeyOf (keySchedule key) 0,
    (List.range' 1 (nr - 1)).map (roundKeyOf (keySchedule key)), roundKeyOf (keySchedule key) nr⟩ := by
  have hround : roundCount key = nr := by rw [roundCount]; omega
  rw [expandKey, hround]

/-- The forward cipher along the states its rounds give (42_cipher.md R239). -/
theorem aesEnc_eq_of_rounds (inp : List Byte) (f : Nat → Block)
    (hinit : f 0 = (Block.ofBytes inp).xor (roundKeyOf (keySchedule key) 0))
    (hround : ∀ r, 1 ≤ r → r ≤ nr - 1 → f r = encRound (f (r - 1)) (roundKeyOf (keySchedule key) r)) :
    aesEnc key inp = ((shiftRows (subBytes (f (nr - 1)))).xor (roundKeyOf (keySchedule key) nr)).bytes := by
  rw [aesEnc, aesEncBlock, expandKey_eq hkey, ← hinit, foldl_eq_of_steps encRound _ f, List.length_map,
    List.length_range']
  intro t ht
  rw [List.length_map, List.length_range'] at ht
  rw [hround (t + 1) (by omega) (by omega), List.getElem_map, List.getElem_range', Nat.add_sub_cancel, Nat.one_mul,
    Nat.add_comm 1 t]

/-- The inverse cipher along the states its rounds give, from round Nr down (42_cipher.md R240). -/
theorem aesDec_eq_of_rounds (inp : List Byte) (g : Nat → Block)
    (hinit : g nr = (Block.ofBytes inp).xor (roundKeyOf (keySchedule key) nr))
    (hround : ∀ r, 1 ≤ r → r ≤ nr - 1 → g r = decRound (roundKeyOf (keySchedule key) r) (g (r + 1))) :
    aesDec key inp = ((invSubBytes (invShiftRows (g 1))).xor (roundKeyOf (keySchedule key) 0)).bytes := by
  have hfold : ((List.range' 1 (nr - 1)).map (roundKeyOf (keySchedule key))).foldr decRound (g nr) = g 1 := by
    have hsteps := foldr_eq_of_steps decRound ((List.range' 1 (nr - 1)).map (roundKeyOf (keySchedule key)))
      (fun t => g (t + 1)) fun t ht => ?step
    case step =>
      rw [List.length_map, List.length_range'] at ht
      rw [hround (t + 1) (by omega) (by omega), List.getElem_map, List.getElem_range', Nat.one_mul, Nat.add_comm 1 t]
    rwa [List.length_map, List.length_range', show nr - 1 + 1 = nr by omega] at hsteps
  rw [aesDec, aesDecBlock, expandKey_eq hkey, ← hinit, hfold]

end Rounds

/-- Settles O43: the middle rounds are a fold over the round keys 1 to Nr - 1. -/
theorem aesForwardCipher : Obligations.AesForwardCipher := by
  unfold Obligations.AesForwardCipher
  exact ⟨fun key inp nr f hkey hinit hround => aesEnc_eq_of_rounds hkey inp f hinit hround, by decide +kernel⟩

theorem aesDec_aesEnc (key : List Byte) {x : List Byte} (h : x.length = 16) : aesDec key (aesEnc key x) = x := by
  rw [aesDec, aesEnc, Block.ofBytes_bytes, aesDecBlock_aesEncBlock, Block.bytes_ofBytes h]

theorem aesEnc_aesDec (key : List Byte) {x : List Byte} (h : x.length = 16) : aesEnc key (aesDec key x) = x := by
  rw [aesEnc, aesDec, Block.ofBytes_bytes, aesEncBlock_aesDecBlock, Block.bytes_ofBytes h]

/-- Settles O44: the middle rounds are a fold from the right over the same round keys, and each cipher undoes the other on
blocks under any round keys. -/
theorem aesInverseCipher : Obligations.AesInverseCipher := by
  unfold Obligations.AesInverseCipher
  exact ⟨fun key inp nr g hkey hinit hround => aesDec_eq_of_rounds hkey inp g hinit hround,
    fun key x hx => ⟨aesDec_aesEnc key hx, aesEnc_aesDec key hx⟩, by decide +kernel⟩

end Sys2Proof.Machine
end

section
/-! PROOFS. CBC and the padding on byte strings (42_cipher.md sections 2 and 3): the two passes block by block, PadOK, and
the lengths. -/

namespace Sys2Proof.Machine

/-! ### Blocks by their index -/

/-- Block i of the bytes of a list of blocks. -/
theorem take_drop_bytesOf (bs : List Block) {i : Nat} (h : i < bs.length) :
    ((bytesOf bs).drop (16 * i)).take 16 = bs[i].bytes := by
  induction bs generalizing i with
  | nil => simp at h
  | cons b bs ih =>
    cases i with
    | zero => exact List.take_left' rfl
    | succ i =>
      have hdrop : (b.bytes ++ bytesOf bs).drop 16 = bytesOf bs := List.drop_left' rfl
      rw [bytesOf_cons, show 16 * (i + 1) = 16 + 16 * i by omega, ← List.drop_drop, hdrop,
        ih (Nat.lt_of_succ_lt_succ h), List.getElem_cons_succ]

theorem getElem_blocksOf (n : Nat) (b : List Byte) {i : Nat} (h : i < (blocksOf n b).length) :
    (blocksOf n b)[i] = Block.ofBytes ((b.drop (16 * i)).take 16) := by
  induction n generalizing b i with
  | zero => simp at h
  | succ n ih =>
    simp only [blocksOf]
    cases i with
    | zero => rfl
    | succ i => rw [List.getElem_cons_succ, ih, List.drop_drop, show 16 + 16 * i = 16 * (i + 1) by omega]

/-- Block i of `iv ++ bytesOf bs`: the block before block i of the ciphertext, with the IV before the first
(42_cipher.md R244). -/
theorem bytes_getElem_cons {iv : List Byte} (hiv : iv.length = 16) (bs : List Block) {i : Nat}
    (h : i < (Block.ofBytes iv :: bs).length) : (Block.ofBytes iv :: bs)[i].bytes =
      if i = 0 then iv else ((bytesOf bs).drop (16 * (i - 1))).take 16 := by
  cases i with
  | zero => exact Block.bytes_ofBytes hiv
  | succ i =>
    rw [List.getElem_cons_succ, if_neg (Nat.succ_ne_zero i), Nat.add_sub_cancel,
      take_drop_bytesOf _ (Nat.lt_of_succ_lt_succ h)]

/-! ### CBC -/

/-- A ciphertext block is the encryption of its block and the ciphertext block before it. -/
theorem getElem_cbcEncryptBlocks (k : RoundKeys) (prev : Block) (xs : List Block) {i : Nat} (h : i < xs.length) :
    (cbcEncryptBlocks k prev xs)[i]'(by rwa [length_cbcEncryptBlocks]) =
      aesEncBlock k (xs[i].xor ((prev :: cbcEncryptBlocks k prev xs)[i]'(by
        rw [List.length_cons, length_cbcEncryptBlocks]; exact Nat.lt_succ_of_lt h))) := by
  induction xs generalizing prev i with
  | nil => simp at h
  | cons x xs ih =>
    simp only [cbcEncryptBlocks]
    cases i with
    | zero => rfl
    | succ i => exact ih _ (Nat.lt_of_succ_lt_succ h)

/-- A decrypted block is the decryption of its block, and the ciphertext block before it. -/
theorem getElem_cbcDecryptBlocks (k : RoundKeys) (prev : Block) (cs : List Block) {i : Nat} (h : i < cs.length) :
    (cbcDecryptBlocks k prev cs)[i]'(by rwa [length_cbcDecryptBlocks]) =
      (aesDecBlock k cs[i]).xor ((prev :: cs)[i]'(Nat.lt_succ_of_lt h)) := by
  induction cs generalizing prev i with
  | nil => simp at h
  | cons c cs ih =>
    simp only [cbcDecryptBlocks]
    cases i with
    | zero => rfl
    | succ i => exact ih _ (Nat.lt_of_succ_lt_succ h)

theorem Block.ofBytes_xorBytes_bytes {x : List Byte} (hx : x.length = 16) (y : Block) :
    Block.ofBytes (xorBytes x y.bytes) = (Block.ofBytes x).xor y := by
  rw [xorBytes, Block.ofBytes_zipWith_xor hx y.length_bytes, Block.ofBytes_bytes]

/-- C_i = AES_Enc(key, X_i ⊕ C_(i-1)) (42_cipher.md R244). -/
theorem block_encrypt (key : List Byte) {iv : List Byte} (hiv : iv.length = 16) (p : List Byte) {i : Nat}
    (h : i ≤ p.length / 16) : ((encrypt key iv p).drop (16 * i)).take 16 =
      aesEnc key (xorBytes (((padded p).drop (16 * i)).take 16)
        (if i = 0 then iv else ((encrypt key iv p).drop (16 * (i - 1))).take 16)) := by
  have hx : (((padded p).drop (16 * i)).take 16).length = 16 := by
    rw [List.length_take, List.length_drop, length_padded]
    omega
  have hblock : i < (blocksOf (p.length / 16 + 1) (padded p)).length := by rw [length_blocksOf]; omega
  rw [encrypt, ← bytes_getElem_cons hiv _ (by simp only [List.length_cons, length_cbcEncryptBlocks]; omega), aesEnc,
    Block.ofBytes_xorBytes_bytes hx, take_drop_bytesOf _ (by rwa [length_cbcEncryptBlocks]),
    getElem_cbcEncryptBlocks _ _ _ hblock, getElem_blocksOf]

/-- X_i = AES_Dec(key, C_i) ⊕ C_(i-1) (42_cipher.md R244). -/
theorem block_decryptPadded (key : List Byte) {iv : List Byte} (hiv : iv.length = 16) {c : List Byte}
    (hc : c.length % 16 = 0) {i : Nat} (h : i < c.length / 16) :
    ((decryptPadded key iv c).drop (16 * i)).take 16 = xorBytes (aesDec key ((c.drop (16 * i)).take 16))
      (if i = 0 then iv else (c.drop (16 * (i - 1))).take 16) := by
  have hblock : i < (blocksOf (c.length / 16) c).length := by rwa [length_blocksOf]
  have hprev := bytes_getElem_cons hiv (blocksOf (c.length / 16) c) (Nat.lt_succ_of_lt hblock)
  rw [bytesOf_blocksOf _ _ (by omega)] at hprev
  rw [decryptPadded, take_drop_bytesOf _ (by rwa [length_cbcDecryptBlocks]), getElem_cbcDecryptBlocks _ _ _ hblock,
    Block.bytes_xor, hprev, getElem_blocksOf]
  rfl

/-- With a zero IV the first block is encrypted as it stands. -/
theorem take_encrypt_zero_iv (key : List Byte) {p : List Byte} (h : 16 ≤ p.length) :
    (encrypt key (List.replicate 16 0) p).take 16 = aesEnc key (p.take 16) := by
  have hlen : (p.take 16).length = 16 := by rw [List.length_take]; omega
  have hzero : xorBytes (p.take 16) (List.replicate 16 0) = p.take 16 := by
    have := xorBytes_replicate (p.take 16) 0
    simpa [hlen] using this
  have hfirst := block_encrypt key (List.length_replicate (n := 16) (a := (0 : Byte))) p (Nat.zero_le _)
  rwa [if_pos rfl, Nat.mul_zero, List.drop_zero, List.drop_zero, padded, List.take_append_of_le_length h,
    hzero] at hfirst

/-- Settles O45, block by block: block i of a pass by its input block and the block before it. -/
theorem cbcLaws : Obligations.CbcLaws := by
  unfold Obligations.CbcLaws
  intro key iv hkey hiv
  refine ⟨fun p i hi => block_encrypt key hiv p hi, fun c i hc hi => block_decryptPadded key hiv hc hi, ?_⟩
  rintro p rfl hp
  exact take_encrypt_zero_iv key hp

/-! ### Padding -/

/-- The last k bytes of a block all have one value. -/
theorem drop_eq_replicate_iff {h : List Byte} (hlen : h.length = 16) {k : Nat} (hk : k ≤ 16) (b : Byte) :
    h.drop (16 - k) = List.replicate k b ↔ ∀ i, 16 - k ≤ i → i < 16 → h.getD i 0 = b := by
  rw [List.ext_getElem_iff]
  constructor
  · rintro ⟨-, hget⟩ i hge hlt
    have := hget (i - (16 - k)) (by rw [List.length_drop]; omega) (by rw [List.length_replicate]; omega)
    rw [List.getElem_drop, List.getElem_replicate] at this
    rw [List.getD_eq_getElem _ _ (by omega), ← this]
    congr 1
    omega
  · intro hget
    refine ⟨by rw [List.length_drop, List.length_replicate]; omega, fun i hi _ => ?_⟩
    rw [List.length_drop] at hi
    rw [List.getElem_drop, List.getElem_replicate, ← hget (16 - k + i) (by omega) (by omega),
      List.getD_eq_getElem _ _ (by omega)]

/-- PadOK by the last byte (42_cipher.md R251). -/
theorem padOK_iff {h : List Byte} (hlen : h.length = 16) :
    padOK h = true ↔ 1 ≤ (h.getD 15 0).toNat ∧ (h.getD 15 0).toNat ≤ 16 ∧
      ∀ i, 16 - (h.getD 15 0).toNat ≤ i → i < 16 → h.getD i 0 = h.getD 15 0 := by
  simp only [padOK, Bool.and_eq_true, decide_eq_true_eq, beq_iff_eq, and_assoc]
  exact and_congr_right fun _ => and_congr_right fun hk => drop_eq_replicate_iff hlen hk _

/-- PadOK as the source states it, "for some K": byte 15 is among the last K, so it is K. -/
theorem padOK_iff_exists {h : List Byte} (hlen : h.length = 16) :
    padOK h = true ↔ ∃ k : Nat, 1 ≤ k ∧ k ≤ 16 ∧ ∀ i, 16 - k ≤ i → i < 16 → (h.getD i 0).toNat = k := by
  rw [padOK_iff hlen]
  constructor
  · rintro ⟨h1, h16, hall⟩
    exact ⟨_, h1, h16, fun i hge hlt => congrArg BitVec.toNat (hall i hge hlt)⟩
  · rintro ⟨k, h1, h16, hall⟩
    have hlast : (h.getD 15 0).toNat = k := hall 15 (by omega) (by omega)
    rw [hlast]
    exact ⟨h1, h16, fun i hge hlt => BitVec.eq_of_toNat_eq ((hall i hge hlt).trans hlast.symm)⟩

/-- A decryption lacks the padding: as many bytes as its last byte says (42_cipher.md R252). -/
theorem length_of_decrypt_eq_some {key iv c x : List Byte} (hc : c.length % 16 = 0) (h16 : 16 ≤ c.length)
    (h : decrypt key iv c = some x) :
    1 ≤ ((decryptPadded key iv c).getD (c.length - 1) 0).toNat ∧
      ((decryptPadded key iv c).getD (c.length - 1) 0).toNat ≤ 16 ∧
      x.length = c.length - ((decryptPadded key iv c).getD (c.length - 1) 0).toNat := by
  have hlen : (decryptPadded key iv c).length = c.length := by rw [length_decryptPadded]; omega
  have hlast : ((decryptPadded key iv c).drop (c.length - 16)).getD 15 0 =
      (decryptPadded key iv c).getD (c.length - 1) 0 := by
    rw [List.getD_eq_getElem?_getD, List.getElem?_drop, List.getD_eq_getElem?_getD,
      show c.length - 16 + 15 = c.length - 1 by omega]
  simp only [decrypt, hlen, hlast] at h
  split at h
  case isTrue hok =>
    obtain ⟨h1, hle⟩ := hlast ▸ padOK_bounds hok
    obtain rfl := Option.some.inj h
    exact ⟨h1, hle, by rw [List.length_take, hlen]; omega⟩
  case isFalse => cases h

/-- Settles O46: the two forms of PadOK, the lengths of the padded and the decrypted string, and the round trip of the
contracts. -/
theorem paddingRules : Obligations.PaddingRules := by
  unfold Obligations.PaddingRules
  refine ⟨fun h hlen => ⟨padOK_iff hlen, padOK_iff_exists hlen⟩,
    fun p => ⟨16 - p.length % 16, rfl, by omega, by omega, rfl, by omega⟩,
    fun key iv p => ⟨length_encrypt key iv p, ?_⟩,
    fun key iv c x hc h16 hx => length_of_decrypt_eq_some hc h16 hx, decrypt_encrypt⟩
  rw [length_encrypt, paddedLength]
  omega

end Sys2Proof.Machine
end

section
/-! PROOFS. DEC on a bad padding (42_cipher.md R272): what a commit completes, and the one write of the pass. -/

namespace Sys2Proof.Machine

/-- A commit completes the command with the code of its result (40_command_model.md R142). -/
theorem completedWith_commit (s : State) (r : Result) : CompletedWith s (s.commit r) r.err where
  busy := rfl
  done := rfl
  ovr := rfl
  err := rfl
  ie := rfl
  cmd := rfl
  sequencer := rfl
  pending := rfl
  hidden := rfl
  platform := rfl
  inputs := rfl
  results := rfl

theorem sameOutside_writeBytes (m : Memory) (a : Nat) {n : Nat} {b : List Byte} (h : b.length = n) :
    SameOutside m (Memory.writeBytes m a b) a n :=
  fun x hx => Memory.read_writeBytes_of_outside m a x b (h ▸ hx)

theorem resultOf_dec_of_bad_padding {ksz : BitVec 2} {s : State} (h : DecRuns ksz s)
    (hbad : decrypt (s.keyOperand ksz) s.operands.ivBytes s.inputBytes = none) :
    resultOf (.dec ksz) s = s.raiseAbort (.padding (Memory.writeBytes s.mem s.operands.dstAddr.toNat
      ((decryptPadded (s.keyOperand ksz) s.operands.ivBytes s.inputBytes).take (s.operands.srcLen.toNat - 16))))
      (regionsOf (.dec ksz) s.operands).out s.drawCount := by
  rw [resultOf, decResult_eq h.check h.inRead h.outWrite, hbad]

/-- Settles O26: DEC commits the raise of its padding error, whose memory has the blocks before the last. -/
theorem decBadPadding : Obligations.DecBadPadding := by
  unfold Obligations.DecBadPadding
  intro ksz s hruns hbad
  have hlen : ((decryptPadded (s.keyOperand ksz) s.operands.ivBytes s.inputBytes).take
      (s.operands.srcLen.toNat - 16)).length = s.operands.srcLen.toNat - 16 := by
    rw [List.length_take, length_decryptPadded, State.inputBytes, Memory.length_readBytes]
    omega
  have hexec := exec_eq_commit (.dec ksz) s
  rw [resultOf_dec_of_bad_padding hruns hbad] at hexec
  refine ⟨_, hexec, completedWith_commit s _, rfl, rfl, outLenWord_zero s.drawCount,
    Memory.readBytes_writeBytes_of_length _ _ _ _ hlen, sameOutside_writeBytes _ _ hlen,
    outLenDraws_zero s.drawCount⟩

end Sys2Proof.Machine
end

section
/-! PROOFS. The container commands (43_container.md): the checks that only SEAL, OPEN and DEC make, what SEAL and OPEN
leave unchanged, and the round trip of a container. -/

namespace Sys2Proof.Machine

/-! ### The password and the length (R291, R301, 42_cipher.md R271) -/

/-- The codes of the checks made before any memory access: no access and no padding gives one of them. -/
theorem resultOf_err_eq_iff_checkOf {i : Instr} {s : State} {e : ErrorCode} (hok : e ≠ .ok) (hbus : e ≠ .busError)
    (hpad : e ≠ .integrityOrPassword) : (resultOf i s).err = e ↔ checkOf i s.operands = some e := by
  constructor
  · rintro rfl
    exact checkOf_of_err hok hbus hpad
  · intro h
    rw [resultOf_of_check h, State.raiseCheck_err]

theorem exec_err_eq_iff_checkOf (i : Instr) (s : State) {e : ErrorCode} (hok : e ≠ .ok) (hbus : e ≠ .busError)
    (hpad : e ≠ .integrityOrPassword) :
    ∃ t, exec i s = .next t ∧ (t.status.err = e ↔ checkOf i s.operands = some e) ∧
      (t.status.err = e → NoMemoryAccess (exec i) s t) := by
  refine ⟨_, exec_eq_commit i s, resultOf_err_eq_iff_checkOf hok hbus hpad, fun herr => ?_⟩
  obtain rfl : (resultOf i s).err = e := herr
  exact exec_noMemoryAccess hok hbus hpad

theorem sealCheck_eq_emptyPassword_iff {ksz : BitVec 2} {gen : Bool} {o : OperandRegs} (hksz : kszLegal ksz = true)
    (hiter : o.iter ≠ 0#32) : sealCheck ksz gen o = some .emptyPassword ↔ o.pwLen = 0#32 := by
  simp [sealCheck, firstError, hksz, hiter]

theorem openCheck_eq_emptyPassword_iff {ksz : BitVec 2} {o : OperandRegs} (hksz : kszLegal ksz = true)
    (hiter : o.iter ≠ 0#32) : openCheck ksz o = some .emptyPassword ↔ o.pwLen = 0#32 := by
  constructor
  · intro h
    simpa using firstError_mem h
  · intro h
    simp [openCheck, firstError, hksz, hiter, h]

theorem openCheck_eq_malformedContainer_iff {ksz : BitVec 2} {o : OperandRegs} (hksz : kszLegal ksz = true)
    (hiter : o.iter ≠ 0#32) (hpw : o.pwLen ≠ 0#32) :
    openCheck ksz o = some .malformedContainer ↔ containerLengthBad o.srcLen.toNat = true := by
  simp [openCheck, firstError, hksz, hiter, hpw]

theorem decCheck_eq_malformedContainer_iff {ksz : BitVec 2} {o : OperandRegs} (hksz : kszLegal ksz = true) :
    decCheck ksz o = some .malformedContainer ↔ cipherLengthBad o.srcLen.toNat = true := by
  simp [decCheck, firstError, hksz]

/-- Settles O36: the code is that of the first check that fails, and the checks before these have passed. -/
theorem passwordAndLengthChecks : Obligations.PasswordAndLengthChecks := by
  unfold Obligations.PasswordAndLengthChecks
  refine ⟨fun ksz gen i s hi hksz hiter => ?_, fun ksz s hksz hiter hpw => ?_, fun ksz s hksz => ?_⟩ <;>
    rw [← kszLegal_iff] at hksz
  · obtain ⟨t, hexec, herr, -⟩ := exec_err_eq_iff_checkOf i s (e := .emptyPassword) nofun nofun nofun
    refine ⟨t, hexec, herr.trans ?_⟩
    rcases hi with rfl | rfl
    · exact sealCheck_eq_emptyPassword_iff hksz hiter
    · exact openCheck_eq_emptyPassword_iff hksz hiter
  · obtain ⟨t, hexec, herr, hmem⟩ := exec_err_eq_iff_checkOf (.openC ksz) s (e := .malformedContainer) nofun nofun nofun
    refine ⟨t, hexec, (herr.trans (openCheck_eq_malformedContainer_iff hksz hiter hpw)).trans ?_, hmem⟩
    simp [containerLengthBad, or_assoc]
  · obtain ⟨t, hexec, herr, hmem⟩ := exec_err_eq_iff_checkOf (.dec ksz) s (e := .malformedContainer) nofun nofun nofun
    refine ⟨t, hexec, (herr.trans (decCheck_eq_malformedContainer_iff hksz)).trans ?_, hmem⟩
    exact cipherLengthBad_iff ksz _

/-! ### What SEAL and OPEN leave unchanged (R293) -/

/-- No command changes memory outside its Out (20_memory.md R91). -/
theorem sameOutside_resultOf (i : Instr) (s : State) :
    SameOutside s.mem (resultOf i s).mem (regionsOf i s.operands).out.base (regionsOf i s.operands).out.size := by
  intro a ha
  refine (resultOf_within i s).outside a ?_
  rw [← Bool.not_eq_true, regionHas_iff]
  omega

/-- SEAL and OPEN write no operand register, whatever they end with. -/
theorem resultOf_regs_of_container {ksz : BitVec 2} {gen : Bool} {i : Instr} (h : i = .sealC ksz gen ∨ i = .openC ksz)
    (s : State) : (resultOf i s).regs = s.regs := by
  rcases h with rfl | rfl
  · exact sealResult_regs ksz gen s
  · exact openResult_regs ksz s

/-- Settles O31: the commit zeroes the hidden state, and the result leaves the registers and memory outside Out. -/
theorem sealAndOpenKeepKeysHidden : Obligations.SealAndOpenKeepKeysHidden := by
  unfold Obligations.SealAndOpenKeepKeysHidden
  intro ksz gen i s hi
  have hregs : (s.commit (resultOf i s)).regs = s.regs := resultOf_regs_of_container hi s
  exact ⟨_, exec_eq_commit i s, rfl, congrArg (·.key) hregs, congrArg (·.salt) hregs, congrArg (·.iv) hregs, hregs,
    sameOutside_resultOf i s⟩

/-! ### The round trip (R305) -/

/-- A SEAL that ends with ERR = 0 passed its checks and had every access admitted. -/
theorem check_and_admitted_of_sealResult_ok {ksz : BitVec 2} {gen : Bool} {s : State}
    (h : (sealResult ksz gen s).err = .ok) :
    sealCheck ksz gen s.operands = none ∧ refusedAddress (.sealC ksz gen) s = none := by
  have hcheck : sealCheck ksz gen s.operands = none := by
    rw [Option.eq_none_iff_forall_ne_some]
    intro e he
    have hres : (resultOf (.sealC ksz gen) s).err = e := by
      rw [resultOf_of_check (i := .sealC ksz gen) he, State.raiseCheck_err]
    obtain rfl : ErrorCode.ok = e := h.symm.trans hres
    simpa using firstError_mem he
  refine ⟨hcheck, ?_⟩
  rw [Option.eq_none_iff_forall_ne_some]
  intro a ha
  rw [sealResult_of_refused hcheck ha] at h
  cases h

/-- The container that a SEAL from this state writes (R290, R295). -/
def State.sealedContainer (s : State) (ksz : BitVec 2) (gen : Bool) : List Byte :=
  let header := sealHeader gen s.operands s.drawCount
  container header.1 header.2
    (encrypt (derive s.passwordBytes header.1 s.operands.iter.toNat (klen ksz)) header.2 s.inputBytes)

@[simp] theorem State.length_inputBytes (s : State) : s.inputBytes.length = s.operands.srcLen.toNat :=
  Memory.length_readBytes _ _ _

theorem State.length_sealedContainer (s : State) (ksz : BitVec 2) (gen : Bool) :
    (s.sealedContainer ksz gen).length = 32 + paddedLength s.operands.srcLen.toNat := by
  obtain ⟨hsalt, hiv⟩ := length_sealHeader gen s.operands s.drawCount
  simp only [State.sealedContainer, container, List.length_append, length_encrypt, State.length_inputBytes, hsalt, hiv]

theorem sealResult_of_ok {ksz : BitVec 2} {gen : Bool} {s : State} (h : (sealResult ksz gen s).err = .ok) :
    sealResult ksz gen s =
      s.success (Memory.writeBytes s.mem s.operands.dstAddr.toNat (s.sealedContainer ksz gen))
        (32 + paddedLength s.operands.srcLen.toNat) (sealDraws gen s.drawCount) := by
  obtain ⟨hcheck, hrefused⟩ := check_and_admitted_of_sealResult_ok h
  obtain ⟨hpw, hin, hout⟩ := seal_admitted hrefused
  exact sealResult_eq hcheck hpw hin hout

/-- OPEN splits the container it reads where SEAL put it together (R295, R300). -/
theorem open_parts_of_container {u : State} {salt iv c : List Byte} (h : u.inputBytes = container salt iv c)
    (hsalt : salt.length = 16) (hiv : iv.length = 16) :
    u.inputBytes.take 16 = salt ∧ u.openIv = iv ∧ u.openCiphertext = c := by
  rw [container, List.append_assoc] at h
  have hdrop : u.inputBytes.drop 16 = iv ++ c := by rw [h, List.drop_left' hsalt]
  refine ⟨by rw [h, List.take_left' hsalt], by rw [State.openIv, hdrop, List.take_left' hiv], ?_⟩
  rw [State.openCiphertext, show (32 : Nat) = 16 + 16 from rfl, ← List.drop_drop, hdrop, List.drop_left' hiv]

/-- With the same password and ITER, OPEN derives the key of the SEAL and decrypts its ciphertext. -/
theorem decrypt_sealedContainer {ksz : BitVec 2} {gen : Bool} {s u : State}
    (hin : u.inputBytes = s.sealedContainer ksz gen) (hpw : u.passwordBytes = s.passwordBytes)
    (hiter : u.operands.iter = s.operands.iter) :
    decrypt (u.openKey ksz) u.openIv u.openCiphertext = some s.inputBytes := by
  obtain ⟨hsalt, hiv⟩ := length_sealHeader gen s.operands s.drawCount
  obtain ⟨esalt, eiv, ecipher⟩ := open_parts_of_container hin hsalt hiv
  rw [State.openKey, esalt, eiv, ecipher, hpw, hiter]
  exact decrypt_encrypt _ _ _

/-- An OPEN whose container decrypts commits the plaintext, written at DST_ADDR (R300). -/
theorem openResult_of_decrypt {ksz : BitVec 2} {u : State} {x : List Byte} (h : OpenRuns ksz u)
    (hx : decrypt (u.openKey ksz) u.openIv u.openCiphertext = some x) :
    openResult ksz u = u.success (Memory.writeBytes u.mem u.operands.dstAddr.toNat x) x.length u.drawCount := by
  rw [openResult_eq h.check h.pwRead h.inRead h.outWrite, hx]

/-- OUT_LEN holds every length that a 32-bit register can hold (10_state.md R37). -/
theorem outLenWord_toNat (w : Word) (c : Nat) : outLenWord w.toNat c = w := by
  rw [outLenWord_of_lt w.isLt, BitVec.ofNat_toNat, BitVec.setWidth_eq]

/-- Settles O58: the SEAL wrote its container, the OPEN reads it, and the contracts' round trip gives the plaintext. -/
theorem sealOpenRoundTrip : Obligations.SealOpenRoundTrip := by
  unfold Obligations.SealOpenRoundTrip
  intro ksz gen s t u hseal hok hlen hin hpw hiter hruns
  obtain rfl : s.commit (sealResult ksz gen s) = t := Host.Outcome.next.inj hseal
  have hres := sealResult_of_ok hok
  have hmem : u.inputBytes = s.sealedContainer ksz gen := by
    rw [hin, State.commit_mem, hres, hlen]
    exact Memory.readBytes_writeBytes_of_length _ _ _ _ (s.length_sealedContainer ksz gen)
  have hopen := openResult_of_decrypt hruns (decrypt_sealedContainer hmem hpw hiter)
  refine ⟨?_, _, exec_eq_commit (.openC ksz) u, ?_⟩
  · rw [State.commit_outLen, hres, State.success_outLen, paddedLength, ← hlen, outLenWord_toNat]
  · rw [resultOf, hopen]
    refine ⟨completedWith_commit u _, ?_, Memory.readBytes_writeBytes_of_length _ _ _ _ s.length_inputBytes⟩
    rw [State.commit_outLen, State.success_outLen, State.length_inputBytes, outLenWord_toNat]

end Sys2Proof.Machine
end

section
/-! PROOFS. The error codes (60_exceptions.md R345, R346): a command reports the first error that applies, and an
Illegal word completes with ILLEGAL_COMMAND. -/

namespace Sys2Proof.Machine

/-! ### An Illegal word (R346) -/

/-- The completion of an Illegal word looks at neither memory nor admission. -/
theorem engineTurn_noMemoryAccess_of_illegal {s : State} {w : Word} {e : DecodeError} (hs : s.sequencer = .running w)
    (hd : decode w = .error e) : NoMemoryAccess engineTurn s (completeIllegal s) :=
  noMemoryAccess_of_raiseCheck fun m p => engineTurn_of_illegal (s := { s with mem := m, platform := p }) hs hd

/-- Settles O5: the engine commits the raise of ILLEGAL_COMMAND, a check made before any memory access. -/
theorem illegalCommandCompletes : Obligations.IllegalCommandCompletes := by
  unfold Obligations.IllegalCommandCompletes
  intro s w hs hcmd hd
  have hcompleted : CompletedWith s (completeIllegal s) .illegalCommand := completedWith_commit s _
  refine ⟨_, engineTurn_of_illegal hs hd, hcompleted, by rw [hcompleted.err]; rfl, ?_, ?_, hcompleted.cmd.trans hcmd,
    ?_, ?_, engineTurn_noMemoryAccess_of_illegal hs hd⟩ <;> simp [completeIllegal]

/-! ### The checks, in the order of R345 -/

theorem checkOf_of_preconditionError {i : Instr} {o : OperandRegs} (h : preconditionError i o) :
    checkOf i o = some .preconditionViolation := by
  rcases h with ⟨ksz, hk, hres⟩ | ⟨huses, hiter⟩
  · rw [← kszIllegal_iff] at hres
    refine checkOf_of_not_wellFormed ?_ o
    cases i <;> cases hk <;> exact hres
  · cases i with
    | nop => cases huses
    | kdf ksz => simp [checkOf, kdfCheck, firstError, hiter]
    | enc ksz => cases huses
    | dec ksz => cases huses
    | sealC ksz gen => simp [checkOf, sealCheck, firstError, hiter]
    | openC ksz => simp [checkOf, openCheck, firstError, hiter]
    | zeroize => cases huses

theorem checkOf_of_passwordError {i : Instr} {o : OperandRegs} (hpre : ¬ preconditionError i o)
    (h : passwordError i o) : checkOf i o = some .emptyPassword := by
  obtain ⟨hneeds, hpw⟩ := h
  have hksz {ksz : BitVec 2} (hk : kszOf i = some ksz) := kszLegal_of_not_preconditionError hpre hk
  have hiter (hi : usesIter i = true) := iter_ne_zero_of_not_preconditionError hpre hi
  cases i with
  | nop => cases hneeds
  | kdf ksz => cases hneeds
  | enc ksz => cases hneeds
  | dec ksz => cases hneeds
  | sealC ksz gen => exact (sealCheck_eq_emptyPassword_iff (hksz rfl) (hiter rfl)).mpr hpw
  | openC ksz => exact (openCheck_eq_emptyPassword_iff (hksz rfl) (hiter rfl)).mpr hpw
  | zeroize => cases hneeds

theorem checkOf_of_malformedLength {i : Instr} {o : OperandRegs} (hpre : ¬ preconditionError i o)
    (hpw : ¬ passwordError i o) (h : malformedLength i o.srcLen.toNat) : checkOf i o = some .malformedContainer := by
  have hksz {ksz : BitVec 2} (hk : kszOf i = some ksz) := kszLegal_of_not_preconditionError hpre hk
  cases i with
  | nop => cases h
  | kdf ksz => cases h
  | enc ksz => cases h
  | dec ksz => exact (decCheck_eq_malformedContainer_iff (hksz rfl)).mpr ((cipherLengthBad_iff ksz _).mpr h)
  | sealC ksz gen => cases h
  | openC ksz =>
    have hiter := iter_ne_zero_of_not_preconditionError hpre rfl
    have hpwLen : o.pwLen ≠ 0#32 := fun h0 => hpw ⟨rfl, h0⟩
    exact (openCheck_eq_malformedContainer_iff (hksz rfl) hiter hpwLen).mpr ((containerLengthBad_iff ksz _).mpr h)
  | zeroize => cases h

theorem checkOf_of_regionError {i : Instr} {o : OperandRegs} (hpass : passesRegisterChecks i o)
    (h : regionError i o) : checkOf i o = some .regionError := by
  rw [checkOf_of_passesRegisterChecks hpass, if_pos ((regionBad_iff i o).mpr h)]

theorem checkOf_eq_none {i : Instr} {o : OperandRegs} (hpass : passesRegisterChecks i o) (h : ¬ regionError i o) :
    checkOf i o = none := by
  rw [checkOf_of_passesRegisterChecks hpass, if_neg ((regionBad_iff i o).not.mpr h)]

/-! ### The accesses and the padding -/

/-- Once every check has passed, a refused access ends a command with BUS_ERROR (20_memory.md R96). -/
theorem resultOf_err_of_refused {i : Instr} {s : State} {a : Nat} (hc : checkOf i s.operands = none)
    (h : refusedAddress i s = some a) : (resultOf i s).err = .busError := by
  cases i with
  | nop => cases h
  | kdf ksz => rw [resultOf, kdfResult_of_refused hc h, State.raiseAbort_bus_err]
  | enc ksz => rw [resultOf, encResult_of_refused hc h, State.raiseAbort_bus_err]
  | dec ksz => rw [resultOf, decResult_of_refused hc h, State.raiseAbort_bus_err]
  | sealC ksz gen => rw [resultOf, sealResult_of_refused hc h, State.raiseAbort_bus_err]
  | openC ksz => rw [resultOf, openResult_of_refused hc h, State.raiseAbort_bus_err]
  | zeroize => cases h

/-- Once every check has passed and every access is admitted, only DEC and OPEN can still fail, by a bad padding. -/
theorem resultOf_err_of_admitted {i : Instr} {s : State} (hc : checkOf i s.operands = none)
    (h : refusedAddress i s = none) :
    (badPadding i s ∧ (resultOf i s).err = .integrityOrPassword) ∨
      (¬ badPadding i s ∧ (resultOf i s).err = .ok) := by
  cases i with
  | nop => exact .inr ⟨id, rfl⟩
  | kdf ksz => exact .inr ⟨id, by rw [resultOf, kdfResult_eq hc (kdf_admitted h), State.success_err]⟩
  | enc ksz =>
    obtain ⟨hin, hout⟩ := enc_admitted h
    exact .inr ⟨id, by rw [resultOf, encResult_eq hc hin hout, State.success_err]⟩
  | dec ksz =>
    obtain ⟨hin, hout⟩ := dec_admitted hc h
    rw [badPadding, heldBlock, ← decrypt_eq_none_iff, resultOf, decResult_eq hc hin hout]
    cases decrypt (s.keyOperand ksz) s.operands.ivBytes s.inputBytes <;> simp
  | sealC ksz gen =>
    obtain ⟨hpw, hin, hout⟩ := seal_admitted h
    exact .inr ⟨id, by rw [resultOf, sealResult_eq hc hpw hin hout, State.success_err]⟩
  | openC ksz =>
    obtain ⟨hpw, hin, hout⟩ := open_admitted hc h
    rw [badPadding, heldBlock, ← decrypt_eq_none_iff, resultOf, openResult_eq hc hpw hin hout]
    cases decrypt (s.openKey ksz) s.openIv s.openCiphertext <;> simp
  | zeroize => exact .inr ⟨id, rfl⟩

/-! ### The first error (R345) -/

/-- A command reports the first error that applies: the conditions of R345 are gone through in their order. -/
theorem firstError_resultOf (i : Instr) (s : State) : FirstError i s (resultOf i s).err := by
  by_cases hpre : preconditionError i s.operands
  · rw [resultOf_of_check (checkOf_of_preconditionError hpre)]
    exact hpre
  by_cases hpw : passwordError i s.operands
  · rw [resultOf_of_check (checkOf_of_passwordError hpre hpw)]
    exact ⟨hpre, hpw⟩
  by_cases hlen : malformedLength i s.operands.srcLen.toNat
  · rw [resultOf_of_check (checkOf_of_malformedLength hpre hpw hlen)]
    exact ⟨hpre, hpw, hlen⟩
  have hpass : passesRegisterChecks i s.operands := ⟨hpre, hpw, hlen⟩
  by_cases hregion : regionError i s.operands
  · rw [resultOf_of_check (checkOf_of_regionError hpass hregion)]
    exact ⟨hpass, hregion⟩
  have hcheck := checkOf_eq_none hpass hregion
  cases hrefused : refusedAddress i s with
  | some a =>
    rw [resultOf_err_of_refused hcheck hrefused]
    exact ⟨hpass, hregion, by simp [hrefused]⟩
  | none =>
    rcases resultOf_err_of_admitted hcheck hrefused with ⟨hpad, herr⟩ | ⟨hpad, herr⟩ <;> rw [herr]
    · exact ⟨hpass, hregion, hrefused, hpad⟩
    · exact ⟨hpass, hregion, hrefused, hpad⟩

/-- At most one error is the first: the condition of each code denies those of the codes before it in R345. -/
theorem FirstError.unique {i : Instr} {s : State} {e e' : ErrorCode} (h : FirstError i s e) (h' : FirstError i s e') :
    e = e' := by
  cases e <;> cases e' <;> simp_all [FirstError, passesRegisterChecks]

theorem resultOf_err_eq_iff_firstError {i : Instr} {s : State} {e : ErrorCode} :
    (resultOf i s).err = e ↔ FirstError i s e :=
  ⟨fun h => h ▸ firstError_resultOf i s, (firstError_resultOf i s).unique⟩

/-- Settles O32: a result carries the first error that applies, and the codes of the checks are raised before every
access. -/
theorem firstErrorIsReported : Obligations.FirstErrorIsReported := by
  unfold Obligations.FirstErrorIsReported
  refine ⟨fun s w hs hd => ⟨_, engineTurn_of_illegal hs hd, rfl, engineTurn_noMemoryAccess_of_illegal hs hd⟩,
    fun i s => ⟨_, exec_eq_commit i s, fun e => resultOf_err_eq_iff_firstError, fun hcode => ?_⟩⟩
  simp only [State.commit_status, Status.complete_err] at hcode
  rcases hcode with h | h | h | h <;> exact exec_noMemoryAccess (by simp [h]) (by simp [h]) (by simp [h])

end Sys2Proof.Machine
end

section
/-! PROOFS. The encoding as statements about all words: decoding and encoding are inverse to each other, the words that
are Illegal (30_encoding.md R126), and sample words. -/

namespace Sys2Proof

/-- Settles O2: the four fields are the whole of a word, and each branch of `decode` keeps those its command uses. -/
theorem decodeEncodeAgree : Obligations.DecodeEncodeAgree := by
  unfold Obligations.DecodeEncodeAgree
  exact ⟨decode_encode, fun _ _ => eq_encode_of_decode⟩

/-- OP is one of the seven operation codes or reserved (30_encoding.md R121). -/
theorem opField_cases (w : Word) :
    opField w = opNop ∨ opField w = opKdf ∨ opField w = opEnc ∨ opField w = opDec ∨ opField w = opSeal ∨
      opField w = opOpen ∨ opField w = opZeroize ∨ 7 ≤ (opField w).toNat := by
  generalize opField w = op
  revert op
  decide

/-- A word with RSV = 0 and a reserved OP is Illegal. -/
theorem decode_of_reserved_op {w : Word} (hrsv : rsvField w = 0) (hop : 7 ≤ (opField w).toNat) :
    decode w = .error .illegalCommand := by
  have hne {op : BitVec 8} (hlt : op.toNat < 7) : opField w ≠ op := by
    rintro rfl
    omega
  rw [decode, if_neg (not_not.mpr hrsv), if_neg (hne (by decide)), if_neg (hne (by decide)), if_neg (hne (by decide)),
    if_neg (hne (by decide)), if_neg (hne (by decide)), if_neg (hne (by decide)), if_neg (hne (by decide))]

/-- The list of 30_encoding.md R126, by the operation code. -/
theorem decode_eq_error_iff_fields (w : Word) :
    decode w = .error .illegalCommand ↔
      rsvField w ≠ 0 ∨ 7 ≤ (opField w).toNat ∨
        ((opField w = 0x00 ∨ opField w = 0x06) ∧ (kszField w ≠ 0 ∨ genField w = true)) ∨
        ((opField w = 0x01 ∨ opField w = 0x02 ∨ opField w = 0x03 ∨ opField w = 0x05) ∧ genField w = true) := by
  by_cases hrsv : rsvField w = 0
  case neg => exact iff_of_true (by rw [decode, if_pos hrsv]) (.inl hrsv)
  rcases opField_cases w with h | h | h | h | h | h | h | h
  case inr.inr.inr.inr.inr.inr.inr => simp [decode_of_reserved_op hrsv h, h]
  all_goals simp [decode, hrsv, h, opNop, opKdf, opEnc, opDec, opSeal, opOpen, opZeroize, or_iff_not_imp_left]

end Sys2Proof

namespace Sys2Proof.Machine

/-- Settles O4: the Illegal words by their fields; an idle engine accepts a word without decoding it. -/
theorem illegalEncodings : Obligations.IllegalEncodings := by
  unfold Obligations.IllegalEncodings
  exact ⟨decode_eq_error_iff_fields, fun s rest w hin hidle => ⟨_, step_busWrite_cmd_of_idle hidle hin, rfl, rfl⟩⟩

/-- Settles O1: each word is decoded. -/
theorem sampleWordsDecode : Obligations.SampleWordsDecode := by
  unfold Obligations.SampleWordsDecode
  decide

end Sys2Proof.Machine
end

section
/-! PROOFS. The invariant of the machine: it holds after reset, and every action of a step keeps it. -/

namespace Sys2Proof.Machine

/-- The reset state is idle, with no error, no output and empty memory. -/
theorem inv_reset : Inv State.reset where
  memCanonical := Memory.wf_nil
  busyIffRunning := by simp [State.reset]
  pendingIsSnapshot := rfl
  cmdIsRunning _ := nofun
  notBusyAndDone := nofun
  busyHasNoError := nofun
  errorHasNoOutput _ := rfl
  errAddrOnlyOnBusError _ _ := rfl
  hiddenZero _ := rfl

/-- Settles O56: the reset state meets each relation. -/
theorem invAtReset : Obligations.InvAtReset := by
  unfold Obligations.InvAtReset
  exact inv_reset

/-- Each thing a step can do keeps the invariant. -/
theorem Inv.of_stepBy {s t : State} (h : Inv s) (hstep : StepBy s t) : Inv t := by
  cases hstep with
  | completed l i w hs hd => exact (h.of_inputs l).of_commit (resultOf_within i _)
  | illegal l w e hs hd => exact (h.of_inputs l).of_commit (.of_raiseCheck _ emptyRegion .illegalCommand)
  | kept l rs => exact (h.of_inputs l).of_results rs
  | reset l hin => exact (h.of_inputs l).of_reset
  | stored l a b hin hb hrace => exact (h.of_inputs l).of_store a b hb
  | wrote l r d hin => exact (h.of_inputs l).of_windowWrite (windowWrite_writeReg _ r d)

/-- Settles O57: the invariant is kept by each thing a step can do. -/
theorem invKept : Obligations.InvKept := by
  unfold Obligations.InvKept
  exact fun s t h hstep => h.of_stepBy (step_cases hstep)

end Sys2Proof.Machine
end

section
/-! PROOFS. The register window as the host reads it: the offsets, what a read returns, and which accesses are answered
(10_state.md R30, 20_memory.md R84, 40_command_model.md R150). -/

namespace Sys2Proof.Machine

theorem regAt_eq_some_iff {off : Nat} {r : Reg} : regAt off = some r ↔ regOffset r = off :=
  ⟨regOffset_of_regAt, fun h => h ▸ regAt_regOffset r⟩

/-- Settles O8: the offsets, each found at its own register only, and the reserved ones counted. -/
theorem registerOffsets : Obligations.RegisterOffsets := by
  unfold Obligations.RegisterOffsets
  exact ⟨by decide, fun _ => rfl, fun _ => rfl, fun _ => rfl, fun _ _ => regAt_eq_some_iff, by decide⟩

theorem toNat_ctrlWord (ie : Bool) : (ctrlWord ie).toNat = ie.toNat := by
  revert ie
  decide

/-- STATUS as a number: each flag at its bit, ERR from bit 8 on (10_state.md R33). -/
theorem toNat_statusWord (st : Status) :
    st.word.toNat = st.busy.toNat + 2 * st.done.toNat + 4 * st.ovr.toNat + 256 * st.err.code.toNat := by
  obtain ⟨busy, done, ovr, err⟩ := st
  cases err <;> revert busy done ovr <;> decide

theorem toNat_readReg (s : State) (r : Reg) : (s.readReg r).toNat = s.registerValue r := by
  cases r with
  | ctrl => exact toNat_ctrlWord s.ie
  | status => exact toNat_statusWord s.status
  | _ => rfl

/-- A host read of an offset without a register gives 0. -/
theorem step_busRead_reserved {s : State} {rest : List Event} {off : Nat} (hle : off ≤ 0xFC) (halign : off % 4 = 0)
    (hnone : ∀ r, regOffset r ≠ off) (h : s.inputs = .busRead (windowBase s.platform + off) 4 :: rest) :
    step s = .next { s with inputs := rest, results := .word 0 :: s.results } := by
  have hoff : windowOffset s.platform (windowBase s.platform + off) 4 = some off :=
    windowOffset_eq_some_iff.mpr ⟨rfl, rfl, hle, halign⟩
  unfold step
  rw [h]
  simp only [takeEvent, hostRead, hoff, State.windowRead, regAt_eq_none hnone]

/-- Settles O9: the word read is the register's value, and no field but the lists of host traffic changes. -/
theorem hostReadReturnsRegister : Obligations.HostReadReturnsRegister := by
  unfold Obligations.HostReadReturnsRegister
  exact ⟨fun s rest r hin => ⟨s.readReg r, toNat_readReg s r, step_busRead_reg hin⟩,
    fun s rest off halign hle hnone hin => step_busRead_reserved hle halign hnone hin⟩

/-- A host bus access is answered when it reaches an offset of the window, and is a host fault when it does not. -/
theorem step_busAccess {s : State} {rest : List Event} {addr size : Nat} {d : Word}
    (h : s.inputs = .busRead addr size :: rest ∨ s.inputs = .busWrite addr size d :: rest) :
    (∀ off, windowOffset s.platform addr size = some off → ∃ t, step s = .next t) ∧
      (windowOffset s.platform addr size = none → step s = .fault .mmioBadAccess) := by
  rcases h with h | h
  all_goals
    unfold step
    rw [h]
  · simp only [takeEvent, hostRead]
    exact ⟨fun off ho => ⟨_, by rw [ho]⟩, fun ho => by rw [ho]⟩
  · simp only [takeEvent, hostWrite]
    exact ⟨fun off ho => ⟨_, by rw [ho]⟩, fun ho => by rw [ho]⟩

/-- Settles O10: the accesses that are answered are those that reach an offset of the window. -/
theorem mmioBadAccessExactly : Obligations.MmioBadAccessExactly := by
  unfold Obligations.MmioBadAccessExactly
  intro s rest addr size d hin
  obtain ⟨hanswered, hfault⟩ := step_busAccess hin
  refine ⟨fun ⟨hsize, off, haddr, halign, hle⟩ => ?_, fun hbad => hfault ?_⟩
  · exact hanswered off (windowOffset_eq_some_iff.mpr ⟨hsize, haddr, hle, halign⟩)
  · rw [Option.eq_none_iff_forall_ne_some]
    intro off ho
    obtain ⟨hsize, haddr, hle, halign⟩ := windowOffset_eq_some_iff.mp ho
    exact hbad ⟨hsize, off, haddr, halign, hle⟩

end Sys2Proof.Machine
end

section
/-! PROOFS. The step: it runs the decoded command, and what can change the interrupt output, memory, the keys, OVR and
the registers of a running command. Each is read off the cases of one step. -/

namespace Sys2Proof.Machine

/-! ### The engine's turn -/

/-- Settles O53: a listed turn, an empty list and a WAIT with DONE = 0 are all the engine's turn. -/
theorem stepRunsDecodedCommand : Obligations.StepRunsDecodedCommand := by
  unfold Obligations.StepRunsDecodedCommand
  refine ⟨fun s w i hs hd => ⟨fun hin => ?_, fun rest hin => ?_, fun rest hin hdone => ?_⟩,
    fun s hs => ⟨fun hin => ?_, fun rest hin => ?_, fun rest hin hdone => ?_⟩, fun s rest hin hdone => ?_,
    fun s nbits w i hd => ?_⟩
  · rw [step_of_nil hin, engineTurn_of_decode hs hd]
  · rw [step_engine hin, engineTurn_of_decode (s := { s with inputs := rest }) hs hd]
  · rw [step_wait hin, if_neg (by simp [hdone]), engineTurn_of_decode hs hd]
  · rw [step_of_nil hin, engineTurn_of_idle hs]
  · rw [step_engine hin, engineTurn_of_idle (s := { s with inputs := rest }) hs]
  · rw [step_wait hin, if_neg (by simp [hdone]), engineTurn_of_idle hs]
  · rw [step_wait hin, if_pos hdone]
  · rw [step_engine (s := s.withFetchWord nbits w) rfl]
    exact engineTurn_of_decode (s := s.accept (BitVec.ofNat 32 (w % 2 ^ nbits))) rfl hd

/-- The engine's turn completes a running word, whether it decodes or not. -/
theorem engineTurn_of_running {s : State} {w : Word} (hs : s.sequencer = .running w) :
    ∃ r, engineTurn s = .next (s.commit r) := by
  cases hd : decode w with
  | ok i => exact ⟨_, (engineTurn_of_decode hs hd).trans (exec_eq_commit i s)⟩
  | error e => exact ⟨_, engineTurn_of_illegal hs hd⟩

/-- Settles O54: the WAIT stays listed while the running word completes, and the completion sets DONE. -/
theorem waitEnds : Obligations.WaitEnds := by
  unfold Obligations.WaitEnds
  intro s rest w hin hs hdone
  obtain ⟨r, hr⟩ := engineTurn_of_running hs
  refine ⟨s.commit r, ?_, rfl, rfl, hin, ?_⟩
  · rw [step_wait hin, if_neg (by simp [hdone]), hr]
  · rw [step_wait (s := s.commit r) hin]
    exact if_pos rfl

/-! ### A host write, by its register -/

/-- Everything a host write of the word `d` to the register `r` can do: `WindowWrite` with the register and the
word kept, which the statements about the interrupt, the keys and OVR name. -/
inductive WriteOf (s : State) : Reg → Word → State → Prop where
  | reset (d : Word) : d.getLsbD 1 = true → WriteOf s .ctrl d s.resetEngine
  | enable (d : Word) : d.getLsbD 1 = false → WriteOf s .ctrl d { s with ie := d.getLsbD 0 }
  | clear (d : Word) : WriteOf s .status d { s with status := s.status.writeOneToClear d }
  | ignored (r : Reg) (d : Word) : WriteOf s r d s
  | dropped (r : Reg) (d : Word) : s.status.busy = true → WriteOf s r d { s with status := s.status.overrun }
  | accepted (w : Word) : s.status.busy = false → WriteOf s .cmd w (s.accept w)
  | stored (r : Reg) (d : Word) : s.status.busy = false → WriteOf s r d { s with regs := s.regs.write d r }

theorem writeOf_writeReg (s : State) (r : Reg) (d : Word) : WriteOf s r d (s.writeReg r d) := by
  have hidle {q : Reg} {t : State} (h : s.status.busy = false → WriteOf s q d t) : WriteOf s q d (s.whenIdle t) := by
    cases hbusy : s.status.busy with
    | true => exact whenIdle_of_busy hbusy ▸ .dropped q d hbusy
    | false => exact whenIdle_of_idle hbusy ▸ h hbusy
  cases r with
  | ctrl =>
    rw [State.writeReg, State.writeCtrl]
    split
    case isTrue hset => exact .reset d hset
    case isFalse hclear => exact .enable d (Bool.eq_false_iff.mpr hclear)
  | status => exact .clear d
  | cmd => exact hidle (.accepted d)
  | outLen | errAddr => exact .ignored _ d
  | _ => exact hidle (.stored _ d)

/-! ### The interrupt output -/

/-- Settles O18: of all that a step can do, only a completion sets DONE and only a write of CTRL sets IE. -/
theorem interruptRises : Obligations.InterruptRises := by
  unfold Obligations.InterruptRises
  refine ⟨fun s => rfl, fun s t hstep hlow hhigh => ?_⟩
  obtain ⟨hie, hdone⟩ : t.ie = true ∧ t.status.done = true := by simpa [State.irq] using hhigh
  have hnot : ¬ (s.ie = true ∧ s.status.done = true) := by simpa [State.irq] using hlow
  cases step_cases hstep with
  | completed l i w hs hd => exact .inl ⟨hie, by simp [hs], rfl⟩
  | illegal l w e hs hd => exact .inl ⟨hie, by simp [hs], rfl⟩
  | kept l rs => exact absurd ⟨hie, hdone⟩ hnot
  | reset l hin => cases hie
  | stored l a b hin hb hrace => exact absurd ⟨hie, hdone⟩ hnot
  | wrote l r d hin =>
    have hwrite := writeOf_writeReg { s with inputs := l } r d
    generalize State.writeReg { s with inputs := l } r d = t at hwrite hie hdone
    cases hwrite with
    | reset d hset => cases hie
    | enable d hclear =>
      exact .inr ⟨hdone, Bool.eq_false_iff.mpr fun h => hnot ⟨h, hdone⟩, d, l, hin, hclear, hie⟩
    | clear d => exact absurd ⟨hie, (Bool.and_eq_true_iff.mp hdone).1⟩ hnot
    | ignored r d => exact absurd ⟨hie, hdone⟩ hnot
    | dropped r d hbusy => exact absurd ⟨hie, hdone⟩ hnot
    | accepted w hidle => cases hdone
    | stored r d hidle => exact absurd ⟨hie, hdone⟩ hnot

/-! ### Memory -/

/-- A byte that changed lies in the region outside which nothing did. -/
theorem SameOutside.inside_of_ne {m m' : Memory} {a n x : Nat} (h : SameOutside m m' a n)
    (hne : Memory.read m' x ≠ Memory.read m x) : a ≤ x ∧ x < a + n := by
  by_contra hout
  exact hne (h x (by omega))

/-- The Out region of a running command that decodes (20_memory.md R91). -/
theorem runningOut_of_decode {s : State} {w : Word} {i : Instr} (hs : s.sequencer = .running w)
    (hd : decode w = .ok i) : runningOut s = (regionsOf i s.operands).out := by
  rw [runningOut, hs]
  simp only [hd]

/-- A reset that changes a byte of memory cut a command short, and the byte is in its Out. -/
theorem inside_runningOut_of_reset {s : State} {x : Nat}
    (hne : Memory.read s.resetEngine.mem x ≠ Memory.read s.mem x) :
    (runningOut s).base ≤ x ∧ x < (runningOut s).base + (runningOut s).size ∧ s.sequencer ≠ .idle := by
  obtain ⟨hge, hlt⟩ := (sameOutside_resetEngine s).inside_of_ne hne
  exact ⟨hge, hlt, fun hidle => hne (by rw [resetEngine_mem_of_idle hidle])⟩

/-- Settles O49: a store writes its own bytes, a completion and a reset write in Out, and nothing else writes memory. -/
theorem memoryChangesOnlyBy : Obligations.MemoryChangesOnlyBy := by
  unfold Obligations.MemoryChangesOnlyBy
  intro s t a hstep hne
  have hreset (l : List Event)
      (h : Memory.read (State.resetEngine { s with inputs := l }).mem a ≠ Memory.read s.mem a) :
      (runningOut s).base ≤ a ∧ a < (runningOut s).base + (runningOut s).size ∧ s.sequencer ≠ .idle :=
    inside_runningOut_of_reset (s := { s with inputs := l }) h
  cases step_cases hstep with
  | completed l i w hs hd =>
    obtain ⟨hge, hlt⟩ := (sameOutside_resultOf i { s with inputs := l }).inside_of_ne hne
    rw [runningOut_of_decode hs hd]
    exact .inr ⟨hge, hlt, by simp [hs], rfl⟩
  | illegal l w e hs hd => exact absurd (by simp [completeIllegal]) hne
  | kept l rs => exact absurd rfl hne
  | reset l hin =>
    obtain ⟨hge, hlt, hrun⟩ := hreset l hne
    exact .inr ⟨hge, hlt, hrun, rfl⟩
  | stored l b bytes hin hb hrace =>
    obtain ⟨hge, hlt⟩ := (sameOutside_writeBytes s.mem b rfl).inside_of_ne hne
    exact .inl ⟨b, bytes, l, hin, hge, hlt⟩
  | wrote l r d hin =>
    have hwrite := writeOf_writeReg { s with inputs := l } r d
    generalize State.writeReg { s with inputs := l } r d = t at hwrite hne
    cases hwrite with
    | reset d hset =>
      obtain ⟨hge, hlt, hrun⟩ := hreset l hne
      exact .inr ⟨hge, hlt, hrun, rfl⟩
    | _ => exact absurd rfl hne

/-! ### KEY, IV and SALT -/

theorem resultOf_regs_of_ne {i : Instr} (hkdf : ∀ ksz, i ≠ .kdf ksz) (hzero : i ≠ .zeroize) (s : State) :
    (resultOf i s).regs = s.regs := by
  cases i with
  | nop => rfl
  | kdf ksz => exact absurd rfl (hkdf ksz)
  | enc ksz => exact encResult_regs ksz s
  | dec ksz => exact decResult_regs ksz s
  | sealC ksz gen => exact sealResult_regs ksz gen s
  | openC ksz => exact openResult_regs ksz s
  | zeroize => exact absurd rfl hzero

/-- ZEROIZE alone writes IV and SALT (10_state.md R40, R41). -/
theorem resultOf_iv_salt {i : Instr} (hzero : i ≠ .zeroize) (s : State) :
    (resultOf i s).regs.iv = s.regs.iv ∧ (resultOf i s).regs.salt = s.regs.salt := by
  by_cases hkdf : ∃ ksz, i = .kdf ksz
  · obtain ⟨ksz, rfl⟩ := hkdf
    obtain ⟨k, hk, -⟩ := kdfResult_regs ksz s
    simp [resultOf, hk]
  · rw [resultOf_regs_of_ne (fun ksz h => hkdf ⟨ksz, h⟩) hzero]
    exact ⟨rfl, rfl⟩

/-- A write of an operand register changes its own row only. -/
theorem write_rows (o : OperandRegs) (d : Word) (r : Reg) :
    ((o.write d r).key ≠ o.key → ∃ j, r = .key j) ∧ ((o.write d r).iv ≠ o.iv → ∃ j, r = .iv j) ∧
      ((o.write d r).salt ≠ o.salt → ∃ j, r = .salt j) := by
  cases r with
  | key j => exact ⟨fun _ => ⟨j, rfl⟩, absurd rfl, absurd rfl⟩
  | iv j => exact ⟨absurd rfl, fun _ => ⟨j, rfl⟩, absurd rfl⟩
  | salt j => exact ⟨absurd rfl, absurd rfl, fun _ => ⟨j, rfl⟩⟩
  | _ => exact ⟨absurd rfl, absurd rfl, absurd rfl⟩

/-- A step that changes an operand register completes a command that decodes, is an idle write, or is a reset. -/
theorem step_regs_cases {s t : State} (hstep : step s = .next t) :
    t.regs = s.regs ∨ AceReset t ∨
      (∃ l i w, s.sequencer = .running w ∧ decode w = .ok i ∧ t.sequencer = .idle ∧
        t.regs = (resultOf i { s with inputs := l }).regs) ∨
      ∃ l r d, s.status.busy = false ∧ s.inputs = .busWrite (windowBase s.platform + regOffset r) 4 d :: l ∧
        t.regs = s.regs.write d r := by
  cases step_cases hstep with
  | completed l i w hs hd => exact .inr (.inr (.inl ⟨l, i, w, hs, hd, rfl, rfl⟩))
  | illegal l w e hs hd => exact .inl rfl
  | kept l rs => exact .inl rfl
  | reset l hin => exact .inr (.inl (aceReset_resetEngine _))
  | stored l a b hin hb hrace => exact .inl rfl
  | wrote l r d hin =>
    have hwrite := writeOf_writeReg { s with inputs := l } r d
    generalize State.writeReg { s with inputs := l } r d = t at hwrite
    cases hwrite with
    | reset d hset => exact .inr (.inl (aceReset_resetEngine _))
    | stored r d hidle => exact .inr (.inr (.inr ⟨l, r, d, hidle, hin, rfl⟩))
    | _ => exact .inl rfl

/-- Settles O50: of the steps that change an operand register, a completion changes KEY for KDF and ZEROIZE and the
other two rows for ZEROIZE, and a host write changes its own row. -/
theorem keysChangeOnlyBy : Obligations.KeysChangeOnlyBy := by
  unfold Obligations.KeysChangeOnlyBy
  intro s t hstep wrote reset ran
  rcases step_regs_cases hstep with heq | hreset | ⟨l, i, w, hs, hd, hidle, heq⟩ | ⟨l, r, d, hidle, hin, heq⟩
  · simp [heq]
  · exact ⟨fun _ => .inr (.inr (.inr hreset)), fun _ => .inr (.inr hreset), fun _ => .inr (.inr hreset)⟩
  · have hran : ran i := ⟨w, hs, hd, hidle⟩
    rw [heq]
    by_cases hzero : i = .zeroize
    · subst hzero
      exact ⟨fun _ => .inr (.inl hran), fun _ => .inl hran, fun _ => .inl hran⟩
    obtain ⟨hiv, hsalt⟩ := resultOf_iv_salt hzero { s with inputs := l }
    refine ⟨fun hne => .inl ?_, fun hne => absurd hiv hne, fun hne => absurd hsalt hne⟩
    by_contra hkdf
    have hregs := resultOf_regs_of_ne (fun ksz h => hkdf ⟨ksz, h ▸ hran⟩) hzero { s with inputs := l }
    exact hne (by rw [hregs])
  · rw [heq]
    obtain ⟨hkey, hiv, hsalt⟩ := write_rows s.regs d r
    have hwrote {q : Reg} (h : r = q) : wrote q := h ▸ ⟨hidle, d, l, hin⟩
    exact ⟨fun hne => .inr (.inr (.inl ((hkey hne).imp fun _ => hwrote))),
      fun hne => .inr (.inl ((hiv hne).imp fun _ => hwrote)),
      fun hne => .inr (.inl ((hsalt hne).imp fun _ => hwrote))⟩

/-! ### OVR, and the registers of a running command -/

/-- Settles O51: of all that a step can do, only a dropped write sets OVR, and only a write of STATUS or a reset clears
it. -/
theorem ovrIsSticky : Obligations.OvrIsSticky := by
  unfold Obligations.OvrIsSticky
  intro s t hstep
  have hkept (h : t.status.ovr = s.status.ovr) :
      (s.status.ovr = false → t.status.ovr = true → s.status.busy = true ∧ t.status = { s.status with ovr := true } ∧
        ∃ addr d rest, s.inputs = .busWrite addr 4 d :: rest) ∧
      (s.status.ovr = true → t.status.ovr = false →
        AceReset t ∨ ∃ d rest, s.inputs = .busWrite (windowBase s.platform + 0x04) 4 d :: rest ∧
          d.getLsbD 2 = true) := by
    rw [h]
    exact ⟨fun h0 h1 => by simp [h0] at h1, fun h1 h0 => by simp [h1] at h0⟩
  cases step_cases hstep with
  | completed l i w hs hd => exact hkept rfl
  | illegal l w e hs hd => exact hkept rfl
  | kept l rs => exact hkept rfl
  | reset l hin => exact ⟨fun _ => nofun, fun _ _ => .inl (aceReset_resetEngine _)⟩
  | stored l a b hin hb hrace => exact hkept rfl
  | wrote l r d hin =>
    have hwrite := writeOf_writeReg { s with inputs := l } r d
    generalize State.writeReg { s with inputs := l } r d = t at hwrite hkept
    cases hwrite with
    | reset d hset => exact ⟨fun _ => nofun, fun _ _ => .inl (aceReset_resetEngine _)⟩
    | clear d =>
      simp only [Status.writeOneToClear_ovr]
      exact ⟨fun h0 => by simp [h0], fun h1 h0 => .inr ⟨d, l, hin, by simpa [h1] using h0⟩⟩
    | dropped r d hbusy => exact ⟨fun _ _ => ⟨hbusy, rfl, _, d, l, hin⟩, fun _ => nofun⟩
    | _ => exact hkept rfl

/-- Settles O52: with BUSY = 1 before and after, a step is no completion, no reset, no accept and no idle write. -/
theorem registersFrozenWhileBusy : Obligations.RegistersFrozenWhileBusy := by
  unfold Obligations.RegistersFrozenWhileBusy
  intro s t hstep hbusy hbusy'
  cases step_cases hstep with
  | completed l i w hs hd => cases hbusy'
  | illegal l w e hs hd => cases hbusy'
  | kept l rs => exact ⟨rfl, rfl, rfl, rfl, rfl, rfl, rfl⟩
  | reset l hin => cases hbusy'
  | stored l a b hin hb hrace => exact ⟨rfl, rfl, rfl, rfl, rfl, rfl, rfl⟩
  | wrote l r d hin =>
    have hwrite := writeOf_writeReg { s with inputs := l } r d
    generalize State.writeReg { s with inputs := l } r d = t at hwrite hbusy'
    cases hwrite with
    | reset d hset => cases hbusy'
    | accepted w hidle => simp [hbusy] at hidle
    | stored r d hidle => simp [hbusy] at hidle
    | _ => exact ⟨rfl, rfl, rfl, rfl, rfl, rfl, rfl⟩

end Sys2Proof.Machine
end

section
/-! PROOFS. What each command does when no check fails, as the contracts of 00_scope.md R4 say it (41_kdf.md R200,
42_cipher.md R260 and R270, 43_container.md R290 and R300, 44_housekeeping.md). -/

namespace Sys2Proof.Machine

/-- The Complete step of a command of which the result is known. -/
theorem exec_of_result {i : Instr} {s : State} {r : Result} (h : resultOf i s = r) :
    exec i s = .next (s.commit r) :=
  h ▸ exec_eq_commit i s

/-! ### NOP and ZEROIZE -/

/-- Settles O21: NOP commits a success that changes nothing. -/
theorem nopHasNoEffect : Obligations.NopHasNoEffect := by
  unfold Obligations.NopHasNoEffect
  exact fun s => ⟨_, exec_eq_commit .nop s, completedWith_commit s _, outLenWord_zero s.drawCount, rfl, rfl, rfl,
    outLenDraws_zero s.drawCount⟩

theorem getElem_zeroized (o : OperandRegs) :
    (∀ j : Fin 8, o.zeroized.key[j] = 0) ∧ (∀ j : Fin 4, o.zeroized.iv[j] = 0) ∧
      ∀ j : Fin 4, o.zeroized.salt[j] = 0 :=
  ⟨key_reset, iv_reset, salt_reset⟩

/-- Settles O22: ZEROIZE commits the registers with the three rows zero. -/
theorem zeroizeClearsKeys : Obligations.ZeroizeClearsKeys := by
  unfold Obligations.ZeroizeClearsKeys
  intro s
  obtain ⟨hkey, hiv, hsalt⟩ := getElem_zeroized s.regs
  exact ⟨_, exec_eq_commit .zeroize s, completedWith_commit s _, outLenWord_zero s.drawCount, rfl, hkey, hiv, hsalt,
    rfl, rfl, outLenDraws_zero s.drawCount⟩

/-! ### KDF -/

theorem length_derive (p salt : List Byte) (c : Nat) (ksz : BitVec 2) :
    (derive p salt c (klen ksz)).length = klen ksz :=
  length_pbkdf2 p salt c _ (klen_le ksz)

/-- A 16-byte key leaves KEY4-7 zero (41_kdf.md R210). -/
theorem getElem_keyRegs_of_ge {dk : List Byte} (h : dk.length = 16) (j : Fin 8) (hj : 4 ≤ j.val) :
    (keyRegs dk)[j] = 0 := by
  have hword {k : Nat} (hk : 4 ≤ k) : wordAt dk k = 0 := by
    have hnone {n : Nat} (hn : 16 ≤ n) : dk.getD n 0 = 0 := by
      rw [List.getD_eq_getElem?_getD, List.getElem?_eq_none (by omega), Option.getD_none]
    rw [wordAt, hnone (by omega), hnone (by omega), hnone (by omega), hnone (by omega)]
    decide
  obtain ⟨j, hlt⟩ := j
  obtain rfl | rfl | rfl | rfl : j = 4 ∨ j = 5 ∨ j = 6 ∨ j = 7 := by simp only at hj; omega
  all_goals exact hword (by decide)

/-- The key that KDF derives (41_kdf.md R200). -/
def State.derivedKey (s : State) (ksz : BitVec 2) : List Byte :=
  derive s.passwordBytes s.operands.saltBytes s.operands.iter.toNat (klen ksz)

theorem State.length_derivedKey (s : State) (ksz : BitVec 2) : (s.derivedKey ksz).length = klen ksz :=
  length_derive _ _ _ ksz

/-- KeyBytes(klen) of registers whose KEY row holds a key of klen bytes (10_state.md R42). -/
theorem keyBytes_of_key {o : OperandRegs} {dk : List Byte} {ksz : BitVec 2} (hkey : o.key = keyRegs dk)
    (hlen : dk.length = klen ksz) : o.keyBytes (klen ksz) = dk := by
  rw [OperandRegs.keyBytes, hkey, regBytes_keyRegs dk (hlen ▸ klen_le ksz), List.take_left' hlen]

theorem KdfRuns.result {ksz : BitVec 2} {s : State} (h : KdfRuns ksz s) :
    resultOf (.kdf ksz) s = { s.success s.mem 0 s.drawCount with
      regs := { s.regs with key := keyRegs (s.derivedKey ksz) } } :=
  kdfResult_eq h.check h.pwRead

/-- Settles O23: KDF commits the derived key in the KEY row. -/
theorem kdfDerivesKey : Obligations.KdfDerivesKey := by
  unfold Obligations.KdfDerivesKey
  intro ksz s hruns
  have hlen := s.length_derivedKey ksz
  exact ⟨_, exec_of_result hruns.result, completedWith_commit s _, outLenWord_zero s.drawCount, rfl,
    keyBytes_of_key rfl hlen, fun h16 => getElem_keyRegs_of_ge (hlen.trans h16), rfl, rfl, outLenDraws_zero s.drawCount⟩

/-! ### ENC and DEC -/

/-- A success that wrote `b` at `a`: what its commit leaves, but for OUT_LEN and the counter (40_command_model.md
R142). -/
theorem commit_success_writeBytes {s : State} {i : Instr} {a : Nat} {b : List Byte} {n c : Nat}
    (h : resultOf i s = s.success (Memory.writeBytes s.mem a b) n c) :
    ∃ t, exec i s = .next t ∧ CompletedWith s t .ok ∧ t.errAddr = 0 ∧ t.regs = s.regs ∧
      Memory.readBytes t.mem a b.length = b ∧ SameOutside s.mem t.mem a b.length ∧
      t.outLen = outLenWord n c ∧ t.drawCount = outLenDraws n c :=
  ⟨_, exec_of_result h, completedWith_commit s _, rfl, rfl, Memory.readBytes_writeBytes_self _ _ _,
    sameOutside_writeBytes _ _ rfl, rfl, rfl⟩

theorem toNat_outLenWord {n : Nat} (h : n < 2 ^ 32) (c : Nat) : (outLenWord n c).toNat = n := by
  rw [outLenWord_of_lt h, BitVec.toNat_ofNat, Nat.mod_eq_of_lt h]

theorem outLenDraws_of_lt {n : Nat} (h : n < 2 ^ 32) (c : Nat) : outLenDraws n c = c := if_pos h

theorem EncRuns.result {ksz : BitVec 2} {s : State} (h : EncRuns ksz s) :
    resultOf (.enc ksz) s = s.success (Memory.writeBytes s.mem s.operands.dstAddr.toNat
        (encrypt (s.keyOperand ksz) s.operands.ivBytes s.inputBytes))
      (paddedLength s.operands.srcLen.toNat) s.drawCount :=
  encResult_eq h.check h.inRead h.outWrite

theorem length_encrypt_inputBytes (key iv : List Byte) (s : State) :
    (encrypt key iv s.inputBytes).length = 16 * (s.operands.srcLen.toNat / 16 + 1) := by
  rw [length_encrypt, State.length_inputBytes, paddedLength]

/-- Settles O24: ENC commits the one write of the ciphertext. -/
theorem encEncryptsBuffer : Obligations.EncEncryptsBuffer := by
  unfold Obligations.EncEncryptsBuffer
  intro ksz s hruns
  obtain ⟨t, hexec, hdone, haddr, hregs, hread, hout, hlen, hdraws⟩ := commit_success_writeBytes hruns.result
  rw [length_encrypt_inputBytes] at hread hout
  refine ⟨t, hexec, hdone, haddr, hregs, hread, hout, fun hlt => ?_⟩
  rw [hlen, hdraws]
  exact ⟨toNat_outLenWord hlt _, outLenDraws_of_lt hlt _⟩

/-- A plaintext written in whole: the commit of DEC and of OPEN on a good padding. -/
theorem commit_plaintext {s : State} {i : Instr} {x : List Byte} (hx : x.length < 2 ^ 32)
    (h : resultOf i s = s.success (Memory.writeBytes s.mem s.operands.dstAddr.toNat x) x.length s.drawCount) :
    ∃ t, exec i s = .next t ∧ CompletedWith s t .ok ∧ t.errAddr = 0 ∧ t.regs = s.regs ∧
      t.outLen.toNat = x.length ∧ Memory.readBytes t.mem s.operands.dstAddr.toNat x.length = x ∧
      SameOutside s.mem t.mem s.operands.dstAddr.toNat x.length ∧ t.drawCount = s.drawCount := by
  obtain ⟨t, hexec, hdone, haddr, hregs, hread, hout, hlen, hdraws⟩ := commit_success_writeBytes h
  exact ⟨t, hexec, hdone, haddr, hregs, by rw [hlen, toNat_outLenWord hx], hread, hout,
    by rw [hdraws, outLenDraws_of_lt hx]⟩

theorem DecRuns.result_of_decrypt {ksz : BitVec 2} {s : State} {x : List Byte} (h : DecRuns ksz s)
    (hx : decrypt (s.keyOperand ksz) s.operands.ivBytes s.inputBytes = some x) :
    resultOf (.dec ksz) s =
      s.success (Memory.writeBytes s.mem s.operands.dstAddr.toNat x) x.length s.drawCount := by
  rw [resultOf, decResult_eq h.check h.inRead h.outWrite, hx]

/-- Settles O25: DEC commits the one write of the plaintext, which is no longer than SRC_LEN. -/
theorem decDecryptsBuffer : Obligations.DecDecryptsBuffer := by
  unfold Obligations.DecDecryptsBuffer
  intro ksz s x hruns hx
  have hle := length_decrypt_le hx
  rw [State.length_inputBytes] at hle
  exact commit_plaintext (hle.trans_lt s.operands.srcLen.isLt) (hruns.result_of_decrypt hx)

/-! ### SEAL -/

theorem SealRuns.result {ksz : BitVec 2} {s : State} (h : SealRuns ksz s) (gen : Bool) :
    resultOf (.sealC ksz gen) s =
      s.success (Memory.writeBytes s.mem s.operands.dstAddr.toNat (s.sealedContainer ksz gen))
        (32 + paddedLength s.operands.srcLen.toNat) (sealDraws gen s.drawCount) :=
  sealResult_eq (h.check gen) h.pwRead h.inRead h.outWrite

/-- With GEN = 1 salt and IV are the two halves of one draw of 32 bytes (43_container.md R292). -/
theorem getElem?_sealHeader_drawn (o : OperandRegs) (c : Nat) {k : Nat} (hk : k < 32) :
    ((sealHeader true o c).1 ++ (sealHeader true o c).2)[k]? = some (Config.drawByte (c + k)) := by
  simp only [sealHeader, if_true]
  by_cases h16 : k < 16
  · rw [List.getElem?_append_left (by simpa using h16), List.getElem?_eq_getElem (by simpa using h16),
      getElem_drawBytes]
  · rw [List.getElem?_append_right (by simpa using h16), length_drawBytes,
      List.getElem?_eq_getElem (by simp only [length_drawBytes]; omega), getElem_drawBytes,
      show c + 16 + (k - 16) = c + k by omega]

/-- Settles O27: SEAL commits the one write of the container, under the header that GEN chooses. -/
theorem sealWritesContainer : Obligations.SealWritesContainer := by
  unfold Obligations.SealWritesContainer
  intro ksz gen s hruns
  obtain ⟨hsalt, hiv⟩ := length_sealHeader gen s.operands s.drawCount
  obtain ⟨t, hexec, hdone, haddr, hregs, hread, hout, hlen, hdraws⟩ := commit_success_writeBytes (hruns.result gen)
  rw [State.length_sealedContainer, paddedLength] at hread hout
  refine ⟨t, (sealHeader gen s.operands s.drawCount).1, (sealHeader gen s.operands s.drawCount).2, hexec, hdone, haddr,
    hregs, hsalt, hiv, ?_, ?_, hread, hout, fun hlt => ?_⟩
  · rintro rfl
    exact ⟨rfl, rfl⟩
  · rintro rfl k hk
    exact getElem?_sealHeader_drawn _ _ hk
  · rw [hlen, hdraws]
    refine ⟨toNat_outLenWord hlt _, (outLenDraws_of_lt hlt _).trans ?_⟩
    cases gen <;> rfl

/-! ### OPEN -/

/-- Settles O28: OPEN commits the one write of the plaintext, which is no longer than SRC_LEN. -/
theorem openDecryptsContainer : Obligations.OpenDecryptsContainer := by
  unfold Obligations.OpenDecryptsContainer
  intro ksz s x hruns hx
  have hle := length_decrypt_le hx
  rw [List.length_drop, State.length_inputBytes] at hle
  exact commit_plaintext (by have := s.operands.srcLen.isLt; omega) (openResult_of_decrypt hruns hx)

theorem OpenRuns.result_of_bad_padding {ksz : BitVec 2} {s : State} (h : OpenRuns ksz s)
    (hbad : decrypt (s.openKey ksz) s.openIv s.openCiphertext = none) :
    resultOf (.openC ksz) s = s.raiseAbort (.padding (Memory.writeBytes s.mem s.operands.dstAddr.toNat
      ((decryptPadded (s.openKey ksz) s.openIv s.openCiphertext).take (s.operands.srcLen.toNat - 48))))
      (regionsOf (.openC ksz) s.operands).out s.drawCount := by
  rw [resultOf, openResult_eq h.check h.pwRead h.inRead h.outWrite, hbad]

/-- Settles O29: OPEN commits the raise of its padding error, whose memory has the blocks before the last. -/
theorem openBadPadding : Obligations.OpenBadPadding := by
  unfold Obligations.OpenBadPadding
  intro ksz s hruns hbad
  have hlen : ((decryptPadded (s.openKey ksz) s.openIv s.openCiphertext).take (s.operands.srcLen.toNat - 48)).length =
      s.operands.srcLen.toNat - 48 := by
    rw [List.length_take, length_decryptPadded, State.openCiphertext, List.length_drop, State.length_inputBytes]
    omega
  exact ⟨_, exec_of_result (hruns.result_of_bad_padding hbad), completedWith_commit s _, rfl, rfl,
    outLenWord_zero s.drawCount, Memory.readBytes_writeBytes_of_length _ _ _ _ hlen, sameOutside_writeBytes _ _ hlen,
    outLenDraws_zero s.drawCount⟩

end Sys2Proof.Machine
end

section
/-! PROOFS. What holds of every command in every state: it completes, in the frame of its row of 20_memory.md R91, with
a code of its row of 60_exceptions.md R344, and from the snapshot alone (40_command_model.md R140). -/

namespace Sys2Proof.Machine

/-! ### The frame -/

/-- Settles O37: each row of the table is the one `regionsOf` gives. -/
theorem regionsOfCommands : Obligations.RegionsOfCommands := by
  unfold Obligations.RegionsOfCommands
  intro o ksz gen pw inp none enc
  refine ⟨⟨rfl, rfl, rfl⟩, ⟨rfl, rfl, rfl⟩, ⟨rfl, rfl, rfl⟩, ⟨rfl, rfl, rfl, ?_⟩, ⟨rfl, rfl, rfl, ?_⟩,
    ⟨rfl, rfl, rfl, ?_⟩, fun _ => ⟨rfl, rfl, rfl, ?_⟩⟩
  all_goals exact decide_eq_true_iff

/-- Settles O30: the frame of a commit, of the registers of a result, and of its memory. -/
theorem everyCommandCompletes : Obligations.EveryCommandCompletes := by
  unfold Obligations.EveryCommandCompletes
  intro i s
  refine ⟨_, exec_eq_commit i s, completedWith_commit s _, ?_, fun hkdf hzero => ?_, fun hzero => ?_,
    sameOutside_resultOf i s, (resultOf_within i s).draws.trans (le_outLenDraws _ _)⟩
  · obtain ⟨k, v, t, h⟩ := resultOf_regs_frame i s
    simp [h]
  · rw [State.commit_regs, resultOf_regs_of_ne hkdf hzero]
  · exact resultOf_iv_salt hzero s

/-! ### The error codes -/

/-- Only a command whose row lists it can meet the condition of a code (60_exceptions.md R344, R345). -/
theorem code_mem_possibleErrors {i : Instr} {s : State} {e : ErrorCode} (h : FirstError i s e) :
    e.code ∈ possibleErrors i := by
  cases e with
  | ok => cases i <;> simp [possibleErrors, ErrorCode.code]
  | preconditionViolation =>
    rcases h with ⟨k, hk, -⟩ | ⟨huses, -⟩
    · cases i <;> simp_all [kszOf, possibleErrors, ErrorCode.code]
    · cases i <;> simp_all [usesIter, possibleErrors, ErrorCode.code]
  | emptyPassword =>
    obtain ⟨-, hneeds, -⟩ := h
    cases i <;> simp_all [needsPassword, possibleErrors, ErrorCode.code]
  | malformedContainer =>
    obtain ⟨-, -, hlen⟩ := h
    cases i <;> simp_all [malformedLength, possibleErrors, ErrorCode.code]
  | regionError =>
    obtain ⟨-, hregion⟩ := h
    cases i <;> simp_all [regionError, regionsOf, emptyRegion, possibleErrors, ErrorCode.code]
  | busError =>
    obtain ⟨-, -, hrefused⟩ := h
    cases i <;> simp_all [refusedAddress, accessOrder, firstRefusedAccess, possibleErrors, ErrorCode.code]
  | integrityOrPassword =>
    obtain ⟨-, -, -, hpad⟩ := h
    cases i <;> simp_all [badPadding, possibleErrors, ErrorCode.code]
  | illegalCommand => exact h.elim

/-- Settles O33: the code reported is the first error that applies, and an Illegal word reports its own. -/
theorem errorsPerCommand : Obligations.ErrorsPerCommand := by
  unfold Obligations.ErrorsPerCommand
  exact ⟨fun i s => ⟨_, exec_eq_commit i s, code_mem_possibleErrors (firstError_resultOf i s)⟩,
    fun s w hs hd => ⟨_, engineTurn_of_illegal hs hd, rfl⟩⟩

/-- Settles O34: a result that is an error has its frame, and commits no output. -/
theorem errorResult : Obligations.ErrorResult := by
  unfold Obligations.ErrorResult
  intro i s
  have hwithin := resultOf_within i s
  refine ⟨_, exec_eq_commit i s, fun herr => ⟨resultOf_regs_of_err i s herr, ?_, rfl, fun hbus => ?_,
    hwithin.unchanged herr, sameOutside_resultOf i s⟩⟩
  · rw [State.commit_outLen, hwithin.outLen herr, outLenWord_zero]
  · rw [State.commit_errAddr, hwithin.errAddr hbus]
    rfl

/-! ### The first refused access -/

/-- Once every check has passed, a refused access raises BUS_ERROR with its address, every byte of Out a draw of those
after the ones the command took before (20_memory.md R96, R97). -/
theorem resultOf_of_refused {i : Instr} {s : State} {a : Nat} (hc : checkOf i s.operands = none)
    (h : refusedAddress i s = some a) :
    ∃ c, s.drawCount ≤ c ∧ resultOf i s = s.raiseAbort (.bus a) (regionsOf i s.operands).out c := by
  cases i with
  | nop => cases h
  | kdf ksz => exact ⟨_, le_refl _, kdfResult_of_refused hc h⟩
  | enc ksz => exact ⟨_, le_refl _, encResult_of_refused hc h⟩
  | dec ksz => exact ⟨_, le_refl _, decResult_of_refused hc h⟩
  | sealC ksz gen => exact ⟨_, le_sealDraws gen _, sealResult_of_refused hc h⟩
  | openC ksz => exact ⟨_, le_refl _, openResult_of_refused hc h⟩
  | zeroize => cases h

theorem refusedAddress_ne_none_iff {i : Instr} {s : State} :
    refusedAddress i s ≠ none ↔ ∃ x, refusedAddress i s = some x.addr ∧
      (accessOrder i s.operands (keptBytes (heldBlock i s))).find? (fun x => !x.admitted s.platform) = some x := by
  simp only [refusedAddress, firstRefusedAccess]
  cases (accessOrder i s.operands (keptBytes (heldBlock i s))).find? (fun x => !x.admitted s.platform) <;> simp

/-- A region that passes the region check stands in the DMA space. -/
theorem bytesInSpace_of_le {r : Region} (h : r.base + r.size ≤ 2 ^ 32) : bytesInSpace r = r.size := by
  rw [bytesInSpace, dmaSize]
  omega

/-- Settles O35: the raise of BUS_ERROR at the first refused access, whose address the DMA space has. -/
theorem busErrorAtFirstRefusal : Obligations.BusErrorAtFirstRefusal := by
  unfold Obligations.BusErrorAtFirstRefusal
  rintro i s ⟨hpass, hregion, hrefused⟩
  obtain ⟨x, hx, hfind⟩ := refusedAddress_ne_none_iff.mp hrefused
  obtain ⟨c, hc, hres⟩ := resultOf_of_refused (checkOf_eq_none hpass hregion) hx
  have hlt : x.addr < 2 ^ 32 :=
    accessOrder_addr_lt (keptBytes_le _) hpass.2.2 hregion (List.mem_of_find?_eq_some hfind)
  have hout : (regionsOf i s.operands).out.base + (regionsOf i s.operands).out.size ≤ 2 ^ 32 := by
    by_contra hwraps
    exact hregion (.inr (.inr (.inl (by omega))))
  refine ⟨_, x, exec_of_result hres, hfind, completedWith_commit s _, ?_,
    outLenWord_zero (c + bytesInSpace (regionsOf i s.operands).out), rfl, sameOutside_unspecify _ _ _, c, hc,
    ?_, fun k hk => read_unspecify_of_inside _ _ _ _ hk (by rw [dmaSize]; omega)⟩
  · rw [State.commit_errAddr, State.raiseAbort_bus_errAddr, BitVec.toNat_ofNat, Nat.mod_eq_of_lt hlt]
  · rw [State.commit_drawCount, State.raiseAbort_outLen, outLenDraws_zero, State.raiseAbort_bus_drawCount,
      bytesInSpace_of_le hout]

end Sys2Proof.Machine
end

section
/-! PROOFS. A command computes from the snapshot, memory, the admission and the draws alone (40_command_model.md R140,
41_kdf.md R197). -/

namespace Sys2Proof.Machine

/-- What a command may do to the operand registers (10_state.md R36, R39 to R41). -/
inductive RegsChange where
  | keep
  | key (k : Vector Word 8)
  | zeroize

def RegsChange.apply : RegsChange → OperandRegs → OperandRegs
  | .keep, o => o
  | .key k, o => { o with key := k }
  | .zeroize, o => o.zeroized

/-- Two states in which a command computes from the same values. -/
structure SameForCommand (s s' : State) : Prop where
  operands : s'.operands = s.operands
  mem : s'.mem = s.mem
  platform : s'.platform = s.platform
  drawCount : s'.drawCount = s.drawCount

section
variable {s s' : State}

theorem SameForCommand.raiseCheck_eq (h : SameForCommand s s') (e : ErrorCode) :
    s'.raiseCheck e = { s.raiseCheck e with regs := s'.regs } := by
  simp only [State.raiseCheck, State.raise, h.mem, h.drawCount]

theorem SameForCommand.raiseAbort_eq (h : SameForCommand s s') (x : Abort) (out : Region) (c : Nat) :
    s'.raiseAbort x out c = { s.raiseAbort x out c with regs := s'.regs } := by
  cases x <;> simp only [State.raiseAbort, State.raise, h.mem]

/-- The results of a command in two such states differ in the registers it does not write. -/
theorem SameForCommand.resultOf_eq (h : SameForCommand s s') (i : Instr) :
    ∃ c : RegsChange, (resultOf i s).regs = c.apply s.regs ∧
      resultOf i s' = { resultOf i s with regs := c.apply s'.regs } := by
  cases i with
  | nop => exact ⟨.keep, rfl, by simp only [resultOf, h.mem, h.drawCount]; rfl⟩
  | zeroize => exact ⟨.zeroize, rfl, by simp only [resultOf, h.mem, h.drawCount]; rfl⟩
  | kdf ksz =>
    simp only [resultOf, kdfResult, readPassword, h.operands, h.mem, h.platform, h.drawCount, h.raiseCheck_eq,
      h.raiseAbort_eq]
    split
    · exact ⟨.keep, rfl, rfl⟩
    split
    · exact ⟨.keep, State.raiseAbort_regs _ _ _ _, rfl⟩
    · exact ⟨.key _, rfl, rfl⟩
  | enc ksz =>
    refine ⟨.keep, encResult_regs ksz s, ?_⟩
    simp only [resultOf, encResult, h.operands, h.mem, h.platform, h.drawCount, h.raiseCheck_eq, h.raiseAbort_eq]
    split
    · rfl
    split <;> rfl
  | dec ksz =>
    refine ⟨.keep, decResult_regs ksz s, ?_⟩
    simp only [resultOf, decResult, h.operands, h.mem, h.platform, h.drawCount, h.raiseCheck_eq, h.raiseAbort_eq]
    split
    · rfl
    split <;> rfl
  | sealC ksz gen =>
    refine ⟨.keep, sealResult_regs ksz gen s, ?_⟩
    simp only [resultOf, sealResult, h.operands, h.mem, h.platform, h.drawCount, h.raiseCheck_eq, h.raiseAbort_eq]
    split
    · rfl
    split <;> rfl
  | openC ksz =>
    refine ⟨.keep, openResult_regs ksz s, ?_⟩
    simp only [resultOf, openResult, h.operands, h.mem, h.platform, h.drawCount, h.raiseCheck_eq, h.raiseAbort_eq]
    split
    · rfl
    split <;> rfl

end

/-- Settles O55: the two results differ in the registers that the command does not write, and in a state of a run the
snapshot is the live registers. -/
theorem commandReadsSnapshotOnly : Obligations.CommandReadsSnapshotOnly := by
  unfold Obligations.CommandReadsSnapshotOnly
  refine ⟨fun i s s' hoperands hmem hplatform hdraws => ?_, fun s h => h.operands_eq_regs⟩
  obtain ⟨c, hregs, hres⟩ := (SameForCommand.mk hoperands hmem hplatform hdraws).resultOf_eq i
  refine ⟨_, _, exec_eq_commit i s, exec_eq_commit i s', ?_⟩
  rw [hres]
  refine ⟨rfl, rfl, rfl, rfl, rfl, ?_⟩
  rw [State.commit_regs, State.commit_regs, hregs]
  cases c with
  | keep => exact .inl ⟨rfl, rfl⟩
  | key k => exact .inr (.inl ⟨rfl, rfl⟩)
  | zeroize => exact .inr (.inr ⟨rfl, rfl⟩)

end Sys2Proof.Machine
end

section
/-! PROOFS. The soft reset of a running command (70_reset_and_hazards.md R382): it is abandoned, and every byte of its
Out is a draw. -/

namespace Sys2Proof.Machine

/-- Settles O20: the write is `State.resetEngine`, which draws one byte for each of Out in the DMA space. -/
theorem softResetAbandonsCommand : Obligations.SoftResetAbandonsCommand := by
  unfold Obligations.SoftResetAbandonsCommand
  intro s rest d hin hset
  have hmem : (State.resetEngine { s with inputs := rest }).mem = unspecify s.mem (runningOut s) s.drawCount :=
    resetEngine_mem_eq _
  have hdraws : (State.resetEngine { s with inputs := rest }).drawCount =
      s.drawCount + bytesInSpace (runningOut s) := by
    rw [State.resetEngine_drawCount, abandonedOut_eq_runningOut]
    rfl
  refine ⟨_, step_softReset hset hin, aceReset_resetEngine _, rfl, rfl, sameOutside_resetEngine _, ?_, ?_, ?_⟩
  · rw [hmem]
    exact fun k hk hlt => read_unspecify_of_inside _ _ _ _ hk hlt
  · omega
  · intro k hk hlt
    rw [hdraws, bytesInSpace, dmaSize]
    omega

end Sys2Proof.Machine
end

section
/-! PROOFS. DMA memory: its laws, and the host-side accesses (20_memory.md R87, R100, 40_command_model.md R160). -/

namespace Sys2Proof.Machine

/-- Settles O48: read after write, the frame, the canonical form and its uniqueness. -/
theorem memoryLaws : Obligations.MemoryLaws := by
  unfold Obligations.MemoryLaws
  exact ⟨fun m a b => ⟨Memory.readBytes_writeBytes_self m a b, sameOutside_writeBytes m a rfl⟩,
    fun m a b hwf hle => Memory.wf_writeBytes hwf b (.inr hle), fun m m' hwf hwf' heq => Memory.ext_of_wf hwf hwf' heq⟩

/-! ### Host-side accesses -/

theorem isDevice_of_mem {p : Platform} {r : Region} {a : Nat} (hr : r ∈ p.devices) (hge : r.base ≤ a)
    (hlt : a < r.base + r.size) : isDevice p a = true := by
  rw [isDevice, anyHas, List.any_eq_true]
  exact ⟨r, hr, (regionHas_iff r a).mpr ⟨hge, hlt⟩⟩

/-- An access of `n` bytes from `a` on meets a region exactly when it is not disjoint from it (20_memory.md R90). -/
theorem access_not_disjoint_iff (a n : Nat) (r : Region) :
    disjoint ⟨a, n⟩ r = false ↔ ∃ x, (r.base ≤ x ∧ x < r.base + r.size) ∧ a ≤ x ∧ x < a + n := by
  simp only [not_disjoint_iff, and_comm]

theorem reachesDevice_iff (p : Platform) (a n : Nat) :
    reachesDevice p a n = true ↔
      ∃ r x, r ∈ p.devices ∧ (r.base ≤ x ∧ x < r.base + r.size) ∧ a ≤ x ∧ x < a + n := by
  simp only [reachesDevice, List.any_eq_true, Bool.not_eq_true', access_not_disjoint_iff, exists_and_left]

/-- A host-side access races exactly when it touches a region of the running command; an Illegal word has none. -/
theorem races_iff (s : State) (a n : Nat) :
    s.races a n = true ↔ ∃ w i r x, s.sequencer = .running w ∧ decode w = .ok i ∧
      (r = (regionsOf i s.operands).pw ∨ r = (regionsOf i s.operands).inp ∨ r = (regionsOf i s.operands).out) ∧
      (r.base ≤ x ∧ x < r.base + r.size) ∧ a ≤ x ∧ x < a + n := by
  cases hs : s.sequencer with
  | idle => simp [State.races, hs]
  | running w =>
    cases hd : decode w with
    | error e => simp [State.races, hs, regionsOfWord, hd, disjoint, emptyRegion]
    | ok i =>
      simp only [State.races, hs, regionsOfWord, hd, Bool.not_eq_true', Bool.and_eq_false_iff, access_not_disjoint_iff]
      constructor
      · rintro ((⟨x, hx⟩ | ⟨x, hx⟩) | ⟨x, hx⟩)
        · exact ⟨w, i, _, x, rfl, hd, .inl rfl, hx⟩
        · exact ⟨w, i, _, x, rfl, hd, .inr (.inl rfl), hx⟩
        · exact ⟨w, i, _, x, rfl, hd, .inr (.inr rfl), hx⟩
      · rintro ⟨w', i', r, x, hw, hd', hr, hx⟩
        cases hw
        cases hd.symm.trans hd'
        rcases hr with rfl | rfl | rfl
        · exact .inl (.inl ⟨x, hx⟩)
        · exact .inl (.inr ⟨x, hx⟩)
        · exact .inr ⟨x, hx⟩

/-- What a host-side access does, by the first fault that applies (log entries 11, 14, 15 and 23). -/
theorem hostSideAccess_cases (s made : State) (a n : Nat) :
    (dmaSize < a + n → s.hostSideAccess a n made = .fault .noSuchDmaAddress) ∧
    (a + n ≤ dmaSize → reachesDevice s.platform a n = true → s.hostSideAccess a n made = .fault .deviceAccess) ∧
    (a + n ≤ dmaSize → ¬ reachesDevice s.platform a n = true → s.races a n = true →
      s.hostSideAccess a n made = .fault .regionRace) ∧
    (a + n ≤ dmaSize → ¬ reachesDevice s.platform a n = true → ¬ s.races a n = true →
      s.hostSideAccess a n made = .next made) := by
  unfold State.hostSideAccess
  refine ⟨fun h => if_pos h, fun h hdev => ?_, fun h hdev hrace => ?_, fun h hdev hrace => ?_⟩ <;>
    rw [if_neg (Nat.not_lt.mpr h)]
  · exact if_pos hdev
  · rw [if_neg hdev, if_pos hrace]
  · rw [if_neg hdev, if_neg hrace]

/-- Settles O47: an access is a step of `State.hostSideAccess`, whose tests are those of the statement. -/
theorem hostSideAccess : Obligations.HostSideAccess := by
  unfold Obligations.HostSideAccess
  refine ⟨fun p r a hr hge hlt => ?_, ?_⟩
  · have hdev := isDevice_of_mem hr hge hlt
    exact ⟨dmaReadOK_of_isDevice hdev, dmaWriteOK_of_isDevice hdev⟩
  · intro s rest a n bytes e t he hin device touches
    have hstep : step s = State.hostSideAccess { s with inputs := rest } a n t := by
      unfold step
      rw [hin]
      rcases he with ⟨rfl, rfl, rfl⟩ | ⟨rfl, rfl⟩ <;> rfl
    have hdevice : reachesDevice s.platform a n = true ↔ device := reachesDevice_iff _ _ _
    have htouches : State.races { s with inputs := rest } a n = true ↔ touches := races_iff _ _ _
    rw [hstep, ← hdevice, ← htouches]
    exact hostSideAccess_cases _ _ _ _

end Sys2Proof.Machine
end

section
/-! PROOFS. SEAL and OPEN as two commands in a row (43_container.md R306): KDF and then ENC, KDF and then DEC. -/

namespace Sys2Proof.Machine

/-! ### SEAL is KDF and then ENC -/

theorem SealRuns.kdfRuns {ksz : BitVec 2} {s : State} (h : SealRuns ksz s) : KdfRuns ksz s :=
  ⟨h.legalKsz, h.iter, h.pw, h.pwRead⟩

/-- An address with room for `k` more bytes in the DMA space does not wrap. -/
theorem toNat_add_of_le {w : Word} {k n : Nat} (hn : 0 < n) (h : w.toNat + (k + n) ≤ 2 ^ 32) :
    (w + BitVec.ofNat 32 k).toNat = w.toNat + k := by
  rw [BitVec.toNat_add, BitVec.toNat_ofNat, Nat.mod_eq_of_lt (a := k) (by omega), Nat.mod_eq_of_lt (by omega)]

/-- The ENC of R306 runs where the SEAL does: the KEY row holds the derived key, and DST_ADDR is behind the header. -/
theorem SealRuns.encResult {ksz : BitVec 2} {s u : State} (h : SealRuns ksz s) (hplatform : u.platform = s.platform)
    (hmem : u.mem = s.mem) (hoperands : u.operands = { s.operands with
      key := keyRegs (s.derivedKey ksz), dstAddr := s.operands.dstAddr + 32 }) :
    resultOf (.enc ksz) u = u.success
      (Memory.writeBytes s.mem (s.operands.dstAddr.toNat + 32)
        (encrypt (s.derivedKey ksz) s.operands.ivBytes s.inputBytes))
      (paddedLength s.operands.srcLen.toNat) u.drawCount := by
  have hout := h.out
  have hlegal := h.legal
  have hdst : u.operands.dstAddr.toNat = s.operands.dstAddr.toNat + 32 := by
    rw [hoperands]
    exact toNat_add_of_le (by omega) hout
  have hkey : u.keyOperand ksz = s.derivedKey ksz := by
    rw [State.keyOperand]
    exact keyBytes_of_key (by rw [hoperands]) (s.length_derivedKey ksz)
  have hin : u.inputBytes = s.inputBytes := by rw [State.inputBytes, hmem, hoperands, State.inputBytes]
  have hiv : u.operands.ivBytes = s.operands.ivBytes := by rw [hoperands]; rfl
  have hlen : u.operands.srcLen = s.operands.srcLen := by rw [hoperands]
  have hsrc : u.operands.srcAddr = s.operands.srcAddr := by rw [hoperands]
  have hruns : EncRuns ksz u := by
    refine ⟨h.legalKsz, ?_, ?_, ?_, ?_, ?_⟩ <;> simp only [hplatform, hsrc, hlen, hdst]
    · exact h.inp
    · omega
    · simp only [PassLegal]
      omega
    · exact h.inRead
    · exact h.outWrite.mono (by omega) (by omega)
  rw [hruns.result, hmem, hdst, hkey, hiv, hin, hlen]

/-- A container in memory is its header and, behind it, its ciphertext. -/
theorem writeBytes_container (m : Memory) (a : Nat) {salt iv c : List Byte} (hsalt : salt.length = 16)
    (hiv : iv.length = 16) :
    Memory.writeBytes m a (container salt iv c) =
      Memory.writeBytes (Memory.writeBytes m a (salt ++ iv)) (a + 32) c := by
  rw [container, Memory.writeBytes_append, List.length_append, hsalt, hiv]

/-- Two memories that agree at an address still do after the same write to both. -/
theorem read_writeBytes_congr {m m' : Memory} {x : Nat} (h : Memory.read m x = Memory.read m' x) (a : Nat)
    (b : List Byte) : Memory.read (Memory.writeBytes m a b) x = Memory.read (Memory.writeBytes m' a b) x := by
  rw [Memory.read_writeBytes, Memory.read_writeBytes, h]

/-- SEAL with GEN = 0 writes the registers' salt and IV, and behind them the ciphertext under the key of a KDF. -/
theorem SealRuns.result_of_registers {ksz : BitVec 2} {s : State} (h : SealRuns ksz s) :
    resultOf (.sealC ksz false) s = s.success
      (Memory.writeBytes
        (Memory.writeBytes s.mem s.operands.dstAddr.toNat (s.operands.saltBytes ++ s.operands.ivBytes))
        (s.operands.dstAddr.toNat + 32) (encrypt (s.derivedKey ksz) s.operands.ivBytes s.inputBytes))
      (32 + paddedLength s.operands.srcLen.toNat) s.drawCount := by
  rw [h.result false, ← writeBytes_container _ _ (length_saltBytes _) (length_ivBytes _)]
  rfl

/-- Settles O59: both ways write the same ciphertext at DST_ADDR + 32, and SEAL alone the header before it. -/
theorem sealIsKdfThenEnc : Obligations.SealIsKdfThenEnc := by
  unfold Obligations.SealIsKdfThenEnc
  intro ksz s hruns hoperands
  have hheader : (s.operands.saltBytes ++ s.operands.ivBytes).length = 32 := by simp
  refine ⟨_, _, _, exec_of_result hruns.result_of_registers, exec_of_result hruns.kdfRuns.result,
    exec_of_result (hruns.encResult ?_ ?_ ?_), ?_⟩
  · rfl
  · rfl
  · rw [hoperands]
    rfl
  simp only [State.commit_mem, State.success_mem]
  refine ⟨rfl, rfl, fun a ha => read_writeBytes_congr ?_ _ _, ?_, ?_, rfl, rfl, ?_⟩
  · exact Memory.read_writeBytes_of_outside _ _ _ _ (by omega)
  · rw [Memory.readBytes_writeBytes_of_disjoint _ _ _ _ _ (.inl (le_refl _))]
    exact Memory.readBytes_writeBytes_of_length _ _ _ _ hheader
  · exact Memory.readBytes_writeBytes_of_disjoint _ _ _ _ _ (.inl (le_refl _))
  · exact keyBytes_of_key rfl (s.length_derivedKey ksz)

/-! ### OPEN is KDF and then DEC -/

/-- The KDF of R306, with the salt of the container in SALT, derives the key that OPEN derives. -/
theorem OpenRuns.kdfResult {ksz : BitVec 2} {s u : State} {salt iv : Vector Word 4} (h : OpenRuns ksz s)
    (hplatform : u.platform = s.platform) (hmem : u.mem = s.mem)
    (hoperands : u.operands = { s.operands with salt := salt, iv := iv })
    (hsalt : u.operands.saltBytes = s.inputBytes.take 16) :
    resultOf (.kdf ksz) u =
      { u.success s.mem 0 u.drawCount with regs := { u.regs with key := keyRegs (s.openKey ksz) } } := by
  have hruns : KdfRuns ksz u := by
    refine ⟨h.legalKsz, ?_, ?_, ?_⟩ <;> simp only [hplatform, hoperands]
    · exact h.iter
    · exact h.pw
    · exact h.pwRead
  have hkey : u.derivedKey ksz = s.openKey ksz := by
    rw [State.derivedKey, State.passwordBytes, hsalt, hmem, hoperands]
    rfl
  rw [hruns.result, hkey, hmem]

/-- The DEC of R306 runs where the OPEN does and gives the same result: the KEY and IV rows hold what OPEN derives and
reads, and the input is the ciphertext of the container. -/
theorem OpenRuns.decResult {ksz : BitVec 2} {s u : State} (h : OpenRuns ksz s) (hplatform : u.platform = s.platform)
    (hmem : u.mem = s.mem) (hdst : u.operands.dstAddr = s.operands.dstAddr)
    (hsrc : u.operands.srcAddr = s.operands.srcAddr + 32) (hlen : u.operands.srcLen = s.operands.srcLen - 32)
    (hkey : u.keyOperand ksz = s.openKey ksz) (hiv : u.operands.ivBytes = s.openIv)
    (hdraws : u.drawCount = s.drawCount) :
    resultOf (.dec ksz) u = { resultOf (.openC ksz) s with regs := u.regs } := by
  have hlong := h.long
  have hblocks := h.blocks
  have hinp := h.inp
  have hlegal := h.legal
  have hsrc' : u.operands.srcAddr.toNat = s.operands.srcAddr.toNat + 32 := by
    rw [hsrc]
    exact toNat_add_of_le (k := 32) (n := s.operands.srcLen.toNat - 32) (by omega) (by omega)
  have hlen' : u.operands.srcLen.toNat = s.operands.srcLen.toNat - 32 := by
    rw [hlen]
    exact BitVec.toNat_sub_of_le (by rw [BitVec.le_def]; exact le_trans (by decide) hlong)
  have hin : u.inputBytes = s.openCiphertext := by
    rw [State.inputBytes, hmem, hsrc', hlen', (openParts s (by omega)).2.2]
  have hheld : heldBlock (.dec ksz) u = heldBlock (.openC ksz) s := by
    rw [heldBlock, heldBlock, hkey, hiv, hin]
  have hruns : DecRuns ksz u := by
    refine ⟨h.legalKsz, ?_, ?_, ?_, ?_, ?_, ?_, ?_⟩ <;> simp only [hplatform, hsrc', hlen', hdst, hheld]
    · omega
    · omega
    · omega
    · exact h.out
    · simp only [PassLegal]
      omega
    · exact h.inRead.mono (by omega) (by omega)
    · rw [Nat.sub_sub]
      exact h.outWrite
  cases hx : decrypt (s.openKey ksz) s.openIv s.openCiphertext with
  | some x =>
    rw [hruns.result_of_decrypt (by rw [hkey, hiv, hin, hx]), resultOf, openResult_of_decrypt h hx, hmem, hdst, hdraws]
    rfl
  | none =>
    rw [resultOf_dec_of_bad_padding hruns (by rw [hkey, hiv, hin, hx]), h.result_of_bad_padding hx, hmem, hdst, hkey,
      hiv, hin, hlen', Nat.sub_sub, hdraws]
    rfl

/-- Settles O60: the DEC gives the result of the OPEN, good padding or bad. -/
theorem openIsKdfThenDec : Obligations.OpenIsKdfThenDec := by
  unfold Obligations.OpenIsKdfThenDec
  intro ksz s salt iv hruns hpending hsalt hiv
  have hoperands : s.operands = s.regs := State.operands_of_none hpending
  have hloaded : State.operands { s with regs := { s.regs with salt := salt, iv := iv } } =
      { s.operands with salt := salt, iv := iv } := by
    rw [hoperands]
    exact State.operands_of_none hpending
  have hsalt' : (State.operands { s with regs := { s.regs with salt := salt, iv := iv } }).saltBytes =
      s.inputBytes.take 16 := by
    rw [hloaded, hoperands, hsalt]
  refine ⟨_, _, _, exec_eq_commit (.openC ksz) s, exec_of_result (hruns.kdfResult rfl rfl hloaded hsalt'),
    exec_of_result (hruns.decResult rfl rfl ?_ ?_ ?_ ?_ ?_ ?_), rfl, rfl, rfl, rfl, ?_⟩
  · rw [hoperands]
    rfl
  · rw [hoperands]
    rfl
  · rw [hoperands]
    rfl
  · exact keyBytes_of_key rfl (length_derive _ _ _ ksz)
  · exact hiv
  · exact outLenDraws_zero _
  · exact congrArg (·.key) (openResult_regs ksz s)

end Sys2Proof.Machine
end
